-- ==== Sys2Proof/Word.lean ====
section
/-!
DEFINITION. The words and data of the hardware as types: bytes, operation words, floating-point
data, complex samples, transition records. Arithmetic on them is in Sys2Proof/Machine/Float.lean.
-/

namespace Sys2Proof

/-- A `u8` (spec R11). -/
abbrev Byte := BitVec 8

/-- An operation word, an IQ word or an event word (spec R101, R110, R118). -/
abbrev Word16 := BitVec 16

/-- The `unit` field of an operation word: a channel or consumer number (spec R102). -/
abbrev UnitNo := BitVec 8

/-- A binary floating-point format: `prec` bits of significand (the leading one counted) and the
largest exponent `emax`; the least normal exponent is `1 - emax`, as in IEEE 754 (spec R9, R12). -/
structure Format where
  prec : Nat
  emax : Nat
deriving DecidableEq, Repr

/-- A floating-point datum (spec R12: "a finite number, a signed zero, an infinity or a NaN").
`fin neg mant exp` is `(-1)^neg * mant * 2^exp`, a zero when `mant = 0`. -/
inductive Datum where
  | nan
  | inf (neg : Bool)
  | fin (neg : Bool) (mant : Nat) (exp : Int)
deriving DecidableEq, Repr, Inhabited

/-- A complex sample `re + j*im` (spec R12, R111). -/
structure Cplx where
  re : Datum
  im : Datum
deriving DecidableEq, Repr, Inhabited

/-- A block: complex samples in time order (spec R111). The empty block is the terminator. -/
abbrev Block := List Cplx

/-- A transition record `{ idx, new_state }` (spec R112). -/
structure Transition where
  idx : Nat
  newState : Bool
deriving DecidableEq, Repr

/-- The direction of rotation `sgn` of the oscillator, +1 or -1 (spec R21). -/
inductive Rotation where
  | plus
  | minus
deriving DecidableEq, Repr

/-- The coefficients `(b0, b1, b2, a1, a2)` of one filter section (spec R23). -/
structure Biquad where
  b0 : Datum
  b1 : Datum
  b2 : Datum
  a1 : Datum
  a2 : Datum
deriving DecidableEq, Repr

end Sys2Proof
end

