-- ==== Sys2Proof/Syntax.lean ====
section
/-!
DEFINITION. The operations of spec R104, one constructor for each row of the opcode table. `c` is the
channel or consumer number in the word's `unit` field.
-/

namespace Sys2Proof

/-- The seventeen operations (spec R104). -/
inductive Instr where
  /-- Construct the Splitter (R270). -/
  | spinit
  /-- Construct channel `c` (R300). -/
  | chinit (c : UnitNo)
  /-- Append a block (R272). -/
  | push
  /-- Read the block at the consumer's cursor (R273). -/
  | get (c : UnitNo)
  /-- Advance the consumer's cursor (R275). -/
  | next (c : UnitNo)
  /-- Close the stream (R279). -/
  | close
  /-- Frequency shifter (R136). -/
  | shift (c : UnitNo)
  /-- Low-pass filter (R153). -/
  | lpf (c : UnitNo)
  /-- FM discriminator (R168). -/
  | disc (c : UnitNo)
  /-- Transition extractor (R187). -/
  | extr (c : UnitNo)
  /-- Bit synchronizer, one transition (R201). -/
  | bsync (c : UnitNo)
  /-- FEC decoder, one bit (R221). -/
  | fecbit (c : UnitNo)
  /-- Block decode (R230). -/
  | fecdec (c : UnitNo)
  /-- Load the work buffer, test access (R302). -/
  | loadx (c : UnitNo)
  /-- Run the chain on the block at the cursor (R304). -/
  | block (c : UnitNo)
  /-- The engine of channel `c` (R307). -/
  | run (c : UnitNo)
  /-- The producer, one read (R308). -/
  | pump
deriving DecidableEq, Repr

end Sys2Proof
end

