-- ==== Sys2Proof/Decode.lean ====
section
/-!
DEFINITION. The decoder of operation words, total on every 16-bit word and rejecting by name (spec
R101 to R105), and the encoder, both written from the table of spec R104.
-/

namespace Sys2Proof

/-- What a word means: an operation, or one of the two refusals of spec R103 with the word's `unit`.
Whether `unit < N` is the operation's own check, since `N` belongs to the Splitter. -/
inductive Decoded where
  | ok (i : Instr)
  /-- `op` is not in the table of spec R104 (BAD_OP). -/
  | badOp (unit : UnitNo)
  /-- `unit` is not 0 where the table requires 0 (BAD_UNIT). -/
  | badUnit (unit : UnitNo)
deriving DecidableEq, Repr

/-- The `op` field, bits 15:8 (spec R101). -/
def wordOp (w : Word16) : Byte := w.extractLsb' 8 8

/-- The `unit` field, bits 7:0 (spec R101). -/
def wordUnit (w : Word16) : UnitNo := w.extractLsb' 0 8

/-- An operation that does not act on one channel: its `unit` must be 0 (spec R101, R103). -/
def withoutUnit (i : Instr) (u : UnitNo) : Decoded := if u = 0#8 then .ok i else .badUnit u

/-- The operation word's meaning (spec R104). -/
def decodeWord (w : Word16) : Decoded :=
  match wordOp w with
  | 0x01#8 => withoutUnit .spinit (wordUnit w)
  | 0x02#8 => .ok (.chinit (wordUnit w))
  | 0x10#8 => withoutUnit .push (wordUnit w)
  | 0x11#8 => .ok (.get (wordUnit w))
  | 0x12#8 => .ok (.next (wordUnit w))
  | 0x13#8 => withoutUnit .close (wordUnit w)
  | 0x20#8 => .ok (.shift (wordUnit w))
  | 0x21#8 => .ok (.lpf (wordUnit w))
  | 0x22#8 => .ok (.disc (wordUnit w))
  | 0x23#8 => .ok (.extr (wordUnit w))
  | 0x24#8 => .ok (.bsync (wordUnit w))
  | 0x25#8 => .ok (.fecbit (wordUnit w))
  | 0x26#8 => .ok (.fecdec (wordUnit w))
  | 0x27#8 => .ok (.loadx (wordUnit w))
  | 0x28#8 => .ok (.block (wordUnit w))
  | 0x29#8 => .ok (.run (wordUnit w))
  | 0x30#8 => withoutUnit .pump (wordUnit w)
  | _ => .badOp (wordUnit w)

/-- The word in a byte stream: the high byte (`op`) first (spec R101). -/
def wordBytes (w : Word16) : List Byte := [wordOp w, wordUnit w]

/-- The word of two bytes, high byte first (spec R101). -/
def wordOfBytes (hi lo : Byte) : Word16 := hi ++ lo

/-- The decoder on a byte stream: the meaning of the first word and the bytes after it; `none` when
fewer than two bytes are left (there is one length, 16 bits: spec R106). -/
def decodeBytes : List Byte → Option (Decoded × List Byte)
  | hi :: lo :: rest => some (decodeWord (wordOfBytes hi lo), rest)
  | _ => none

/-- The operation the decoder reads from an opcode-table row's bits `w`: the word is laid out as the
hardware sends it, high byte first, and given to the decoder; `none` where it refuses. -/
def decodeTableWord (nbits w : Nat) : Option Instr :=
  match decodeBytes (wordBytes (BitVec.ofNat 16 (w % 2 ^ nbits))) with
  | some (.ok i, _) => some i
  | _ => none

/-- The `op` code of an operation (spec R104). -/
def Instr.opCode : Instr → Byte
  | .spinit => 0x01#8
  | .chinit _ => 0x02#8
  | .push => 0x10#8
  | .get _ => 0x11#8
  | .next _ => 0x12#8
  | .close => 0x13#8
  | .shift _ => 0x20#8
  | .lpf _ => 0x21#8
  | .disc _ => 0x22#8
  | .extr _ => 0x23#8
  | .bsync _ => 0x24#8
  | .fecbit _ => 0x25#8
  | .fecdec _ => 0x26#8
  | .loadx _ => 0x27#8
  | .block _ => 0x28#8
  | .run _ => 0x29#8
  | .pump => 0x30#8

/-- The `unit` field of an operation's word: the channel, or 0 (spec R101). -/
def Instr.unitField : Instr → UnitNo
  | .spinit => 0#8
  | .chinit c => c
  | .push => 0#8
  | .get c => c
  | .next c => c
  | .close => 0#8
  | .shift c => c
  | .lpf c => c
  | .disc c => c
  | .extr c => c
  | .bsync c => c
  | .fecbit c => c
  | .fecdec c => c
  | .loadx c => c
  | .block c => c
  | .run c => c
  | .pump => 0#8

/-- The operation's word: `op` in bits 15:8, `unit` in bits 7:0 (spec R101). -/
def encode (i : Instr) : Word16 := wordOfBytes i.opCode i.unitField

end Sys2Proof
end

