-- ==== Sys2Proof/Config.lean ====
section
/-!
DEFINITION. What an instance of the hardware fixes: the construction parameters of spec R9 as plain
data, and the free values (opaque constants, no body) for what the spec leaves open.
-/

namespace Sys2Proof

/-- The construction parameters of spec R9, as the `cfg` port presents them. They are data of State
that no operation writes (spec R47, R371). `none` in an optional parameter is "unbounded". -/
structure Params where
  /-- `N`, the consumer count. -/
  n : Nat
  /-- `S`, the sample rate, an `FP_A` value. -/
  sampleRate : Datum
  /-- `F[c]`, the requested shift frequency of channel `c`, an `FP_A` value. -/
  freq : List Datum
  /-- `SOS[k]`, `FP_S` values. -/
  sos : Vector Biquad 3
  /-- `OFF`, an `FP_A` value. -/
  off : Datum
  /-- `BW`, an `FP_A` value. -/
  bw : Datum
  /-- `TRELLIS[(s << 1) | u]`. -/
  trellis : Vector (BitVec 2) 16
  /-- `E0`. -/
  e0 : Byte
  /-- `E1`. -/
  e1 : Byte
  /-- `INTERLEAVE[q]`, a coded-bit offset inside a group of 32. -/
  interleave : Vector (BitVec 16) 16
  /-- `WHITEN[k]`. -/
  whiten : Vector Byte 128
  /-- `CRC_OK`. -/
  crcOk : Byte
  /-- `LAG_WARN`. -/
  lagWarn : Nat
  /-- `WINDOW_CAP`. -/
  windowCap : Option Nat
  /-- `BLOCK_MAX`. -/
  blockMax : Option Nat
  /-- `READ_MAX`. -/
  readMax : Nat
  /-- `T_MAX`. -/
  tMax : Option Nat
  /-- `FP_S`, the format of samples, coefficients and filter state. -/
  fpS : Format
  /-- `FP_A`, the format of `alignment`, `BW`, `OFF`, positions. -/
  fpA : Format
deriving DecidableEq, Repr

/-- The instance's trigonometric functions (spec R134: "a configuration field"): of a fraction `t` of a
turn, for a format, the value before `toS` as a dyadic fraction, `p.1 / 2^p.2`. Their results are "within
the format's tolerance of the true cosine and sine" (third property of R134); the tolerance, which the
spec does not put a number to, is two units of `2^(-prec)`: DESIGN CHOICE, assumption 13. -/
structure TrigFunctions where
  cos : Format → Rat → Int × Nat
  sin : Format → Rat → Int × Nat
  cos_near : ∀ (f : Format) (t : Rat), 0 ≤ t → t < 1 →
    |((cos f t).1 : ℝ) / 2 ^ (cos f t).2 - Real.cos (2 * Real.pi * t)| ≤ 2 / 2 ^ f.prec
  sin_near : ∀ (f : Format) (t : Rat), 0 ≤ t → t < 1 →
    |((sin f t).1 : ℝ) / 2 ^ (sin f t).2 - Real.sin (2 * Real.pi * t)| ≤ 2 / 2 ^ f.prec

/-- `COS` and `SIN` of the instance (spec R134). Free value: any functions with the properties of
`TrigFunctions`; Machine/Trig.lean shows that there are some. `oscEntry` builds the two exact properties
of R134 into the table. Assumption 13. -/
opaque Config.trig [Inhabited TrigFunctions] : TrigFunctions

/-- Byte `k` of `msg` after the construction number `n` (spec R33, R373: unspecified). Free value,
assumption 15. -/
opaque Config.freeByte : Nat → Nat → Byte

/-- Entry `m` of the staging buffer after the construction number `n` (spec R26, R373: unspecified).
Free value, assumption 17. -/
opaque Config.freeSample : Nat → Nat → Cplx

/-- `close_index` after the construction number `n` (spec R37, R373: unspecified). Free value,
assumption 16. -/
opaque Config.freeIndex : Nat → Nat

end Sys2Proof
end

