-- ==== Sys2Proof/Machine/Float.lean ====
section
/-!
DEFINITION. Floating-point arithmetic of any binary format (spec R12, R17) and the complex
primitives of spec R12. Each primitive computes the exact result as an integer fraction times a power
of two and rounds once, to nearest, ties to even.
-/

namespace Sys2Proof

/-- The exponent of the least quantum of a format: subnormal numbers are kept (spec R17). -/
def Format.etiny (f : Format) : Int := 2 - f.emax - f.prec

/-- Legal formats: at least two bits of significand and a positive largest exponent. -/
def Format.legal (f : Format) : Bool := decide (2 ≤ f.prec) && decide (1 ≤ f.emax)

/-- `n / d` to the nearest integer, ties to even (`d > 0`). -/
def roundDiv (n d : Nat) : Nat :=
  if 2 * (n % d) > d then n / d + 1
  else if 2 * (n % d) = d then n / d + n / d % 2
  else n / d

/-- `floor (log2 (n / d))` for `n, d > 0`. -/
def ratioLog2 (n d : Nat) : Int :=
  let k : Int := (n.log2 : Int) - (d.log2 : Int)
  if d * 2 ^ k.toNat ≤ n * 2 ^ (-k).toNat then k else k - 1

/-- A rounded significand `m` at quantum `2^q`: renormalised when rounding carried out of `prec`
bits, an infinity when the exponent exceeds `emax`. -/
def packDatum (f : Format) (neg : Bool) (m : Nat) (q : Int) : Datum :=
  let m' := if m = 2 ^ f.prec then 2 ^ (f.prec - 1) else m
  let q' := if m = 2 ^ f.prec then q + 1 else q
  if (f.emax : Int) + 1 < q' + f.prec then .inf neg else .fin neg m' q'

/-- `(-1)^neg * (n / d) * 2^e` rounded once into the format (spec R12: round-to-nearest-even). -/
def roundQ (f : Format) (neg : Bool) (n d : Nat) (e : Int) : Datum :=
  if n = 0 then .fin neg 0 f.etiny
  else
    let q : Int := max (ratioLog2 n d + e + 1 - f.prec) f.etiny
    let sh : Int := e - q
    packDatum f neg (roundDiv (n * 2 ^ sh.toNat) (d * 2 ^ (-sh).toNat)) q

/-- `toA`, `toS` of an integer (spec R12). -/
def ofInt (f : Format) (i : Int) : Datum := roundQ f (decide (i < 0)) i.natAbs 1 0

/-- `toA(n)` of a natural (spec R12). -/
def ofNat (f : Format) (n : Nat) : Datum := roundQ f false n 1 0

/-- A datum rounded into another format, `toS(x)` of spec R12. -/
def Datum.convert (f : Format) : Datum → Datum
  | .nan => .nan
  | .inf s => .inf s
  | .fin s m e => roundQ f s m 1 e

/-- The datum with its sign inverted (spec R12, `conj`). -/
def Datum.neg : Datum → Datum
  | .nan => .nan
  | .inf s => .inf (!s)
  | .fin s m e => .fin (!s) m e

/-- `| x |`. -/
def Datum.abs : Datum → Datum
  | .nan => .nan
  | .inf _ => .inf false
  | .fin _ m e => .fin false m e

def Datum.isFinite : Datum → Bool
  | .fin _ _ _ => true
  | _ => false

/-- `x = 0` as the floating-point comparison has it, true for +0 and -0 (spec R17). -/
def Datum.isZero : Datum → Bool
  | .fin _ m _ => m == 0
  | _ => false

/-- `m * 2^(e - lo)` with its sign, for `lo ≤ e`: a finite datum in units of `2^lo`. -/
def signedMant (s : Bool) (m : Nat) (e lo : Int) : Int :=
  if s then -((m * 2 ^ (e - lo).toNat : Nat) : Int) else ((m * 2 ^ (e - lo).toNat : Nat) : Int)

/-- `x < y` (spec R17): false when either is a NaN; the two zeros are equal. -/
def Datum.lt : Datum → Datum → Bool
  | .nan, _ => false
  | _, .nan => false
  | .inf a, .inf b => a && !b
  | .inf a, .fin _ _ _ => a
  | .fin _ _ _, .inf b => !b
  | .fin s m e, .fin t n g => decide (signedMant s m e (min e g) < signedMant t n g (min e g))

/-- `+_S`, `+_A` (spec R12). An exact zero sum of unlike signs is +0. -/
def fpAdd (f : Format) : Datum → Datum → Datum
  | .nan, _ => .nan
  | _, .nan => .nan
  | .inf a, .inf b => if a = b then .inf a else .nan
  | .inf a, .fin _ _ _ => .inf a
  | .fin _ _ _, .inf b => .inf b
  | .fin s m e, .fin t n g =>
    let sum := signedMant s m e (min e g) + signedMant t n g (min e g)
    roundQ f (if sum = 0 then s && t else decide (sum < 0)) sum.natAbs 1 (min e g)

/-- `-_S`, `-_A` (spec R12). -/
def fpSub (f : Format) (x y : Datum) : Datum := fpAdd f x y.neg

/-- `*_S`, `*_A` (spec R12). -/
def fpMul (f : Format) : Datum → Datum → Datum
  | .nan, _ => .nan
  | _, .nan => .nan
  | .inf a, .inf b => .inf (a != b)
  | .inf a, .fin t n _ => if n = 0 then .nan else .inf (a != t)
  | .fin s m _, .inf b => if m = 0 then .nan else .inf (s != b)
  | .fin s m e, .fin t n g => roundQ f (s != t) (m * n) 1 (e + g)

/-- `/_A` (spec R12). -/
def fpDiv (f : Format) : Datum → Datum → Datum
  | .nan, _ => .nan
  | _, .nan => .nan
  | .inf _, .inf _ => .nan
  | .inf a, .fin t _ _ => .inf (a != t)
  | .fin s _ _, .inf b => .fin (s != b) 0 f.etiny
  | .fin s m e, .fin t n g =>
    if n = 0 then (if m = 0 then .nan else .inf (s != t))
    else roundQ f (s != t) m n (e - g)

/-- `floor(x)` of a finite datum (spec R11); no integer for an infinity or a NaN. -/
def Datum.floor? : Datum → Option Int
  | .fin s m e =>
    let n : Int := if s then -(m : Int) else (m : Int)
    some (if 0 ≤ e then n * 2 ^ e.toNat else n / 2 ^ (-e).toNat)
  | _ => none

/-- `ceil(x)` of a finite datum (spec R11). -/
def Datum.ceil? (x : Datum) : Option Int := x.neg.floor?.map (fun k => -k)

/-- The zero `+0` of a format. -/
def fpZero (f : Format) : Datum := .fin false 0 f.etiny

/-- The datum is a value of the format, in its one representation: a significand of at most `prec`
bits, of exactly `prec` bits unless the exponent is the least one, and an exponent not too large. -/
def Datum.inFormat (f : Format) : Datum → Bool
  | .nan => true
  | .inf _ => true
  | .fin _ m e =>
    decide (m < 2 ^ f.prec) && decide (f.etiny ≤ e) && decide (e + f.prec ≤ (f.emax : Int) + 1)
      && (decide (2 ^ (f.prec - 1) ≤ m) || decide (e = f.etiny))

/-- A finite value of the format. -/
def Datum.isReal (f : Format) (x : Datum) : Bool := x.isFinite && x.inFormat f

/-- A finite value of the format greater than zero. -/
def Datum.isPositive (f : Format) (x : Datum) : Bool := x.isReal f && (fpZero f).lt x

/-! Complex primitives (spec R12), each with the order of operations the rule names. -/

def cadd (f : Format) (a c : Cplx) : Cplx := ⟨fpAdd f a.re c.re, fpAdd f a.im c.im⟩

def csub (f : Format) (a c : Cplx) : Cplx := ⟨fpSub f a.re c.re, fpSub f a.im c.im⟩

def cscale (f : Format) (k : Datum) (a : Cplx) : Cplx := ⟨fpMul f k a.re, fpMul f k a.im⟩

def cmul (f : Format) (a c : Cplx) : Cplx :=
  ⟨fpSub f (fpMul f a.re c.re) (fpMul f a.im c.im), fpAdd f (fpMul f a.re c.im) (fpMul f a.im c.re)⟩

/-- `a` times the complex conjugate of `c`. -/
def cmulconj (f : Format) (a c : Cplx) : Cplx :=
  ⟨fpAdd f (fpMul f a.re c.re) (fpMul f a.im c.im), fpSub f (fpMul f a.im c.re) (fpMul f a.re c.im)⟩

def Cplx.conj (a : Cplx) : Cplx := ⟨a.re, a.im.neg⟩

/-- `0 + j*0`. -/
def czero (f : Format) : Cplx := ⟨fpZero f, fpZero f⟩

/-- `1 + j*0`. -/
def cone (f : Format) : Cplx := ⟨ofNat f 1, fpZero f⟩

end Sys2Proof
end

