-- ==== Sys2Proof/Machine/Tables.lean ====
section
/-!
DEFINITION. The constants of the source (spec R9), the default tables of spec 45_fec.md, and the
instance that State.reset presents on the `cfg` port.
-/

namespace Sys2Proof.Machine

/-- `R_MAX` (spec R9). -/
def repeatMax : Nat := 9

/-- `SYNC_PATTERN` as a 34-bit number, position 0 the most significant bit (spec R115). -/
def syncPattern : BitVec 34 := 0x2AAAAD391#34

/-- `MSG_BITS` (spec R9). -/
def msgBits : Nat := 576

/-- `OUT_LEN` (spec R9). -/
def outLen : Nat := 34

/-- `CRC_POLY` (spec R9). -/
def crcPoly : BitVec 16 := 0x8005#16

/-- `CRC_INIT` (spec R9). -/
def crcInit : BitVec 16 := 0xFFFF#16

/-- The cost of an unfavoured trellis state at the start of a decode (spec R236). -/
def largeCost : BitVec 32 := 0x7FFFFFFF#32

/-- `PULL` = 0.2 in `FP_A` (spec R200: the nearest value). -/
def pullWeight (f : Format) : Datum := roundQ f false 1 5 0

/-- The keep weight 0.8 in `FP_A` (spec R200: the nearest value). -/
def keepWeight (f : Format) : Datum := roundQ f false 4 5 0

/-- IEEE 754 binary32, the default `FP_S` (spec R9). -/
def binary32 : Format := ⟨24, 127⟩

/-- IEEE 754 binary64, the default `FP_A` (spec R9). -/
def binary64 : Format := ⟨53, 1023⟩

/-- The default `TRELLIS` (spec R232, general knowledge). -/
def defaultTrellis : Vector (BitVec 2) 16 := #v[0, 3, 1, 2, 3, 0, 2, 1, 3, 0, 2, 1, 0, 3, 1, 2]

/-- The default `INTERLEAVE` (spec R235, general knowledge). -/
def defaultInterleave : Vector (BitVec 16) 16 :=
  #v[0x1E, 0x16, 0x0E, 0x06, 0x1C, 0x14, 0x0C, 0x04, 0x1A, 0x12, 0x0A, 0x02, 0x18, 0x10, 0x08, 0x00]

/-- The default `WHITEN` (spec R243, general knowledge). -/
def defaultWhiten : Vector Byte 128 :=
  #v[0xFF, 0xE1, 0x1D, 0x9A, 0xED, 0x85, 0x33, 0x24, 0xEA, 0x7A, 0xD2, 0x39, 0x70, 0x97, 0x57, 0x0A,
     0x54, 0x7D, 0x2D, 0xD8, 0x6D, 0x0D, 0xBA, 0x8F, 0x67, 0x59, 0xC7, 0xA2, 0xBF, 0x34, 0xCA, 0x18,
     0x30, 0x53, 0x93, 0xDF, 0x92, 0xEC, 0xA7, 0x15, 0x8A, 0xDC, 0xF4, 0x86, 0x55, 0x4E, 0x18, 0x21,
     0x40, 0xC4, 0xC4, 0xD5, 0xC6, 0x91, 0x8A, 0xCD, 0xE7, 0xD1, 0x4E, 0x09, 0x32, 0x17, 0xDF, 0x83,
     0xFF, 0xF0, 0x0E, 0xCD, 0xF6, 0xC2, 0x19, 0x12, 0x75, 0x3D, 0xE9, 0x1C, 0xB8, 0xCB, 0x2B, 0x05,
     0xAA, 0xBE, 0x16, 0xEC, 0xB6, 0x06, 0xDD, 0xC7, 0xB3, 0xAC, 0x63, 0xD1, 0x5F, 0x1A, 0x65, 0x0C,
     0x98, 0xA9, 0xC9, 0x6F, 0x49, 0xF6, 0xD3, 0x0A, 0x45, 0x6E, 0x7A, 0xC3, 0x2A, 0x27, 0x8C, 0x10,
     0x20, 0x62, 0xE2, 0x6A, 0xE3, 0x48, 0xC5, 0xE6, 0xF3, 0x68, 0xA7, 0x04, 0x99, 0x8B, 0xEF, 0xC1]

/-- The section that passes its input through, `(1, 0, 0, 0, 0)`. -/
def identitySection (f : Format) : Biquad := ⟨ofNat f 1, fpZero f, fpZero f, fpZero f, fpZero f⟩

/-- The instance of the spec's program P3 (spec 95_test_vectors.md section 9) with the defaults of
spec R9: what `State.reset` presents on the `cfg` port. DESIGN CHOICE, assumption 1. -/
def resetParams : Params where
  n := 2
  sampleRate := ofNat binary64 4
  freq := [ofInt binary64 1, ofInt binary64 (-1)]
  sos := Vector.replicate 3 (identitySection binary32)
  off := ofNat binary64 1
  bw := ofNat binary64 2
  trellis := defaultTrellis
  e0 := 0x00
  e1 := 0xFF
  interleave := defaultInterleave
  whiten := defaultWhiten
  crcOk := 0x80
  lagWarn := 100
  windowCap := none
  blockMax := none
  readMax := 500
  tMax := none
  fpS := binary32
  fpA := binary64

end Sys2Proof.Machine
end

