-- ==== Sys2Proof/Machine/State.lean ====
section
/-!
DEFINITION. The machine's state as plain data (spec 10_state.md), the outcomes' reasons, and the
state after reset.
-/

namespace Sys2Proof.Machine

/-- The hardware has no fault: "Nothing in this hardware faults" (spec R345, treatment `fault: not
used` of 93_implementation_defined.md). No constructor, so no step can end in a fault. -/
inductive Fault
deriving DecidableEq, Repr

/-- Reasons for which the model gives an operation no outcome. The refusals of spec R338 are not
here: they leave the machine going, and are next states with an event word. -/
inductive Refusal where
  /-- Raised by an arm of `exec` whose operation has no meaning yet. Safe: the model stops. No arm
  raises it. -/
  | notModelled (mnemonic : String)
deriving DecidableEq, Repr

/-- The mode of the FEC decoder (spec R31). -/
inductive Mode where
  | syncing
  | buffering
deriving DecidableEq, Repr

/-- The state of one filter section, `zi[k][0]` and `zi[k][1]` (spec R22). -/
structure Zi where
  z0 : Cplx
  z1 : Cplx
deriving DecidableEq, Repr

/-- The working state of a block decode (spec R35). -/
structure Viterbi where
  cost : Vector (BitVec 32) 8
  path : Vector (BitVec 32) 8
  ncost : Vector (BitVec 32) 8
  npath : Vector (BitVec 32) 8
  o : Nat
  nout : Nat
  crc : BitVec 16
  out : Vector Byte 34
deriving DecidableEq, Repr

/-- A decoded frame as it leaves on `sink[c]` (spec R36, R117). -/
structure Frame where
  data : Vector Byte 34
  crcMatch : Bool
  channelId : UnitNo
deriving DecidableEq, Repr

/-- The state one channel owns (spec R20 to R35, R50, R51). -/
structure Channel where
  /-- `CHINIT` has run (spec R372). -/
  constructed : Bool
  /-- `T` (R21). -/
  tLen : Nat
  /-- `R` (R21). -/
  rep : Nat
  /-- `sgn` (R21). -/
  sgn : Rotation
  /-- `OSC[0 .. T-1]` (R21). -/
  osc : List Cplx
  /-- `cfg_warn` (R21). -/
  cfgWarn : Bool
  /-- `FRAC` (R166). -/
  frac : Datum
  /-- `HLEN` (R166). -/
  hlen : Nat
  /-- The filter state (R22). -/
  zi : Vector Zi 3
  /-- The discriminator history, oldest first (R25). -/
  hist : List Cplx
  /-- The discriminator's staging buffer (R26). -/
  staging : List Cplx
  /-- `prev_bit` (R27). -/
  prevBit : Bool
  /-- `n_total` (R28). -/
  nTotal : Nat
  /-- The work buffer (R50). -/
  x : Block
  /-- The queue of transitions (R51). -/
  tq : List Transition
  /-- The queue of decided bits (R51). -/
  bq : List Bool
  /-- The clock accumulator (R29). -/
  alignment : Datum
  /-- R31. -/
  mode : Mode
  /-- `sync_reg`, position `m` of the spec at bit `33 - m`, `'1'` as 1 (R32). -/
  syncReg : BitVec 34
  /-- The coded block (R33). -/
  msg : Vector Byte 576
  /-- `out_cursor` (R34). -/
  outCursor : Nat
  /-- The block decode's working state (R35). -/
  wk : Viterbi
deriving DecidableEq, Repr

/-- The Splitter's state (spec R37). -/
structure Splitter where
  /-- `SPINIT` has run (spec R372). -/
  constructed : Bool
  /-- Retained blocks, oldest first. -/
  window : List Block
  /-- "index of oldest retained block". -/
  base : Nat
  /-- The write position. -/
  wr : Nat
  /-- One entry for each consumer. -/
  cursor : List Nat
  closed : Bool
  /-- Meaningful only when `closed`. -/
  closeIndex : Nat
  /-- Sticky. -/
  lagWarn : Bool
deriving DecidableEq, Repr

/-- One atomic piece of an engine's program still to do (the model's own data, assumption 6): the
primitives of the composite operations, in the terms of the expansions of spec R108 and R304. -/
inductive Piece where
  /-- An operation. -/
  | op (i : Instr)
  /-- `while tq is not empty: BSYNC c` (spec R304). -/
  | drainTq
  /-- `while bq is not empty: FECBIT c` (spec R304). -/
  | drainBq
  /-- `n_total <- n_total + L` (spec R305). -/
  | advance (len : Nat)
deriving DecidableEq, Repr

/-- Where an engine's program stands (the model's own field, assumption 5). -/
structure Engine where
  /-- What the engine has begun or been offered and not finished, the next piece first. -/
  todo : List Piece
  /-- The engine has received the terminator (spec R313). -/
  ended : Bool
deriving DecidableEq, Repr

/-- Where the producer's program stands (the model's own field, assumption 6). -/
structure Producer where
  /-- The block a `PUMP` has read and not yet pushed (spec R308). -/
  held : Option Block
  /-- `PUMP` has returned "stopped" (spec R308). -/
  stopped : Bool
deriving DecidableEq, Repr

/-- The events and refusals of spec R331 and R338. -/
inductive Event where
  | cfgAdjust
  | crcFail
  | lag
  | eos
  | pushReject
  | badUnit
  | emptyPush
  | nextBeyondWrite
  | badConfig
  | windowOverflow
  | badOp
  | emptyQueue
  | noBlock
  | blockTooLong
  | notConstructed
deriving DecidableEq, Repr

/-- What the last completed or refused operation gave its issuer (spec R104, column data out; the
model's own field, assumption 7). -/
inductive Response where
  /-- Completed, no data out. -/
  | nothing
  /-- `PUSH`: the success bit. -/
  | pushed (ok : Bool)
  /-- `GET`: a block. -/
  | block (b : Block)
  /-- `GET` and `RUN`: the terminator. -/
  | terminator
  /-- `PUMP`: running. -/
  | running
  /-- `PUMP`: stopped. -/
  | stopped
  /-- The request was refused (spec R338). -/
  | refused (e : Event)
deriving DecidableEq, Repr

/-- One entry of the schedule: which agent takes the next atomic step (spec R86; assumption 3). -/
inductive Turn where
  /-- An operation word on the `cmd` port, with the block on `blk_in` and the read on `src` that
  accompany it (spec R100, R107). -/
  | word (w : Word16) (blk : Block) (rd : List Word16)
  /-- Engine `c` takes the next piece of what it has begun. -/
  | engine (c : UnitNo)
  /-- The producer goes on with the `PUMP` it has begun. -/
  | producer
  /-- A request on the `stop` port (spec R340). -/
  | stop
  /-- The sink of channel `c` begins or ceases to take frames (spec R311). -/
  | sink (c : UnitNo) (ready : Bool)
deriving DecidableEq, Repr

/-- The whole machine (spec 10_state.md), with its ports and its agents. -/
structure State where
  /-- The construction parameters on the `cfg` port (spec R9, R47). -/
  cfg : Params
  /-- The schedule, the next turn first (assumption 3). -/
  turns : List Turn
  /-- The block on port `blk_in` (spec R100). -/
  blkIn : Block
  /-- The IQ words of the read on port `src` (spec R100, R301). -/
  srcIn : List Word16
  /-- Which sinks take a frame now (spec R311; assumption 24). -/
  sinkReady : Vector Bool 256
  /-- The Splitter (spec R37). -/
  sp : Splitter
  /-- The channels (spec R20). -/
  ch : Vector Channel 256
  /-- The engines' programs (assumption 5). -/
  eng : Vector Engine 256
  /-- The producer's program (assumption 6). -/
  prod : Producer
  /-- The last operation's data out (assumption 7). -/
  rsp : Response
  /-- The frames sent, oldest first (spec R313; assumption 26). -/
  sink : List Frame
  /-- The event words sent, oldest first (spec R118; assumption 26). -/
  status : List Word16
  /-- The counter that free values are applied to (assumption 15). -/
  free : Nat
deriving DecidableEq, Repr

/-- Viterbi working state at power-on (assumption 17). -/
def Viterbi.powerOn : Viterbi where
  cost := Vector.replicate 8 0
  path := Vector.replicate 8 0
  ncost := Vector.replicate 8 0
  npath := Vector.replicate 8 0
  o := 0
  nout := 0
  crc := 0
  out := Vector.replicate 34 0

/-- A channel that is not constructed: the constant values of spec R48, and for the computed ones the
identity oscillator and the reset instance's `HLEN` (assumptions 2, 15, 17). -/
def Channel.powerOn : Channel where
  constructed := false
  tLen := 1
  rep := 1
  sgn := .plus
  osc := [cone binary32]
  cfgWarn := false
  frac := fpZero binary64
  hlen := 2
  zi := Vector.replicate 3 ⟨czero binary32, czero binary32⟩
  hist := [czero binary32, czero binary32]
  staging := [czero binary32, czero binary32]
  prevBit := false
  nTotal := 0
  x := []
  tq := []
  bq := []
  alignment := fpZero binary64
  mode := .syncing
  syncReg := 0
  msg := Vector.replicate 576 0
  outCursor := 0
  wk := Viterbi.powerOn

/-- A Splitter that is not constructed (assumptions 2, 16). DESIGN CHOICE: its cursor table is the empty
list; spec R37 gives it an entry for each consumer only once `SPINIT` has fixed `N`. -/
def Splitter.powerOn : Splitter where
  constructed := false
  window := []
  base := 0
  wr := 0
  cursor := []
  closed := false
  closeIndex := 0
  lagWarn := false

/-- The machine after reset: nothing is constructed (spec R370, R372), no operation is offered. -/
def State.reset : State where
  cfg := resetParams
  turns := []
  blkIn := []
  srcIn := []
  sinkReady := Vector.replicate 256 true
  sp := Splitter.powerOn
  ch := Vector.replicate 256 Channel.powerOn
  eng := Vector.replicate 256 ⟨[], false⟩
  prod := ⟨none, false⟩
  rsp := .nothing
  sink := []
  status := []
  free := 0

end Sys2Proof.Machine
end

