-- ==== Sys2Proof/Machine/Flags.lean ====
section
/-!
DEFINITION. The one-bit results and codes of the hardware (spec R42): the boolean of a sample, the
configuration warning, the lag condition, the CRC match, and the event words.
-/

namespace Sys2Proof.Machine

/-- The event and refusal codes of spec R331 and R338. -/
def Event.code : Event → Byte
  | .cfgAdjust => 1
  | .crcFail => 2
  | .lag => 3
  | .eos => 4
  | .pushReject => 5
  | .badUnit => 6
  | .emptyPush => 7
  | .nextBeyondWrite => 8
  | .badConfig => 9
  | .windowOverflow => 10
  | .badOp => 11
  | .emptyQueue => 12
  | .noBlock => 13
  | .blockTooLong => 14
  | .notConstructed => 15

/-- The event word: the code in bits 7:0, the unit in bits 15:8 (spec R118). -/
def eventWord (e : Event) (u : UnitNo) : Word16 := u ++ e.code

/-- The boolean of a discriminated sample, `imaginary_part < 0` (spec R186). -/
def sampleBit (z : Cplx) : Bool := z.im.lt (.fin false 0 0)

/-- `cfg_warn`: the residual frequency error `best` is not zero (spec R133). -/
def configWarning (best : Datum) : Bool := !best.isZero

/-- The window is longer than `LAG_WARN` (spec R282). -/
def lagCondition (cfg : Params) (window : List Block) : Bool := decide (cfg.lagWarn < window.length)

/-- `crc_match`: the last two committed bytes are the CRC of the others, high byte first (spec R244). -/
def crcMatches (crc : BitVec 16) (out : Vector Byte 34) : Bool :=
  decide (out[32] = crc.extractLsb' 8 8) && decide (out[33] = crc.extractLsb' 0 8)

end Sys2Proof.Machine
end

