-- ==== Sys2Proof/Machine/Ops.lean ====
section
/-!
DEFINITION. The named operations over the state that every meaning uses: reading and writing a
channel, an engine, the Splitter; raising an event and refusing a request (what this hardware has in
place of taking an exception, spec R330, R342; there is no return, spec R343); waiting; sending frames.
-/

namespace Sys2Proof.Machine

/-- What every meaning answers. -/
abbrev Result := Host.Outcome State Fault Refusal

/-- Channel `c` (spec R20). -/
def State.chan (s : State) (c : UnitNo) : Channel := s.ch[c.toNat]'c.isLt

def State.setChan (s : State) (c : UnitNo) (k : Channel) : State :=
  { s with ch := s.ch.set c.toNat k c.isLt }

/-- Engine `c` (assumption 5). -/
def State.engine (s : State) (c : UnitNo) : Engine := s.eng[c.toNat]'c.isLt

def State.setEngine (s : State) (c : UnitNo) (e : Engine) : State :=
  { s with eng := s.eng.set c.toNat e c.isLt }

def State.setSplitter (s : State) (sp : Splitter) : State := { s with sp := sp }

def State.setProducer (s : State) (p : Producer) : State := { s with prod := p }

def State.setTurns (s : State) (t : List Turn) : State := { s with turns := t }

def State.setFree (s : State) (n : Nat) : State := { s with free := n }

/-- The operation completes and gives `r` to its issuer (assumption 7). -/
def State.answer (s : State) (r : Response) : State := { s with rsp := r }

/-- What the environment presents on `blk_in` and `src` with a word (spec R100, R107; assumption 8). -/
def State.present (s : State) (blk : Block) (rd : List Word16) : State :=
  { s with blkIn := blk, srcIn := rd }

/-- Whether the sink of channel `c` takes a frame (spec R311). -/
def State.sinkTakes (s : State) (c : UnitNo) : Bool := s.sinkReady[c.toNat]'c.isLt

def State.setSinkReady (s : State) (c : UnitNo) (ready : Bool) : State :=
  { s with sinkReady := s.sinkReady.set c.toNat ready c.isLt }

/-- `raise`: one event word goes out on the status port; control goes nowhere (spec R330, R342). -/
def State.raise (s : State) (e : Event) (u : UnitNo) : State :=
  { s with status := s.status ++ [eventWord e u] }

/-- `refuse`: no state changes, one event word with the code goes out, the issuer may go on (spec
R338). -/
def State.refuse (s : State) (e : Event) (u : UnitNo) : State := (s.raise e u).answer (.refused e)

/-- Engine `c` has the pieces `ts` to do before all else (assumptions 5, 6). -/
def State.begin (s : State) (c : UnitNo) (ts : List Piece) : State :=
  s.setEngine c { s.engine c with todo := ts ++ (s.engine c).todo }

/-- The operation is not enabled: engine `c` keeps it as the next it will try, and nothing else
changes (spec R274, R311, U53; assumption 5). -/
def State.wait (s : State) (c : UnitNo) (i : Instr) : State := s.begin c [.op i]

/-- Engine `c` does the operation `i` after all it has begun: program order (spec R86; assumption 5). -/
def State.enqueue (s : State) (c : UnitNo) (i : Instr) : State :=
  s.setEngine c { s.engine c with todo := (s.engine c).todo ++ [.op i] }

/-- Engine `c` has received the terminator (spec R313). -/
def State.endEngine (s : State) (c : UnitNo) : State :=
  s.setEngine c { s.engine c with ended := true }

/-- The event words of the frames sent by channel `c`: `CRC_FAIL` for each frame whose CRC does not
match, in frame order (spec R333, R341). -/
def frameEvents (c : UnitNo) (fs : List Frame) : List Word16 :=
  (fs.filter (fun f => !f.crcMatch)).map (fun _ => eventWord .crcFail c)

/-- `emit sink[c]`: the frames leave, then their events (spec R230, R311). -/
def State.send (s : State) (c : UnitNo) (fs : List Frame) : State :=
  { s with sink := s.sink ++ fs, status := s.status ++ frameEvents c fs }

/-- An operation `i` of engine `c` ends with the channel `k` and the frames `fs`: when there are
frames and the sink takes none now, the operation waits instead (spec R311: the transfer is part of
the step; assumption 24). -/
def State.finish (s : State) (c : UnitNo) (i : Instr) (k : Channel) (fs : List Frame) : State :=
  if fs.isEmpty || s.sinkTakes c then ((s.setChan c k).send c fs).answer .nothing else s.wait c i

end Sys2Proof.Machine
end

