-- ==== Sys2Proof/Machine/Operands.lean ====
section
/-!
DEFINITION. Operand assembly and the checks made before an operation acts: the construction
parameters' legal values (spec R9, R10), and the order of the refusals of spec R341.
-/

namespace Sys2Proof.Machine

/-- `READ_MAX <= BLOCK_MAX`, a block of that length is not too long (spec R9, R271). -/
def fitsBlockMax (cfg : Params) (len : Nat) : Bool :=
  match cfg.blockMax with
  | none => true
  | some m => decide (len ≤ m)

/-- An optional capacity is unbounded or at least 1 (spec R9). -/
def capLegal : Option Nat → Bool
  | none => true
  | some m => decide (1 ≤ m)

/-- The window holds `WINDOW_CAP` blocks (spec R283). -/
def windowFull (cfg : Params) (window : List Block) : Bool :=
  match cfg.windowCap with
  | none => false
  | some m => decide (window.length = m)

/-- The parameters of the Splitter and the producer are legal (spec R9, R270; assumption 21). -/
def splitterLegal (cfg : Params) : Bool :=
  decide (1 ≤ cfg.n) && decide (cfg.n ≤ 256) && decide (1 ≤ cfg.lagWarn) && capLegal cfg.windowCap
    && capLegal cfg.blockMax && decide (1 ≤ cfg.readMax) && fitsBlockMax cfg cfg.readMax

/-- The coefficients of a section are finite values of `FP_S` (spec R9, R23). -/
def biquadLegal (f : Format) (b : Biquad) : Bool :=
  b.b0.isReal f && b.b1.isReal f && b.b2.isReal f && b.a1.isReal f && b.a2.isReal f

/-- `INTERLEAVE` is a permutation of the even numbers 0..30: each of the sixteen occurs among the
sixteen entries (spec R9, R235). -/
def interleaveLegal (t : Vector (BitVec 16) 16) : Bool :=
  (List.range 16).all fun k => t.toList.contains (BitVec.ofNat 16 (2 * k))

/-- `F[c]`, the requested shift frequency of channel `c` (spec R9). -/
def channelFreq (cfg : Params) (c : UnitNo) : Datum := cfg.freq.getD c.toNat .nan

/-- The parameters of channel `c` are legal (spec R9, R10, R300; assumption 21). -/
def channelLegal (cfg : Params) (c : UnitNo) : Bool :=
  cfg.fpS.legal && cfg.fpA.legal && cfg.sampleRate.isPositive cfg.fpA
    && (channelFreq cfg c).isReal cfg.fpA && cfg.sos.toList.all (biquadLegal cfg.fpS)
    && cfg.off.isPositive cfg.fpA && cfg.bw.isPositive cfg.fpA && interleaveLegal cfg.interleave
    && decide (cfg.crcOk ≠ 0) && capLegal cfg.tMax

/-- The refusal of an operation on the Splitter, if any (spec R341 (2), R372). -/
def State.splitterRefusal (s : State) : Option Event :=
  if s.sp.constructed then none else some .notConstructed

/-- The refusal of an operation of consumer `c` on the Splitter, if any: `N` is the Splitter's, so
before construction the unit cannot be checked (spec R341 (1) (2), R372). DESIGN CHOICE, assumption 20:
the event word of `NOT_CONSTRUCTED` then carries the word's unit `c`, where spec R338 says "`c` or 0". -/
def State.consumerRefusal (s : State) (c : UnitNo) : Option Event :=
  if s.sp.constructed then (if c.toNat < s.cfg.n then none else some .badUnit)
  else some .notConstructed

/-- The refusal of an operation on channel `c`, if any (spec R341 (1) (2), R372). -/
def State.channelRefusal (s : State) (c : UnitNo) : Option Event :=
  match s.consumerRefusal c with
  | some e => some e
  | none => if (s.chan c).constructed then none else some .notConstructed

/-- An operation with unit `u`: refused with `e`, or `act` (spec R338). -/
def State.guarded (s : State) (e : Option Event) (u : UnitNo) (act : State) : Result :=
  match e with
  | some e => .next (s.refuse e u)
  | none => .next act

/-- A stage operation on channel `c`: refused, or the channel becomes `f` of it. -/
def State.onChannel (s : State) (c : UnitNo) (f : Channel → Channel) : Result :=
  s.guarded (s.channelRefusal c) c ((s.setChan c (f (s.chan c))).answer .nothing)

end Sys2Proof.Machine
end

