-- ==== Sys2Proof/Machine/Discriminator.lean ====
section
/-!
DEFINITION. The FM discriminator (spec 42_discriminator.md): the constants of its delay and the
operation DISC.
-/

namespace Sys2Proof.Machine

/-- `ceil(OFF)` (spec R166). -/
def delayCeil (cfg : Params) : Nat := (cfg.off.ceil?.getD 1).toNat

/-- `HLEN = ceil(OFF) + 1` (spec R165). -/
def historyLength (cfg : Params) : Nat := delayCeil cfg + 1

/-- `FRAC = toA(ceil(OFF)) -_A OFF` (spec R166). -/
def blendFraction (cfg : Params) : Datum := fpSub cfg.fpA (ofNat cfg.fpA (delayCeil cfg)) cfg.off

/-- The sample at position `p` relative to the start of the buffer `x`: in the buffer for `p >= 0`,
in the history for `p < 0` (spec R72). -/
def sampleAt (hist x : List Cplx) (hlen : Nat) (p : Int) : Cplx :=
  if 0 ≤ p then x.getD p.toNat ⟨.nan, .nan⟩ else hist.getD (hlen + p).toNat ⟨.nan, .nan⟩

/-- The blend of the two samples that bracket `i - OFF` (spec R166, R167). -/
def interpolate (f : Format) (fs : Datum) (hist x : List Cplx) (hlen i : Nat) : Cplx :=
  let j : Int := (i : Int) + 1 - hlen
  cadd f (cscale f (fpSub f (ofNat f 1) fs) (sampleAt hist x hlen j))
    (cscale f fs (sampleAt hist x hlen (j + 1)))

/-- The discriminated buffer: each delayed sample times the conjugate of the current one (spec R168). -/
def discriminate (f : Format) (fs : Datum) (hist x : List Cplx) (hlen : Nat) : List Cplx :=
  (List.range x.length).map fun i =>
    cmulconj f (interpolate f fs hist x hlen i) (x.getD i ⟨.nan, .nan⟩)

/-- The last `hlen` entries of the old history followed by the buffer (spec R170). -/
def newHistory (hist x : List Cplx) (hlen : Nat) : List Cplx :=
  (hist ++ x).drop ((hist ++ x).length - hlen)

/-- DISC on a channel: `x` and `hist` are written, the staging buffer keeps the old history (spec
R168, R170, R26). -/
def discChannel (cfg : Params) (k : Channel) : Channel :=
  { k with
    x := discriminate cfg.fpS (k.frac.convert cfg.fpS) k.hist k.x k.hlen
    hist := newHistory k.hist k.x k.hlen
    staging := k.hist }

/-- `DISC c` (spec R168). -/
def execDisc (c : UnitNo) (s : State) : Result := s.onChannel c (discChannel s.cfg)

end Sys2Proof.Machine
end

