-- ==== Sys2Proof/Machine/Trig.lean ====
section
/-!
DEFINITION. That functions with the properties of COS and SIN exist (spec R134): partial sums of the
series of pi and of the exponential function, with the bounds on their errors. They only show that the
free value `Config.trig` has a type with members; nothing evaluates them.
-/

namespace Sys2Proof

open Finset

/-- An even partial sum of Leibniz's series for a quarter of pi. -/
def quarterPi (k : Nat) : Rat := ∑ i ∈ range (2 * k), (-1) ^ i * (1 / (2 * i + 1))

/-- The number of turns as an angle. -/
def angleOf (k : Nat) (t : Rat) : Rat := 8 * t * quarterPi k

/-- The partial sum, of `n` terms, of the exponential series at `i*x`: its real and imaginary parts. -/
def phasorSum : Nat → Rat → Rat × Rat
  | 0, _ => (0, 0)
  | n + 1, x =>
    let s := phasorSum n x
    let term := x ^ n / n.factorial
    match n % 4 with
    | 0 => (s.1 + term, s.2)
    | 1 => (s.1, s.2 + term)
    | 2 => (s.1 - term, s.2)
    | _ => (s.1, s.2 - term)

/-- The dyadic fraction with `k` bits below `q`. -/
def dyadicBelow (q : Rat) (k : Nat) : Int × Nat := (⌊q * 2 ^ k⌋, k)

/-- The phasor of `t` turns, to the accuracy of the format. -/
def seriesPhasor (f : Format) (t : Rat) : Rat × Rat :=
  phasorSum (2 * f.prec + 24) (angleOf (2 ^ (f.prec + 3)) t)

/-- Leibniz's series brackets its limit. -/
theorem quarterPi_near (k : Nat) :
    ((quarterPi k : Rat) : ℝ) ≤ Real.pi / 4 ∧ Real.pi / 4 ≤ (quarterPi k : ℝ) + 1 / (4 * k + 1) := by
  have anti : Antitone fun i : Nat => (1 : ℝ) / (2 * i + 1) := by
    intro a b h
    have : (a : ℝ) ≤ b := by exact_mod_cast h
    exact one_div_le_one_div_of_le (by positivity) (by linarith)
  have lim : Filter.Tendsto (fun k => ∑ i ∈ range k, (-1 : ℝ) ^ i * (1 / (2 * i + 1)))
      Filter.atTop (nhds (Real.pi / 4)) := by
    simpa [div_eq_mul_inv] using Real.tendsto_sum_pi_div_four
  have cast : ((quarterPi k : Rat) : ℝ) = ∑ i ∈ range (2 * k), (-1 : ℝ) ^ i * (1 / (2 * i + 1)) := by
    simp [quarterPi]
  have lower := anti.alternating_series_le_tendsto lim k
  have upper := anti.tendsto_le_alternating_series lim k
  rw [sum_range_succ, ← cast] at upper
  rw [← cast] at lower
  refine ⟨lower, upper.trans (le_of_eq ?_)⟩
  rw [pow_mul, neg_one_sq, one_pow, one_mul]
  push_cast
  ring_nf

/-- The angle is close to the true one, and small. -/
theorem angleOf_near (f : Format) (t : Rat) (h0 : 0 ≤ t) (h1 : t < 1) :
    |((angleOf (2 ^ (f.prec + 3)) t : Rat) : ℝ) - 2 * Real.pi * t| ≤ 1 / 2 / 2 ^ f.prec ∧
      |((angleOf (2 ^ (f.prec + 3)) t : Rat) : ℝ)| ≤ 8 := by
  obtain ⟨lo, hi⟩ := quarterPi_near (2 ^ (f.prec + 3))
  have t0 : (0 : ℝ) ≤ t := by exact_mod_cast h0
  have t1 : (t : ℝ) ≤ 1 := by exact_mod_cast h1.le
  have e : ((angleOf (2 ^ (f.prec + 3)) t : Rat) : ℝ) = 8 * t * (quarterPi (2 ^ (f.prec + 3)) : ℝ) := by
    simp [angleOf]
  have p2 : (0 : ℝ) < 2 ^ f.prec := by positivity
  have gap : (1 : ℝ) / (4 * ((2 ^ (f.prec + 3) : Nat) : ℝ) + 1) ≤ 1 / 32 / 2 ^ f.prec := by
    push_cast
    rw [div_div, pow_add]
    exact one_div_le_one_div_of_le (by positivity) (by nlinarith)
  have one : (1 : ℝ) ≤ 2 ^ f.prec := one_le_pow₀ (by norm_num)
  have small : (1 : ℝ) / 32 / 2 ^ f.prec ≤ 1 / 32 := div_le_self (by norm_num) one
  have q0 : (0 : ℝ) ≤ quarterPi (2 ^ (f.prec + 3)) := by linarith [Real.pi_gt_three]
  have q1 : (quarterPi (2 ^ (f.prec + 3)) : ℝ) ≤ 1 := by linarith [Real.pi_le_four]
  have half : (1 : ℝ) / 2 / 2 ^ f.prec = 16 * (1 / 32 / 2 ^ f.prec) := by ring
  have g0 : (0 : ℝ) ≤ 1 / 32 / 2 ^ f.prec := by positivity
  rw [e]
  constructor
  · rw [half, abs_le]
    constructor <;> nlinarith
  · rw [abs_le]
    constructor <;> nlinarith [mul_nonneg t0 q0]

/-- The two sums are the parts of the complex partial sum. -/
theorem phasorSum_eq (n : Nat) (x : Rat) :
    (((phasorSum n x).1 : ℝ) : ℂ) + ((phasorSum n x).2 : ℝ) * Complex.I
      = ∑ m ∈ range n, ((x : ℝ) * Complex.I) ^ m / m.factorial := by
  induction n with
  | zero => simp [phasorSum]
  | succ n ih =>
    rw [sum_range_succ, ← ih, mul_pow, Complex.I_pow_eq_pow_mod]
    have h : n % 4 < 4 := Nat.mod_lt _ (by norm_num)
    rcases h4 : n % 4 with _ | _ | _ | _ | m
    · simp [phasorSum, h4]; ring
    · simp [phasorSum, h4]; ring
    · simp [phasorSum, h4]; ring
    · simp [phasorSum, h4, pow_succ]; ring
    · omega

/-- The first term left out is small at any angle up to 8. -/
theorem eight_pow_small (j : Nat) : (8 : ℝ) ^ (24 + j) / ((24 + j).factorial : ℝ) ≤ 1 / 128 / 2 ^ j := by
  induction j with
  | zero => norm_num [Nat.factorial]
  | succ j ih =>
    have : (8 : ℝ) ^ (24 + (j + 1)) / ((24 + (j + 1)).factorial : ℝ)
        = 8 ^ (24 + j) / ((24 + j).factorial : ℝ) * (8 / (25 + j)) := by
      rw [← add_assoc, pow_succ, Nat.factorial_succ]
      push_cast
      rw [show (24 : ℝ) + j + 1 = 25 + j by ring]
      field_simp
    rw [this, pow_succ]
    have h8 : (8 : ℝ) / (25 + j) ≤ 1 / 2 := by
      rw [div_le_div_iff₀ (by positivity) (by norm_num)]
      linarith [(Nat.cast_nonneg j : (0 : ℝ) ≤ j)]
    calc _ ≤ 1 / 128 / 2 ^ j * (1 / 2 : ℝ) := mul_le_mul ih h8 (by positivity) (by positivity)
      _ = _ := by ring

/-- The phasor is close to the true one. -/
theorem seriesPhasor_near (f : Format) (t : Rat) (h0 : 0 ≤ t) (h1 : t < 1) :
    |((seriesPhasor f t).1 : ℝ) - Real.cos (2 * Real.pi * t)| ≤ 1 / 2 ^ f.prec ∧
    |((seriesPhasor f t).2 : ℝ) - Real.sin (2 * Real.pi * t)| ≤ 1 / 2 ^ f.prec := by
  obtain ⟨near, eight⟩ := angleOf_near f t h0 h1
  set x : Rat := angleOf (2 ^ (f.prec + 3)) t with hx
  set n := 2 * f.prec + 24 with hn
  have norm : ‖((x : ℝ) : ℂ) * Complex.I‖ = |(x : ℝ)| := by simp
  have tail : ‖Complex.exp ((x : ℝ) * Complex.I)
      - ∑ m ∈ range n, ((x : ℝ) * Complex.I) ^ m / m.factorial‖ ≤ 1 / 2 / 2 ^ f.prec := by
    refine (Complex.exp_bound' ?_).trans ?_
    · rw [norm, div_le_div_iff₀ (by positivity) (by norm_num)]
      have : (24 : ℝ) ≤ (n.succ : ℝ) := by exact_mod_cast (by omega : 24 ≤ n.succ)
      linarith
    · rw [norm]
      have a : |(x : ℝ)| ^ n / (n.factorial : ℝ) ≤ 8 ^ n / (n.factorial : ℝ) := by gcongr
      have b := eight_pow_small (2 * f.prec)
      rw [add_comm 24 (2 * f.prec)] at b
      have c : (1 : ℝ) / 128 / 2 ^ (2 * f.prec) ≤ 1 / 128 / 2 ^ f.prec := by
        gcongr
        · norm_num
        · omega
      have d : (1 : ℝ) / 2 / 2 ^ f.prec = 64 * (1 / 128 / 2 ^ f.prec) := by ring
      have g0 : (0 : ℝ) ≤ 1 / 128 / 2 ^ f.prec := by positivity
      linarith [a.trans (b.trans c)]
  rw [← phasorSum_eq] at tail
  have re := (Complex.abs_re_le_norm _).trans tail
  have im := (Complex.abs_im_le_norm _).trans tail
  rw [Complex.exp_mul_I, ← Complex.ofReal_cos, ← Complex.ofReal_sin] at re im
  simp only [Complex.sub_re, Complex.add_re, Complex.mul_re, Complex.ofReal_re, Complex.I_re,
    Complex.ofReal_im, Complex.I_im, Complex.sub_im, Complex.add_im, Complex.mul_im, mul_zero, mul_one,
    sub_zero, add_zero, zero_add] at re im
  rw [abs_sub_comm] at re im
  have hc := (Real.abs_cos_sub_cos_le (x : ℝ) (2 * Real.pi * t)).trans near
  have hs := (Real.abs_sin_sub_sin_le (x : ℝ) (2 * Real.pi * t)).trans near
  have d : (1 : ℝ) / 2 ^ f.prec = 1 / 2 / 2 ^ f.prec + 1 / 2 / 2 ^ f.prec := by ring
  rw [d]
  exact ⟨(abs_sub_le _ _ _).trans (add_le_add re hc), (abs_sub_le _ _ _).trans (add_le_add im hs)⟩

/-- The floor to `k` binary places is off by at most one place. -/
theorem dyadicBelow_near (q : Rat) (k : Nat) :
    |((dyadicBelow q k).1 : ℝ) / 2 ^ (dyadicBelow q k).2 - q| ≤ 1 / 2 ^ k := by
  have p2 : (0 : Rat) < 2 ^ k := by positivity
  have lo : (((⌊q * 2 ^ k⌋ : Int) : Rat) : ℝ) ≤ ((q * 2 ^ k : Rat) : ℝ) := by
    exact_mod_cast Int.floor_le (q * 2 ^ k)
  have hi : ((q * 2 ^ k : Rat) : ℝ) ≤ (((⌊q * 2 ^ k⌋ : Int) + 1 : Rat) : ℝ) := by
    exact_mod_cast (Int.lt_floor_add_one (q * 2 ^ k)).le
  push_cast at lo hi
  have p2 : (0 : ℝ) < 2 ^ k := by positivity
  simp only [dyadicBelow]
  rw [div_sub' p2.ne', abs_div, abs_of_pos p2]
  gcongr
  rw [abs_le]
  constructor <;> linarith

/-- Two errors of one place make two. -/
theorem near_trans {x y z e : ℝ} (h : |x - y| ≤ 1 / e) (k : |y - z| ≤ 1 / e) : |x - z| ≤ 2 / e := by
  calc _ ≤ |x - y| + |y - z| := abs_sub_le x y z
    _ ≤ 1 / e + 1 / e := add_le_add h k
    _ = 2 / e := by ring

/-- Functions with the properties of R134. -/
def seriesTrig : TrigFunctions where
  cos := fun f t => dyadicBelow (seriesPhasor f t).1 f.prec
  sin := fun f t => dyadicBelow (seriesPhasor f t).2 f.prec
  cos_near := fun f t h0 h1 => near_trans (dyadicBelow_near _ _) (seriesPhasor_near f t h0 h1).1
  sin_near := fun f t h0 h1 => near_trans (dyadicBelow_near _ _) (seriesPhasor_near f t h0 h1).2

/-- `COS` and `SIN` of the instance (spec R134): the free value. -/
def instanceTrig : TrigFunctions := @Config.trig ⟨seriesTrig⟩

end Sys2Proof
end

