-- ==== Sys2Proof/Machine/Shifter.lean ====
section
/-!
DEFINITION. The frequency shifter (spec 40_shifter.md): the construction of the oscillator table and
the operation SHIFT.
-/

namespace Sys2Proof.Machine

/-- The result of the search of spec R131. -/
structure OscSearch where
  tLen : Nat
  rep : Nat
  best : Datum
  found : Bool
deriving DecidableEq, Repr

/-- The table length for repeat count `r`: `floor((S/a)*r + 0.5)`, if it is an integer of at least 1
(spec R131; assumption 14). -/
def candidateLength (f : Format) (sr a : Datum) (r : Nat) : Option Nat :=
  match (fpAdd f (fpMul f (fpDiv f sr a) (ofNat f r)) (roundQ f false 1 2 0)).floor? with
  | none => none
  | some t => if 1 ≤ t then some t.toNat else none

/-- The residual error of the table `(t, r)` (spec R131, R132). -/
def residualError (f : Format) (sr a : Datum) (r t : Nat) : Datum :=
  (fpSub f (fpDiv f (fpMul f sr (ofNat f r)) (ofNat f t)) a).abs

/-- A length the instance cannot hold (spec R131). -/
def exceedsTMax (tMax : Option Nat) (t : Nat) : Bool :=
  match tMax with
  | none => false
  | some m => decide (m < t)

/-- One pass of the search: the smallest repeat count wins a tie (spec R131). -/
def searchStep (cfg : Params) (a : Datum) (st : OscSearch) (r : Nat) : OscSearch :=
  match candidateLength cfg.fpA cfg.sampleRate a r with
  | none => st
  | some t =>
    if exceedsTMax cfg.tMax t then st
    else
      let err := residualError cfg.fpA cfg.sampleRate a r t
      if err.lt st.best then ⟨t, r, err, true⟩ else st

/-- The search for the table length (spec R131). -/
def searchPeriod (cfg : Params) (freq : Datum) : OscSearch :=
  let a := freq.abs
  if a.isZero then ⟨1, 1, fpZero cfg.fpA, true⟩
  else
    let st := (List.range repeatMax).foldl (fun st k => searchStep cfg a st (k + 1))
      ⟨1, 1, .inf false, false⟩
    if st.found then st else ⟨1, 1, a, false⟩

/-- `sgn` (spec R131). -/
def rotationOf (freq : Datum) : Rotation := if freq.lt (.fin false 0 0) then .minus else .plus

/-- A trigonometric value of the instance in `FP_S`. -/
def trigDatum (f : Format) (p : Int × Nat) : Datum :=
  roundQ f (decide (p.1 < 0)) p.1.natAbs 1 (-(p.2 : Int))

/-- The phasor of `m / tLen` of a turn, counter-clockwise (spec R134). The angle 0 gives `1 + j*0`
exactly (first property of R134), the table of two entries `-1` exactly (spec R141: "`OSC = [1, -1]`"),
and every other angle a value within tolerance of the true one (assumption 13). -/
def phasor (f : Format) (m tLen : Nat) : Cplx :=
  if m = 0 then cone f
  else if tLen = 2 then ⟨ofInt f (-1), fpZero f⟩
  else
    let t : Rat := (m : Rat) / (tLen : Rat)
    ⟨trigDatum f (instanceTrig.cos f t), trigDatum f (instanceTrig.sin f t)⟩

/-- `OSC[k]` (spec R134): the phasor of `R*k mod T`, or for `sgn = -1` the one of the opposite angle, the
same cosine and the opposite sine (second property of R134). The zero at the angle 0 is +0 for both
directions (assumption 13). -/
def oscEntry (f : Format) (sgn : Rotation) (rep tLen k : Nat) : Cplx :=
  let m := rep * k % tLen
  let z := phasor f m tLen
  match sgn with
  | .plus => z
  | .minus => if m = 0 then z else ⟨z.re, z.im.neg⟩

/-- The oscillator table (spec R134). -/
def oscTable (f : Format) (sgn : Rotation) (rep tLen : Nat) : List Cplx :=
  (List.range tLen).map (oscEntry f sgn rep tLen)

/-- The table entry for global index `g` (spec R71). -/
def oscAt (k : Channel) (g : Nat) : Cplx := k.osc.getD (g % k.tLen) ⟨.nan, .nan⟩

/-- Each sample times the phasor at its global index, the first sample's being `g` (spec R136). -/
def shiftSamples (f : Format) (k : Channel) : Nat → List Cplx → List Cplx
  | _, [] => []
  | g, z :: zs => cmul f z (oscAt k g) :: shiftSamples f k (g + 1) zs

/-- SHIFT on a channel: `x` only is written (spec R136). -/
def shiftChannel (cfg : Params) (k : Channel) : Channel :=
  { k with x := shiftSamples cfg.fpS k k.nTotal k.x }

/-- `SHIFT c` (spec R136). -/
def execShift (c : UnitNo) (s : State) : Result := s.onChannel c (shiftChannel s.cfg)

end Sys2Proof.Machine
end

