-- ==== Sys2Proof/Machine/Construction.lean ====
section
/-!
DEFINITION. Construction, the hardware's only reset (spec R370): the operations SPINIT and CHINIT.
-/

namespace Sys2Proof.Machine

/-- The Splitter that construction number `n` leaves (spec R270, R48); `close_index` is unspecified
(spec R373; assumption 16). -/
def Splitter.fresh (cfg : Params) (n : Nat) : Splitter where
  constructed := true
  window := []
  base := 0
  wr := 0
  cursor := List.replicate cfg.n 0
  closed := false
  closeIndex := Config.freeIndex n
  lagWarn := false

/-- `SPINIT` (spec R270). The agents begin anew with the new Splitter (spec R370; assumption 19). -/
def execSpinit (s : State) : Result :=
  if splitterLegal s.cfg then
    .next
      { s with
        sp := Splitter.fresh s.cfg s.free
        eng := Vector.replicate 256 ⟨[], false⟩
        prod := ⟨none, false⟩
        rsp := .nothing
        free := s.free + 1 }
  else .next (s.refuse .badConfig 0)

/-- The channel that construction number `n` leaves (spec R300, R48). `msg` and the staging buffer
are unspecified (spec R373; assumptions 15, 17); the working state of the block decode is not written
(spec R35; assumption 17). -/
def freshChannel (cfg : Params) (c : UnitNo) (n : Nat) (old : Channel) : Channel :=
  let freq := channelFreq cfg c
  let p := searchPeriod cfg freq
  { constructed := true
    tLen := p.tLen
    rep := p.rep
    sgn := rotationOf freq
    osc := oscTable cfg.fpS (rotationOf freq) p.rep p.tLen
    cfgWarn := configWarning p.best
    frac := blendFraction cfg
    hlen := historyLength cfg
    zi := Vector.replicate 3 ⟨czero cfg.fpS, czero cfg.fpS⟩
    hist := List.replicate (historyLength cfg) (czero cfg.fpS)
    staging := (List.range (historyLength cfg)).map (Config.freeSample n)
    prevBit := false
    nTotal := 0
    x := []
    tq := []
    bq := []
    alignment := fpZero cfg.fpA
    mode := .syncing
    syncReg := 0
    msg := Vector.ofFn fun i => Config.freeByte n i.val
    outCursor := 0
    wk := old.wk }

/-- `CHINIT c` (spec R300). -/
def execChinit (c : UnitNo) (s : State) : Result :=
  match s.consumerRefusal c with
  | some e => .next (s.refuse e c)
  | none =>
    if channelLegal s.cfg c then
      let k := freshChannel s.cfg c s.free (s.chan c)
      let s' := (s.setChan c k).setFree (s.free + 1)
      .next ((if k.cfgWarn then s'.raise .cfgAdjust c else s').answer .nothing)
    else .next (s.refuse .badConfig c)

end Sys2Proof.Machine
end

