-- ==== Sys2Proof/Machine/BitSync.lean ====
section
/-!
DEFINITION. The bit synchronizer (spec 44_bitsync.md): the operation BSYNC, one transition.
-/

namespace Sys2Proof.Machine

/-- `HALF = BW /_A 2` (spec R200). -/
def halfBaud (cfg : Params) : Datum := fpDiv cfg.fpA cfg.bw (ofNat cfg.fpA 2)

/-- More passes than the format has values: a loop whose accumulator grows at every pass ends within
this many (assumption 18). -/
def clockFuel (f : Format) : Nat := 2 ^ (f.prec + 3) * (f.emax + 1)

/-- The pulled accumulator, `0.8 * alignment + 0.2 * idx` (spec R201, R204). -/
def pulledTo (f : Format) (a xi : Datum) : Datum :=
  fpAdd f (fpMul f (keepWeight f) a) (fpMul f (pullWeight f) xi)

/-- The loop of spec R201, step 3: the accumulator it leaves and how many bits it emits, or `none`
when it does not end, since `alignment +_A BW = alignment` (spec R208, U53; assumption 18). -/
def clockLoop (f : Format) (bw half xi : Datum) : Nat → Datum → Option (Datum × Nat)
  | 0, _ => none
  | fuel + 1, a =>
    if a.lt xi then
      let a' := fpAdd f a bw
      if (fpSub f xi a').abs.lt half then some (pulledTo f a' xi, 1)
      else if a' = a then none
      else (clockLoop f bw half xi fuel a').map fun r => (r.1, r.2 + 1)
    else some (a, 0)

/-- One transition: the accumulator after it and the bits decided (spec R201, R203, R207). -/
def clockEvent (cfg : Params) (a : Datum) (t : Transition) : Option (Datum × List Bool) :=
  let xi := ofNat cfg.fpA t.idx
  if a.isZero then some (xi, [])
  else if xi.lt a then some (a, [])
  else (clockLoop cfg.fpA cfg.bw (halfBaud cfg) xi (clockFuel cfg.fpA) a).map
    fun r => (r.1, List.replicate r.2 (!t.newState))

/-- BSYNC on a channel: the head of `tq` is removed, `alignment` and `bq` are written (spec R201).
`none` when the loop does not end. -/
def bsyncChannel (cfg : Params) (k : Channel) : Option Channel :=
  match k.tq with
  | [] => some k
  | t :: rest =>
    (clockEvent cfg k.alignment t).map
      fun r => { k with tq := rest, alignment := r.1, bq := k.bq ++ r.2 }

/-- `BSYNC c` (spec R201). When its loop does not end, the engine never completes it (spec U53). -/
def execBsync (c : UnitNo) (s : State) : Result :=
  match s.channelRefusal c with
  | some e => .next (s.refuse e c)
  | none =>
    if (s.chan c).tq.isEmpty then .next (s.refuse .emptyQueue c)
    else
      match bsyncChannel s.cfg (s.chan c) with
      | none => .next (s.wait c (.bsync c))
      | some k => .next ((s.setChan c k).answer .nothing)

end Sys2Proof.Machine
end

