-- ==== Sys2Proof/Machine/Extractor.lean ====
section
/-!
DEFINITION. The bit/transition extractor (spec 43_extractor.md): the operation EXTR.
-/

namespace Sys2Proof.Machine

/-- The transitions of the booleans of the samples, the first sample's global index being `g` and the
boolean before it `last`; and the last boolean (spec R187). -/
def transitionsOf : Nat → Bool → List Cplx → List Transition × Bool
  | _, last, [] => ([], last)
  | g, last, z :: zs =>
    let cur := sampleBit z
    let rest := transitionsOf (g + 1) cur zs
    (if cur != last then ⟨g, cur⟩ :: rest.1 else rest.1, rest.2)

/-- The transition record as a word of 65 bits: `idx` in bits 63:0, `new_state` in bit 64 (spec R112). -/
def transitionWord (t : Transition) : BitVec 65 := BitVec.ofBool t.newState ++ BitVec.ofNat 64 t.idx

/-- The record that a word of 65 bits stands for (spec R112). -/
def transitionOfWord (w : BitVec 65) : Transition := ⟨(w.extractLsb' 0 64).toNat, w.getLsbD 64⟩

/-- EXTR on a channel: `tq` and `prev_bit` are written (spec R187). -/
def extrChannel (k : Channel) : Channel :=
  let r := transitionsOf k.nTotal k.prevBit k.x
  { k with tq := k.tq ++ r.1, prevBit := r.2 }

/-- `EXTR c` (spec R187). -/
def execExtr (c : UnitNo) (s : State) : Result := s.onChannel c extrChannel

end Sys2Proof.Machine
end

