-- ==== Sys2Proof/Machine/Fec.lean ====
section
/-!
DEFINITION. The FEC decoder (spec 45_fec.md): sync detection and buffering (FECBIT), and the block
decode (FECDEC) with its de-interleave, Viterbi, de-whitening and CRC.
-/

namespace Sys2Proof.Machine

/-- `il(i)`: the group of 32 kept, the place inside the group looked up (spec R73). -/
def deinterleave (cfg : Params) (i : BitVec 16) : Nat :=
  ((i &&& ~~~0x1E#16) |||
    cfg.interleave.getD ((i &&& 0x1E#16) >>> 1).toNat 0#16).toNat

/-- `FetchPair(b)` (spec R234, R79). -/
def fetchPair (cfg : Params) (msg : Vector Byte 576) (b : Nat) : Byte × Byte :=
  let i := deinterleave cfg (BitVec.ofNat 16 (2 * b))
  (msg.getD i 0, msg.getD (i + 1) 0)

/-- `Exp(q)`, the soft value expected for a coded bit (spec R233). -/
def expectedByte (cfg : Params) (q : Bool) : Byte := if q then cfg.e1 else cfg.e0

/-- The symbol sent from trellis state `p` with data bit `u` (spec R232). -/
def trellisSymbol (cfg : Params) (p u : Nat) : BitVec 2 := cfg.trellis.getD (2 * p + u) 0#2

/-- `BC(p, u)`, the branch cost of the pair `(s0, s1)` (spec R233). -/
def branchCost (cfg : Params) (s : Byte × Byte) (p u : Nat) : BitVec 32 :=
  let sym := trellisSymbol cfg p u
  (s.1 ^^^ expectedByte cfg (sym.getLsbD 1)).setWidth 32
    + (s.2 ^^^ expectedByte cfg (sym.getLsbD 0)).setWidth 32

/-- The survivor of next state `ns`: its cost and its predecessor; a tie keeps `p0` (spec R237). -/
def survivor (cfg : Params) (cost : Vector (BitVec 32) 8) (s : Byte × Byte) (ns : Fin 8) :
    BitVec 32 × Fin 8 :=
  let u := ns.val % 2
  let p0 : Fin 8 := ⟨ns.val / 2, by omega⟩
  let p1 : Fin 8 := ⟨ns.val / 2 + 4, by omega⟩
  let m0 := cost[p0] + branchCost cfg s p0 u
  let m1 := cost[p1] + branchCost cfg s p1 u
  if m1 < m0 then (m1, p1) else (m0, p0)

/-- The path register of next state `ns` (spec R237): bit 0 of the chosen predecessor is shifted in. -/
def survivorPath (path : Vector (BitVec 32) 8) (p : Fin 8) : BitVec 32 :=
  (path[p] <<< 1) ||| BitVec.ofNat 32 (p.val % 2)

/-- `ACS(s0, s1)`: all eight next states from the old costs and paths, then stored together (spec
R237). -/
def addCompareSelect (cfg : Params) (s : Byte × Byte) (v : Viterbi) : Viterbi :=
  let nc := Vector.ofFn fun ns => (survivor cfg v.cost s ns).1
  let np := Vector.ofFn fun ns => survivorPath v.path (survivor cfg v.cost s ns).2
  { v with cost := nc, path := np, ncost := nc, npath := np }

/-- `Init()` (spec R236). The double buffer and `out` keep what they hold. -/
def viterbiInit (v : Viterbi) : Viterbi :=
  { v with
    cost := (Vector.replicate 8 largeCost).set 0 0
    path := Vector.replicate 8 0
    o := 0
    nout := 0
    crc := crcInit }

/-- `CommitDue(b)` (spec R238). -/
def commitDue (b o : Nat) : Bool := decide (32 + o ≤ b) || (decide (b = 287) && decide (o < b))

/-- The state of least cost, the lowest-numbered among equals (spec R240). -/
def bestState (cost : Vector (BitVec 32) 8) : Fin 8 :=
  (List.finRange 8).foldl (fun ms s => if cost[s] < cost[ms] then s else ms) 0

/-- One bit of `CrcByte`: `inb` is the data bit (spec R242). -/
def crcBit (crc : BitVec 16) (inb : Bool) : BitVec 16 :=
  if (crc.getLsbD 15) ^^ inb then (crc <<< 1) ^^^ crcPoly else crc <<< 1

/-- `CrcByte(byte, crc)`, most significant bit first (spec R242). -/
def crcByte (byte : Byte) (crc : BitVec 16) : BitVec 16 :=
  (List.range 8).foldl (fun a n => crcBit a (byte.getLsbD (7 - n))) crc

/-- `CommitByte(b)` (spec R240, R241). -/
def commitByte (cfg : Params) (b : Nat) (v : Viterbi) : Viterbi :=
  let dist := b - (v.o + 8)
  let raw : Byte := (v.path[bestState v.cost] >>> dist).setWidth 8
  let byte := raw ^^^ cfg.whiten.getD v.nout 0
  { v with
    out := v.out.setIfInBounds v.nout byte
    crc := if v.nout < 32 then crcByte byte v.crc else v.crc
    nout := v.nout + 1
    o := v.o + 8 }

/-- `while CommitDue(b): CommitByte(b)`, ended when 34 bytes are out (spec R230); at most 34 bytes
are ever committed, so `outLen` passes are enough. -/
def commitWhile (cfg : Params) (b : Nat) : Nat → Viterbi → Viterbi
  | 0, v => v
  | n + 1, v =>
    if v.nout < outLen && commitDue b v.o then commitWhile cfg b n (commitByte cfg b v) else v

/-- The pass of the block decode for pair `b` (spec R230): nothing once 34 bytes are out. -/
def decodePair (cfg : Params) (msg : Vector Byte 576) (v : Viterbi) (b : Nat) : Viterbi :=
  if v.nout < outLen then
    commitWhile cfg b outLen (addCompareSelect cfg (fetchPair cfg msg b) v)
  else v

/-- The 288 passes of the block decode (spec R230). -/
def decodePairs (cfg : Params) (msg : Vector Byte 576) (v : Viterbi) : Viterbi :=
  (List.range 288).foldl (decodePair cfg msg) (viterbiInit v)

/-- `Finalise()`: the last two bytes become 0 and the sentinel or 0 (spec R244). -/
def finaliseOut (cfg : Params) (v : Viterbi) : Vector Byte 34 :=
  (v.out.set 33 (if crcMatches v.crc v.out then cfg.crcOk else 0)).set 32 0

/-- The block decode: the working state it leaves and the frame (spec R230, R244). -/
def decodeBlock (cfg : Params) (c : UnitNo) (msg : Vector Byte 576) (v : Viterbi) : Viterbi × Frame :=
  let d := decodePairs cfg msg v
  ({ d with out := finaliseOut cfg d },
   { data := finaliseOut cfg d, crcMatch := crcMatches d.crc d.out, channelId := c })

/-- FECDEC on a channel: only the working state is written; the frame (spec R230). -/
def fecdecChannel (cfg : Params) (c : UnitNo) (k : Channel) : Channel × Frame :=
  let r := decodeBlock cfg c k.msg k.wk
  ({ k with wk := r.1 }, r.2)

/-- `SyncStep(v)`: shift in the new bit, compare after the shift (spec R222, R223). -/
def syncStep (v : Bool) (k : Channel) : Channel :=
  let r := (k.syncReg <<< 1) ||| (if v then 1#34 else 0#34)
  if r = syncPattern then { k with syncReg := r, mode := .buffering, outCursor := 0 }
  else { k with syncReg := r }

/-- The soft byte of a decided bit (spec R114, R225). -/
def softByte (v : Bool) : Byte := if v then 0xFF else 0x00

/-- `BufferStep(v)`: store, and decode when the block is complete (spec R225, R226). -/
def bufferStep (cfg : Params) (c : UnitNo) (v : Bool) (k : Channel) : Channel × List Frame :=
  let k' := { k with msg := k.msg.setIfInBounds k.outCursor (softByte v), outCursor := k.outCursor + 1 }
  if k'.outCursor = msgBits then
    let r := fecdecChannel cfg c k'
    ({ r.1 with mode := .syncing }, [r.2])
  else (k', [])

/-- One decided bit (spec R221): the channel it leaves and the frames it causes. -/
def takeBit (cfg : Params) (c : UnitNo) (v : Bool) (k : Channel) : Channel × List Frame :=
  match k.mode with
  | .syncing => (syncStep v k, [])
  | .buffering => bufferStep cfg c v k

/-- FECBIT on a channel: the head of `bq` is removed and taken (spec R221). -/
def fecbitChannel (cfg : Params) (c : UnitNo) (k : Channel) : Channel × List Frame :=
  match k.bq with
  | [] => (k, [])
  | v :: rest => takeBit cfg c v { k with bq := rest }

/-- `FECBIT c` (spec R221). -/
def execFecbit (c : UnitNo) (s : State) : Result :=
  match s.channelRefusal c with
  | some e => .next (s.refuse e c)
  | none =>
    if (s.chan c).bq.isEmpty then .next (s.refuse .emptyQueue c)
    else
      .next (s.finish c (.fecbit c) (fecbitChannel s.cfg c (s.chan c)).1
        (fecbitChannel s.cfg c (s.chan c)).2)

/-- `FECDEC c` (spec R230). -/
def execFecdec (c : UnitNo) (s : State) : Result :=
  s.guarded (s.channelRefusal c) c
    (s.finish c (.fecdec c) (fecdecChannel s.cfg c (s.chan c)).1 [(fecdecChannel s.cfg c (s.chan c)).2])

end Sys2Proof.Machine
end

