-- ==== Sys2Proof/Machine/Lowpass.lean ====
section
/-!
DEFINITION. The low-pass filter bank (spec 41_lowpass.md): the operation LPF.
-/

namespace Sys2Proof.Machine

/-- One sample through one section: the output and the section's new state (spec R152). -/
def filterSection (f : Format) (b : Biquad) (z : Zi) (u : Cplx) : Cplx × Zi :=
  let y := cadd f (cscale f b.b0 u) z.z0
  (y, ⟨cadd f (csub f (cscale f b.b1 u) (cscale f b.a1 y)) z.z1,
       csub f (cscale f b.b2 u) (cscale f b.a2 y)⟩)

/-- One sample through the cascade (spec R150, R153). -/
def filterSample (f : Format) (sos : Vector Biquad 3) (zi : Vector Zi 3) (u : Cplx) :
    Cplx × Vector Zi 3 :=
  let r0 := filterSection f sos[0] zi[0] u
  let r1 := filterSection f sos[1] zi[1] r0.1
  let r2 := filterSection f sos[2] zi[2] r1.1
  (r2.1, #v[r0.2, r1.2, r2.2])

/-- The samples in order: the outputs and the filter state they leave (spec R153). -/
def filterSamples (f : Format) (sos : Vector Biquad 3) : Vector Zi 3 → List Cplx → List Cplx × Vector Zi 3
  | zi, [] => ([], zi)
  | zi, u :: us =>
    let r := filterSample f sos zi u
    let rest := filterSamples f sos r.2 us
    (r.1 :: rest.1, rest.2)

/-- LPF on a channel: `x` and `zi` are written (spec R153). -/
def filterChannel (cfg : Params) (k : Channel) : Channel :=
  let r := filterSamples cfg.fpS cfg.sos k.zi k.x
  { k with x := r.1, zi := r.2 }

/-- `LPF c` (spec R153). -/
def execLpf (c : UnitNo) (s : State) : Result := s.onChannel c (filterChannel s.cfg)

end Sys2Proof.Machine
end

