-- ==== Sys2Proof/Machine/Splitter.lean ====
section
/-!
DEFINITION. The stream splitter (spec 46_splitter.md): the operations PUSH, GET, NEXT, CLOSE. Each is
one atomic step on the whole Splitter (spec R85).
-/

namespace Sys2Proof.Machine

/-- `cursor[c]` (spec R37). -/
def Splitter.cursorOf (sp : Splitter) (c : UnitNo) : Nat := sp.cursor.getD c.toNat 0

/-- `min over c of cursor[c]` (spec R38). -/
def Splitter.minCursor (sp : Splitter) : Nat := sp.cursor.min?.getD 0

/-- `avail(c)` (spec R274). -/
def Splitter.avail (sp : Splitter) (c : UnitNo) : Bool := decide (sp.cursorOf c < sp.wr)

/-- `done(c)` (spec R274). -/
def Splitter.done (sp : Splitter) (c : UnitNo) : Bool :=
  sp.closed && decide (sp.cursorOf c = sp.closeIndex)

/-- The block at the consumer's cursor, `window[cursor[c] - base]` (spec R75, R273). -/
def Splitter.blockAt (sp : Splitter) (c : UnitNo) : Block := sp.window.getD (sp.cursorOf c - sp.base) []

/-- The Splitter after a block was appended: it becomes block index `wr` (spec R272). -/
def Splitter.append (cfg : Params) (sp : Splitter) (blk : Block) : Splitter :=
  { sp with
    window := sp.window ++ [blk]
    wr := sp.wr + 1
    lagWarn := sp.lagWarn || lagCondition cfg (sp.window ++ [blk]) }

/-- `while base < m`: the front block is removed (spec R275). -/
def evict (m : Nat) : Nat → List Block → Nat × List Block
  | base, [] => (base, [])
  | base, b :: w => if base < m then evict m (base + 1) w else (base, b :: w)

/-- The Splitter after consumer `c` moved on (spec R275). -/
def Splitter.advance (sp : Splitter) (c : UnitNo) : Splitter :=
  let sp' := { sp with cursor := sp.cursor.set c.toNat (sp.cursorOf c + 1) }
  let r := evict sp'.minCursor sp.base sp.window
  { sp' with base := r.1, window := r.2 }

/-- The Splitter closed at the current write position (spec R279). -/
def Splitter.shut (sp : Splitter) : Splitter := { sp with closed := true, closeIndex := sp.wr }

/-- The push of a block on a constructed Splitter, in the order of spec R341: legality, `closed`,
capacity, then the block is appended (spec R271, R272, R281 to R283). Its samples are stored as they
are: that they are `FP_S` values (spec R111) is not checked (assumption 32). Shared by PUSH and PUMP. -/
def State.pushBlock (s : State) (blk : Block) : State :=
  if blk.isEmpty then s.refuse .emptyPush 0
  else if !fitsBlockMax s.cfg blk.length then s.refuse .blockTooLong 0
  else if s.sp.closed then (s.raise .pushReject 0).answer (.pushed false)
  else if windowFull s.cfg s.sp.window then s.refuse .windowOverflow 0
  else
    let s' := s.setSplitter (s.sp.append s.cfg blk)
    (if lagCondition s.cfg s'.sp.window then s'.raise .lag 0 else s').answer (.pushed true)

/-- `CLOSE` on a constructed Splitter: acts once (spec R279, R335). Shared by CLOSE and PUMP. -/
def State.closeStream (s : State) : State :=
  if s.sp.closed then s else (s.setSplitter s.sp.shut).raise .eos 0

/-- `PUSH` (spec R272): the block is the datum on port `blk_in`. -/
def execPush (s : State) : Result := s.guarded s.splitterRefusal 0 (s.pushBlock s.blkIn)

/-- `GET c` (spec R273): the block at the cursor, the terminator, or the consumer waits (R274). -/
def execGet (c : UnitNo) (s : State) : Result :=
  match s.consumerRefusal c with
  | some e => .next (s.refuse e c)
  | none =>
    if s.sp.avail c then .next (s.answer (.block (s.sp.blockAt c)))
    else if s.sp.done c then .next ((s.endEngine c).answer .terminator)
    else .next (s.wait c (.get c))

/-- `NEXT c` (spec R275, R276). -/
def execNext (c : UnitNo) (s : State) : Result :=
  match s.consumerRefusal c with
  | some e => .next (s.refuse e c)
  | none =>
    if s.sp.avail c then .next ((s.setSplitter (s.sp.advance c)).answer .nothing)
    else .next (s.refuse .nextBeyondWrite c)

/-- `CLOSE` (spec R279). -/
def execClose (s : State) : Result :=
  s.guarded s.splitterRefusal 0 (s.closeStream.answer .nothing)

end Sys2Proof.Machine
end

