-- ==== Sys2Proof/Machine/Engine.lean ====
section
/-!
DEFINITION. The channel as a whole (spec 47_channel.md): the test access LOADX, one block through the
chain (BLOCK), and the engine's program (RUN).
-/

namespace Sys2Proof.Machine

/-- `LOADX c` (spec R302): the block is the datum on port `blk_in`. Its samples are stored as they are:
that they are `FP_S` values (spec R111) is not checked and nothing is rounded (assumption 32). -/
def execLoadx (c : UnitNo) (s : State) : Result :=
  match s.channelRefusal c with
  | some e => .next (s.refuse e c)
  | none =>
    if fitsBlockMax s.cfg s.blkIn.length then
      .next ((s.setChan c { s.chan c with x := s.blkIn }).answer .nothing)
    else .next (s.refuse .blockTooLong c)

/-- What is left of `BLOCK c` once the block is copied: the primitives in their order, each an atomic
step of its own, and the sample count (spec R108, R304, R305). -/
def blockPieces (c : UnitNo) (len : Nat) : List Piece :=
  [.op (.shift c), .op (.lpf c), .op (.disc c), .op (.extr c), .drainTq, .drainBq, .advance len]

/-- `BLOCK c` (spec R304): not atomic. This step is the private copy of the block at the cursor (spec
R303); the primitives are left for the engine's next turns (assumption 6). -/
def execBlock (c : UnitNo) (s : State) : Result :=
  match s.channelRefusal c with
  | some e => .next (s.refuse e c)
  | none =>
    if s.sp.avail c then
      let blk := s.sp.blockAt c
      .next (((s.setChan c { s.chan c with x := blk }).begin c (blockPieces c blk.length)).answer .nothing)
    else .next (s.refuse .noBlock c)

/-- The rest of one pass of the engine's loop, and the loop again (spec R307). -/
def passPieces (c : UnitNo) : List Piece := [.op (.block c), .op (.next c), .op (.run c)]

/-- `RUN c` (spec R307): not atomic. This step is the `GET c` at the head of the loop; when it returns
a block, `BLOCK c`, `NEXT c` and the loop again are left for the engine's next turns; when it returns
the terminator the engine is finished; when it is not enabled the engine waits (assumption 6). -/
def execRun (c : UnitNo) (s : State) : Result :=
  match s.channelRefusal c with
  | some e => .next (s.refuse e c)
  | none =>
    if s.sp.avail c then .next ((s.begin c (passPieces c)).answer .nothing)
    else if s.sp.done c then .next ((s.endEngine c).answer .terminator)
    else .next (s.wait c (.run c))

end Sys2Proof.Machine
end

