-- ==== Sys2Proof/Machine/Producer.lean ====
section
/-!
DEFINITION. The producer (spec 47_channel.md R301, R308, R310): the operation PUMP.
-/

namespace Sys2Proof.Machine

/-- `toS` of a signed byte (spec R310). -/
def byteDatum (f : Format) (b : Byte) : Datum := ofInt f b.toInt

/-- An IQ word as a complex sample: `I` in bits 7:0, `Q` in bits 15:8 (spec R110, R310). -/
def iqSample (f : Format) (w : Word16) : Cplx :=
  ⟨byteDatum f (w.extractLsb' 0 8), byteDatum f (w.extractLsb' 8 8)⟩

/-- The words one read of at most `READ_MAX` delivers (spec R301; assumption 9). -/
def State.readWords (s : State) : List Word16 := s.srcIn.take s.cfg.readMax

/-- The producer pushes the block it holds and learns whether to go on (spec R308, R336; assumption
27). -/
def State.pushHeld (s : State) : State :=
  match s.prod.held with
  | none => s
  | some blk =>
    let s' := (s.setProducer { s.prod with held := none }).pushBlock blk
    if s'.rsp = .pushed false then (s'.setProducer ⟨none, true⟩).answer .stopped
    else if s'.rsp = .pushed true then s'.answer .running
    else s'

/-- The producer's turn: the second half of a `PUMP` it has begun (spec R308). -/
def producerTurn (s : State) : Result := .next s.pushHeld

/-- A `PUMP` begun on a closed stream (spec R308, R108). With a count of 0 on the port its `CLOSE` does
nothing (spec R279); with words on the port its `PUSH` is rejected, whatever the words are, and raises
`PUSH_REJECT` (spec R281, R336); in both the producer returns stopped. No word is taken from the source
and no block is made of it: "After `EOS` the hardware never reads the source again" (spec R337;
assumption 25). -/
def State.pumpClosed (s : State) : State :=
  let s' := s.setProducer { s.prod with stopped := true }
  (if s.srcIn.isEmpty then s' else s'.raise .pushReject 0).answer .stopped

/-- The first half of a `PUMP` (spec R308). A producer that has stopped does nothing more (assumption
10). On an open stream it reads: a count of 0 closes the stream and stops the producer, else the block is
converted and held for the push. -/
def State.pumpRead (s : State) : State :=
  if s.prod.stopped then s.answer .stopped
  else if s.sp.closed then s.pumpClosed
  else if s.readWords.isEmpty then
    (s.closeStream.setProducer { s.prod with stopped := true }).answer .stopped
  else
    (s.setProducer { s.prod with held := some (s.readWords.map (iqSample s.cfg.fpS)) }).answer .nothing

/-- `PUMP` (spec R308): not atomic. This step is the read; the `PUSH` of the block read is left for
the producer's turn (assumption 6), but on a closed stream nothing is left to do (assumption 25). A `PUMP` still in progress is completed first, in program order
(spec R86; assumption 10). -/
def execPump (s : State) : Result := s.guarded s.splitterRefusal 0 s.pushHeld.pumpRead

end Sys2Proof.Machine
end

