-- ==== Sys2Proof/Machine/Dispatch.lean ====
section
/-! DEFINITION. The dispatch of spec R104: one arm for each operation. -/

namespace Sys2Proof.Machine

def exec (i : Instr) (s : State) : Host.Outcome State Fault Refusal :=
  match i with
  | .spinit => Sys2Proof.Machine.execSpinit s
  | .chinit c => Sys2Proof.Machine.execChinit c s
  | .push => Sys2Proof.Machine.execPush s
  | .get c => Sys2Proof.Machine.execGet c s
  | .next c => Sys2Proof.Machine.execNext c s
  | .close => Sys2Proof.Machine.execClose s
  | .shift c => Sys2Proof.Machine.execShift c s
  | .lpf c => Sys2Proof.Machine.execLpf c s
  | .disc c => Sys2Proof.Machine.execDisc c s
  | .extr c => Sys2Proof.Machine.execExtr c s
  | .bsync c => Sys2Proof.Machine.execBsync c s
  | .fecbit c => Sys2Proof.Machine.execFecbit c s
  | .fecdec c => Sys2Proof.Machine.execFecdec c s
  | .loadx c => Sys2Proof.Machine.execLoadx c s
  | .block c => Sys2Proof.Machine.execBlock c s
  | .run c => Sys2Proof.Machine.execRun c s
  | .pump => Sys2Proof.Machine.execPump s

end Sys2Proof.Machine
end

