-- ==== Sys2Proof/Machine/Agents.lean ====
section
/-!
DEFINITION. The agents (spec R86, R354): what each does when its turn comes. An engine takes one atomic
piece of what it has begun, the producer pushes the block it holds, an operation word is decoded and
carried out, or left to the engine that is to carry it out when that engine is busy.
-/

namespace Sys2Proof

/-- The engine that issues the operation, where the agent of spec R104 is an engine. `CHINIT` is an
operation of the controller, `LOADX` of the test bench. -/
def Instr.engine? : Instr → Option UnitNo
  | .spinit => none
  | .chinit _ => none
  | .push => none
  | .get c => some c
  | .next c => some c
  | .close => none
  | .shift c => some c
  | .lpf c => some c
  | .disc c => some c
  | .extr c => some c
  | .bsync c => some c
  | .fecbit c => some c
  | .fecdec c => some c
  | .loadx _ => none
  | .block c => some c
  | .run c => some c
  | .pump => none

end Sys2Proof

namespace Sys2Proof.Machine

/-- `n_total <- n_total + L`, the last piece of `BLOCK c`: with it the operation is complete (spec R304,
R305). -/
def State.advanceTotal (s : State) (c : UnitNo) (len : Nat) : State :=
  (s.setChan c { s.chan c with nTotal := (s.chan c).nTotal + len }).answer .nothing

/-- One piece of engine `c`'s program, already taken off its list: an operation; one pass of a loop over
a queue, which leaves the loop to do again; the sample count (spec R108, R304; assumption 6). -/
def runPiece (c : UnitNo) (k : Piece) (s : State) : Result :=
  match k with
  | .op i => exec i s
  | .drainTq => if (s.chan c).tq.isEmpty then .next s else exec (.bsync c) (s.begin c [.drainTq])
  | .drainBq => if (s.chan c).bq.isEmpty then .next s else exec (.fecbit c) (s.begin c [.drainBq])
  | .advance len => .next (s.advanceTotal c len)

/-- Engine `c` takes the next piece of what it has begun, if there is one (spec R86; assumption 5). -/
def engineTurn (c : UnitNo) (s : State) : Result :=
  match (s.engine c).todo with
  | [] => .next s
  | k :: rest => runPiece c k (s.setEngine c { s.engine c with todo := rest })

/-- An operation is offered by its agent, in the agent's program order (spec R86, R87; assumption 5): one
of an engine that is busy comes after all that the engine has begun; a `PUSH` of a producer that holds
a block comes after the push of that block; every other is carried out. -/
def offer (i : Instr) (s : State) : Result :=
  match i.engine? with
  | some c => if (s.engine c).todo.isEmpty then exec i s else .next (s.enqueue c i)
  | none => if i = .push then exec i s.pushHeld else exec i s

/-- An operation word: offered, or refused by the decoder (spec R103, R338, R341 (1)). -/
def runWord (w : Word16) (s : State) : Result :=
  match decodeWord w with
  | .ok i => offer i s
  | .badOp u => .next (s.refuse .badOp u)
  | .badUnit u => .next (s.refuse .badUnit u)

/-- One turn, the schedule having moved past it (spec R86). -/
def takeTurn (t : Turn) (s : State) : Result :=
  match t with
  | .word w blk rd => runWord w (s.present blk rd)
  | .engine c => engineTurn c s
  | .producer => producerTurn s
  | .stop => exec .close s
  | .sink c ready => .next (s.setSinkReady c ready)

/-- Nothing is left of what the agent that is to carry out the operation has begun. -/
def State.idleFor (s : State) (i : Instr) : State :=
  match i.engine? with
  | some c => if (s.engine c).todo.isEmpty then s else s.setEngine c { s.engine c with todo := [] }
  | none =>
    if (i = .push ∨ i = .pump) ∧ s.prod.held ≠ none then s.setProducer { s.prod with held := none }
    else s

end Sys2Proof.Machine
end

