-- ==== Sys2Proof/Machine/Step.lean ====
section
/-!
DEFINITION. One step of the machine: the next turn of the schedule is taken (spec R86).
-/

namespace Sys2Proof.Machine

/-- One step: with no turn left nothing happens (assumption 3). -/
def step (s : State) : Host.Outcome State Fault Refusal :=
  match s.turns with
  | [] => .next s
  | t :: rest => takeTurn t (s.setTurns rest)

/-- `s` with the operation word `w` as its next turn, and with nothing pending in the agent that is to
carry it out, so that the next step runs it; the data on `blk_in` and `src` stay as they are
(assumption 4). -/
def State.withFetchWord (s : State) (nbits w : Nat) : State :=
  let word : Word16 := BitVec.ofNat 16 (w % 2 ^ nbits)
  let s' := match decodeWord word with
    | .ok i => s.idleFor i
    | .badOp _ => s
    | .badUnit _ => s
  s'.setTurns (.word word s.blkIn s.srcIn :: s.turns)

end Sys2Proof.Machine
end

