-- ==== Sys2Proof/WellFormed.lean ====
section
/-!
DEFINITION. Well-formed operations of an instance with `n` channels (spec R102, R103): the `unit` of
an operation on a channel or consumer is below `N`.
-/

namespace Sys2Proof

/-- The channel or consumer number of an operation that has one (spec R104, column unit). -/
def Instr.unit? : Instr → Option UnitNo
  | .spinit => none
  | .chinit c => some c
  | .push => none
  | .get c => some c
  | .next c => some c
  | .close => none
  | .shift c => some c
  | .lpf c => some c
  | .disc c => some c
  | .extr c => some c
  | .bsync c => some c
  | .fecbit c => some c
  | .fecdec c => some c
  | .loadx c => some c
  | .block c => some c
  | .run c => some c
  | .pump => none

/-- The operation names a unit that an instance with `n` channels has: `0 <= c < N` (spec R101). -/
def Instr.wellFormed (n : Nat) (i : Instr) : Bool :=
  match i.unit? with
  | none => true
  | some c => decide (c.toNat < n)

end Sys2Proof
end

