-- ==== Sys2Proof/Safety.lean ====
section
/-!
DEFINITION. The vocabulary of the statements: when a unit is in operation, the invariants of the
Splitter and of the channels, runs of several operations, the value of a floating-point datum, the
cost of a path through the trellis, the test-bench encoder.
-/

namespace Sys2Proof

/-- The operation acts on the state of a constructed channel (spec R372: every operation with a unit
but `CHINIT`, `GET` and `NEXT`). -/
def Instr.usesChannel : Instr → Bool
  | .spinit => false
  | .chinit _ => false
  | .push => false
  | .get _ => false
  | .next _ => false
  | .close => false
  | .shift _ => true
  | .lpf _ => true
  | .disc _ => true
  | .extr _ => true
  | .bsync _ => true
  | .fecbit _ => true
  | .fecdec _ => true
  | .loadx _ => true
  | .block _ => true
  | .run _ => true
  | .pump => false

/-! ## Floating point -/

/-- The number a finite datum stands for. -/
def Datum.toRat? : Datum → Option Rat
  | .fin s m e => some ((if s then -(m : Rat) else (m : Rat)) * (2 : Rat) ^ e)
  | _ => none

/-- Half an ulp above the largest finite value: from there on a result rounds to an infinity. -/
def overflowAt (f : Format) : Rat := (2 : Rat) ^ ((f.emax : Int) + 1) - (2 : Rat) ^ ((f.emax : Int) - f.prec)

/-- `r` is the number `q` rounded once into the format: to nearest, a tie to the even significand, to
an infinity from `overflowAt` on (spec R12, R17). -/
structure Rounded (f : Format) (q : Rat) (r : Datum) : Prop where
  representable : r.inFormat f = true
  not_nan : r ≠ .nan
  overflow : ∀ s, r = .inf s ↔ overflowAt f ≤ |q| ∧ (s = true ↔ q < 0)
  nearest : ∀ v, r.toRat? = some v → ∀ (y : Datum) (w : Rat), y.inFormat f = true → y.toRat? = some w →
    |v - q| ≤ |w - q|
  tie_even : ∀ s m e v, r = .fin s m e → r.toRat? = some v →
    ∀ (y : Datum) (w : Rat), y.inFormat f = true → y.toRat? = some w → w ≠ v → |w - q| = |v - q| → m % 2 = 0

end Sys2Proof

namespace Sys2Proof.Machine

/-! ## Units in operation -/

/-- The Splitter is constructed and `c` is one of its consumers (spec R101, R372). -/
abbrev State.served (s : State) (c : UnitNo) : Prop := s.sp.constructed = true ∧ c.toNat < s.cfg.n

/-- Channel `c` is in operation: its operations are not refused by R341 (1) and (2). -/
abbrev State.ready (s : State) (c : UnitNo) : Prop := s.served c ∧ (s.chan c).constructed = true

/-- A run has ended: the producer has returned "stopped" and every engine has received the
terminator (spec R313). -/
def State.runEnded (s : State) : Prop :=
  s.prod.stopped = true ∧ ∀ c : UnitNo, c.toNat < s.cfg.n → (s.engine c).ended = true

/-! ## Invariants -/

/-- The invariants of a constructed Splitter (spec R37, R38, R75, R271, R283). -/
structure Splitter.Inv (cfg : Params) (sp : Splitter) : Prop where
  legal : splitterLegal cfg = true
  consumers : sp.cursor.length = cfg.n
  /-- `base` is one of the cursors; with `between`, their minimum. -/
  base_attained : sp.base ∈ sp.cursor
  between : ∀ k ∈ sp.cursor, sp.base ≤ k ∧ k ≤ sp.wr
  write_position : sp.wr = sp.base + sp.window.length
  close_position : sp.closed = true → sp.closeIndex = sp.wr
  blocks : ∀ b ∈ sp.window, b ≠ []
  capacity : ∀ m, cfg.windowCap = some m → sp.window.length ≤ m

/-- The Splitter, once constructed, has its invariants. -/
def State.SplitterInv (s : State) : Prop := s.sp.constructed = true → s.sp.Inv s.cfg

/-- The invariants of a constructed channel: its constants are those of its construction (spec R21,
R131, R133, R134, R166), the history has its length (R25), the FEC cursor its range (R34). -/
structure Channel.Inv (cfg : Params) (c : UnitNo) (k : Channel) : Prop where
  legal : channelLegal cfg c = true
  period : k.tLen = (searchPeriod cfg (channelFreq cfg c)).tLen
  repeats : k.rep = (searchPeriod cfg (channelFreq cfg c)).rep
  rotation : k.sgn = rotationOf (channelFreq cfg c)
  warning : k.cfgWarn = !(searchPeriod cfg (channelFreq cfg c)).best.isZero
  table : k.osc = oscTable cfg.fpS k.sgn k.rep k.tLen
  table_positive : 1 ≤ k.tLen
  repeats_range : 1 ≤ k.rep ∧ k.rep ≤ 9
  weight : k.frac = blendFraction cfg
  delay : k.hlen = historyLength cfg
  delay_range : 2 ≤ k.hlen
  history : k.hist.length = k.hlen
  fec_cursor : k.outCursor ≤ 576
  fec_buffering : k.mode = .buffering → k.outCursor < 576

/-- Every constructed channel belongs to the Splitter and has its invariants. -/
def State.ChannelInv (s : State) : Prop :=
  ∀ c : UnitNo, (s.chan c).constructed = true → s.served c ∧ (s.chan c).Inv s.cfg c

/-- What the agents have begun is in order: an engine's pending operations are its own (spec R307,
R350); a block that a `PUMP` has read is a legal push (spec R301, R308). -/
structure State.AgentInv (s : State) : Prop where
  engines : ∀ (c : UnitNo) (i : Instr), .op i ∈ (s.engine c).todo → i.unit? = some c
  held_constructed : ∀ b, s.prod.held = some b → s.sp.constructed = true
  held_legal : ∀ b, s.prod.held = some b → b ≠ [] ∧ b.length ≤ s.cfg.readMax

/-- All the invariants. -/
structure State.Inv (s : State) : Prop where
  splitter : s.SplitterInv
  channels : s.ChannelInv
  agents : s.AgentInv

/-- `pushed` lists every block pushed since construction: the window is what is left of it (spec R37:
block `i` is `window[i - base]`). -/
structure Splitter.Records (sp : Splitter) (pushed : List Block) : Prop where
  count : pushed.length = sp.wr
  window : sp.window = pushed.drop sp.base

/-! ## Runs -/

/-- One atomic step of an agent, on the state after the schedule has moved past its turn (spec R86): an
operation that `allowed` holds of, the producer's push, or a piece of an engine's program that is no
operation (a pass of a loop over a queue, the sample count). -/
def atomicStep (allowed : Instr → Prop) (s t : State) : Prop :=
  (∃ i, allowed i ∧ exec i s = .next t) ∨ producerTurn s = .next t ∨
    ∃ c k, (∀ i, k ≠ .op i) ∧ runPiece c k s = .next t

/-- The next `n` turns of engine `c`, no other agent's between them. -/
def engineTurns (c : UnitNo) : Nat → State → Option State
  | 0, s => some s
  | n + 1, s =>
    match engineTurn c s with
    | .next t => engineTurns c n t
    | _ => none

/-! ## The chain as one function of the channel

What the pieces of `BLOCK c` come to together, when the engine takes them to the end (`BlockIsChain`). -/

/-- `while tq is not empty: BSYNC c` (spec R304), one pass for each of `n` entries. -/
def drainTransitions (cfg : Params) : Nat → Channel → Option Channel
  | 0, k => some k
  | n + 1, k => (bsyncChannel cfg k).bind (drainTransitions cfg n)

/-- `while bq is not empty: FECBIT c` (spec R304), one pass for each of `n` entries; the frames in
the order their last bits were decided. -/
def drainBits (cfg : Params) (c : UnitNo) : Nat → Channel → Channel × List Frame
  | 0, k => (k, [])
  | n + 1, k =>
    let r := fecbitChannel cfg c k
    let rest := drainBits cfg c n r.1
    (rest.1, r.2 ++ rest.2)

/-- The four buffer stages in their order, on the private copy of a block (spec R303, R304). -/
def frontEnd (cfg : Params) (blk : Block) (k : Channel) : Channel :=
  extrChannel (discChannel cfg (filterChannel cfg (shiftChannel cfg { k with x := blk })))

/-- One block through the chain: the channel it leaves and the frames, in the order their last bits
were decided; `n_total` grows once, at the end (spec R304, R305). `none` when a clock loop does not
end (spec U53). -/
def processBlock (cfg : Params) (c : UnitNo) (blk : Block) (k : Channel) :
    Option (Channel × List Frame) :=
  let k1 := frontEnd cfg blk k
  (drainTransitions cfg k1.tq.length k1).map fun k2 =>
    let r := drainBits cfg c k2.bq.length k2
    ({ r.1 with nTotal := r.1.nTotal + blk.length }, r.2)

/-- Blocks through a channel one after the other (spec R304, R307): the channel they leave and the
frames, in order. -/
def processBlocks (cfg : Params) (c : UnitNo) : List Block → Channel → Option (Channel × List Frame)
  | [], k => some (k, [])
  | b :: bs, k =>
    (processBlock cfg c b k).bind fun r =>
      (processBlocks cfg c bs r.1).map fun q => (q.1, r.2 ++ q.2)

/-- What a channel carries from one block to the next: all but the work buffer and the staging buffer,
whose contents between blocks are never read (spec R26, R50). -/
def Channel.carried (k : Channel) : Channel := { k with x := [], staging := [] }

/-- The stream of bits fed to the FEC decoder of a channel, with nothing queued before (spec R221). -/
def feedBits (cfg : Params) (c : UnitNo) (bits : List Bool) (k : Channel) : Channel × List Frame :=
  drainBits cfg c bits.length { k with bq := bits }

/-- The discriminator on consecutive blocks, from the history `hist`: the outputs joined, and the
history they leave (spec R168, R170). -/
def discriminateBlocks (f : Format) (fs : Datum) (hlen : Nat) :
    List Cplx → List Block → List Cplx × List Cplx
  | hist, [] => ([], hist)
  | hist, b :: bs =>
    let rest := discriminateBlocks f fs hlen (newHistory hist b hlen) bs
    (discriminate f fs hist b hlen ++ rest.1, rest.2)

/-- The shifter on consecutive blocks, the first sample's global index being `g` (spec R138). -/
def shiftBlocks (f : Format) (k : Channel) : Nat → List Block → List Cplx
  | _, [] => []
  | g, b :: bs => shiftSamples f k g b ++ shiftBlocks f k (g + b.length) bs

/-- The filter on consecutive blocks (spec R154). -/
def filterBlocks (f : Format) (sos : Vector Biquad 3) :
    Vector Zi 3 → List Block → List Cplx × Vector Zi 3
  | zi, [] => ([], zi)
  | zi, b :: bs =>
    let r := filterSamples f sos zi b
    let rest := filterBlocks f sos r.2 bs
    (r.1 ++ rest.1, rest.2)

/-- One section over a whole buffer (spec R153: "section by section over the whole buffer"). -/
def sectionOver (f : Format) (b : Biquad) : Zi → List Cplx → List Cplx × Zi
  | z, [] => ([], z)
  | z, u :: us =>
    let r := filterSection f b z u
    let rest := sectionOver f b r.2 us
    (r.1 :: rest.1, rest.2)

/-- The extractor on consecutive blocks (spec R189). -/
def transitionsOfBlocks : Nat → Bool → List Block → List Transition × Bool
  | _, last, [] => ([], last)
  | g, last, b :: bs =>
    let r := transitionsOf g last b
    let rest := transitionsOfBlocks (g + b.length) r.2 bs
    (r.1 ++ rest.1, rest.2)

/-- The boolean of global index `g` rebuilt from the records: the `new_state` of the last record with
`idx <= g`, or `initial` if there is none (spec R188 (c)). -/
def rebuiltBoolean (initial : Bool) (ts : List Transition) (g : Nat) : Bool :=
  ((ts.filter fun t => decide (t.idx ≤ g)).getLast?.map (·.newState)).getD initial

/-! ## Clock recovery -/

/-- The accumulator after `j` ticks from `a`, without a pull (spec R201, step 3). -/
def ticked (f : Format) (bw a : Datum) : Nat → Datum
  | 0 => a
  | j + 1 => fpAdd f (ticked f bw a j) bw

/-- The transition at `xi` lies less than half a baud width from the accumulator `a` (spec R204). -/
def withinHalf (cfg : Params) (xi a : Datum) : Bool := (fpSub cfg.fpA xi a).abs.lt (halfBaud cfg)

/-! ## Oscillator search -/

/-- The table length and residual error of repeat count `r`, when there is a table of that length
(spec R131). -/
def searchCandidate (cfg : Params) (a : Datum) (r : Nat) : Option (Nat × Datum) :=
  match candidateLength cfg.fpA cfg.sampleRate a r with
  | none => none
  | some t =>
    if exceedsTMax cfg.tMax t then none
    else some (t, residualError cfg.fpA cfg.sampleRate a r t)

/-! ## FEC -/

/-- Character `m` of the sync register, `m = 0` the oldest, as a boolean (spec R32). -/
def syncChar (r : BitVec 34) (m : Nat) : Bool := r.getLsbD (33 - m)

/-- The sync pattern as the spec writes it (spec R115), oldest character first. -/
def syncPatternBits : List Bool :=
  "1010101010101010101101001110010001".toList.map fun ch => ch == '1'

/-- The trellis state that data bit `u` leads to from state `p` (spec R231). -/
def nextState (p : Nat) (u : Bool) : Nat := (2 * p + u.toNat) % 8

/-- The state at the end of a path from state `p`. -/
def pathEnd : Nat → List Bool → Nat
  | p, [] => p
  | p, u :: us => pathEnd (nextState p u) us

/-- The total branch cost, as a natural, of the path from state `p` with data bits `us`, the first of
which belongs to pair `b` (spec R233). -/
def pathCost (cfg : Params) (msg : Vector Byte 576) : Nat → Nat → List Bool → Nat
  | _, _, [] => 0
  | b, p, u :: us =>
    (branchCost cfg (fetchPair cfg msg b) p u.toNat).toNat
      + pathCost cfg msg (b + 1) (nextState p u) us

/-- The cost a path starts with (spec R236). -/
def startCost (p : Nat) : Nat := if p = 0 then 0 else 0x7FFFFFFF

/-- The working state after the passes for pairs `0 .. b-1` (spec R230). -/
def decodeUpTo (cfg : Params) (msg : Vector Byte 576) (v : Viterbi) (b : Nat) : Viterbi :=
  (List.range b).foldl (decodePair cfg msg) (viterbiInit v)

/-- The default tables and values of the FEC parameters (spec R9, R232, R233, R235, R243). -/
structure DefaultFec (cfg : Params) : Prop where
  trellis : cfg.trellis = defaultTrellis
  e0 : cfg.e0 = 0x00#8
  e1 : cfg.e1 = 0xFF#8
  interleave : cfg.interleave = defaultInterleave
  whiten : cfg.whiten = defaultWhiten

/-- The 36 bytes the test-bench encoder sends, before whitening (spec file 95_test_vectors.md 7.1). -/
def preBytes (payload : List Byte) : List Byte :=
  let crc := payload.foldl (fun a b => crcByte b a) crcInit
  payload ++ [crc.extractLsb' 8 8, crc.extractLsb' 0 8, 0x0B#8, 0x0B#8]

/-- The data bits of the encoder: the whitened bytes, most significant bit first. -/
def dataBits (cfg : Params) (payload : List Byte) : List Bool :=
  ((preBytes payload).zipIdx.map fun p =>
    (List.range 8).map fun n => (p.1 ^^^ cfg.whiten.getD p.2 0).getLsbD (7 - n)).flatten

/-- The symbols of the data bits from trellis state `p`. -/
def symbolsFrom (cfg : Params) : Nat → List Bool → List (BitVec 2)
  | _, [] => []
  | p, u :: us => trellisSymbol cfg p u.toNat :: symbolsFrom cfg (nextState p u) us

/-- The block `msg` holds the coded payload: the two bits of symbol number `p.2`, high bit first, stand
as soft bytes at the places `il(2n)` and `il(2n) + 1` (spec file 95_test_vectors.md 7.1, spec R225). -/
def Encodes (cfg : Params) (payload : List Byte) (msg : Vector Byte 576) : Prop :=
  ∀ p ∈ (symbolsFrom cfg 0 (dataBits cfg payload)).zipIdx,
    msg[deinterleave cfg (BitVec.ofNat 16 (2 * p.2))]? = some (softByte (p.1.getLsbD 1)) ∧
      msg[deinterleave cfg (BitVec.ofNat 16 (2 * p.2)) + 1]? = some (softByte (p.1.getLsbD 0))

end Sys2Proof.Machine
end

