-- ==== Sys2Proof/Certificates/Slice0/Obligations.lean ====
section
/-!
DEFINITION. The statements for the provers. `{ s with … }` as a next state says the result and the
frame at once: every field that is not named is unchanged. A line "log n" names the row
notes/assumptions/n.md whose choice the statement rests on.
-/

open Sys2Proof Sys2Proof.Machine

/-! ## Encoding and the step -/

/-- R101, R104, R106: a word means the operation `i` exactly when it is the word of `i`, and in a byte
stream the word is read high byte first. -/
def Obligations.DecodeEncodeAgree : Prop :=
  (∀ (w : Word16) (i : Instr), decodeWord w = .ok i ↔ w = encode i) ∧
    ∀ (i : Instr) (rest : List Byte),
      decodeBytes (i.opCode :: i.unitField :: rest) = some (.ok i, rest) ∧
        decodeTableWord 16 (encode i).toNat = some i

/-- R104: the words of the seventeen operations, written out. -/
def Obligations.SampleWords : Prop :=
  decodeWord 0x0100#16 = .ok .spinit ∧ decodeWord 0x0203#16 = .ok (.chinit 3#8) ∧
  decodeWord 0x1000#16 = .ok .push ∧ decodeWord 0x1101#16 = .ok (.get 1#8) ∧
  decodeWord 0x12FF#16 = .ok (.next 255#8) ∧ decodeWord 0x1300#16 = .ok .close ∧
  decodeWord 0x2000#16 = .ok (.shift 0#8) ∧ decodeWord 0x2102#16 = .ok (.lpf 2#8) ∧
  decodeWord 0x2204#16 = .ok (.disc 4#8) ∧ decodeWord 0x2308#16 = .ok (.extr 8#8) ∧
  decodeWord 0x2410#16 = .ok (.bsync 16#8) ∧ decodeWord 0x2520#16 = .ok (.fecbit 32#8) ∧
  decodeWord 0x2640#16 = .ok (.fecdec 64#8) ∧ decodeWord 0x2780#16 = .ok (.loadx 128#8) ∧
  decodeWord 0x2801#16 = .ok (.block 1#8) ∧ decodeWord 0x29AA#16 = .ok (.run 0xAA#8) ∧
  decodeWord 0x3000#16 = .ok .pump

/-- R103, R105: which words name no operation, and with which refusal; the code and the unit are the
quotient and the remainder by 256. That `unit >= N` is refused is in `UnavailableRefused`. -/
def Obligations.ReservedWords : Prop :=
  ∀ (w : Word16) (u : UnitNo),
    (decodeWord w = .badOp u ↔
      w.toNat / 256 ∉ [0x01, 0x02, 0x10, 0x11, 0x12, 0x13, 0x20, 0x21, 0x22, 0x23, 0x24, 0x25,
          0x26, 0x27, 0x28, 0x29, 0x30] ∧ u.toNat = w.toNat % 256) ∧
    (decodeWord w = .badUnit u ↔
      w.toNat / 256 ∈ [0x01, 0x10, 0x13, 0x30] ∧ u.toNat ≠ 0 ∧ u.toNat = w.toNat % 256)

/-- A step runs the decoded operation (R86, R87, R101, R104; log 3, log 4, log 5, log 8). When the next
turn offers the word of `i`, and the engine that R104 gives the operation to has nothing pending, the step
is `exec i` on the state whose schedule has moved past the turn and whose input ports hold the data of the
turn; when that engine is busy the operation becomes the last of what it has to do; a `PUSH` comes after
the push of a block the producer holds; every other operation is carried out at once. -/
def Obligations.StepRunsWord : Prop :=
  (∀ (s : State) (i : Instr) (blk : Block) (rd : List Word16) (rest : List Turn),
    s.turns = .word (encode i) blk rd :: rest →
    let s' := { s with turns := rest, blkIn := blk, srcIn := rd }
    (∀ c, i.engine? = some c → (s.engine c).todo = [] → step s = exec i s') ∧
    (∀ c, i.engine? = some c → (s.engine c).todo ≠ [] → step s = .next { s' with
      eng := s.eng.set c.toNat { s.engine c with todo := (s.engine c).todo ++ [.op i] } c.isLt }) ∧
    (i.engine? = none → (i = .push → s.prod.held = none) → step s = exec i s') ∧
    (i = .push → ∀ t, producerTurn s' = .next t → step s = exec .push t)) ∧
  ∀ (s : State) (i : Instr),
    step (s.withFetchWord 16 (encode i).toNat) = exec i (s.idleFor i) ∧
    ((∀ c, i.engine? = some c → (s.engine c).todo = []) → (i = .push ∨ i = .pump → s.prod.held = none) →
      s.idleFor i = s)

/-- R103, R338, R118: a word that names no operation changes nothing but the schedule and the input
ports that the turn sets; one event word goes out, code 11 or 6 with the word's unit. -/
def Obligations.RefusedWordStep : Prop :=
  ∀ (s : State) (w : Word16) (blk : Block) (rd : List Word16) (rest : List Turn) (u : UnitNo),
    s.turns = .word w blk rd :: rest →
    (decodeWord w = .badOp u →
      step s = .next { s with
        turns := rest, blkIn := blk, srcIn := rd
        status := s.status ++ [u ++ 0x0B#8], rsp := .refused .badOp }) ∧
    (decodeWord w = .badUnit u →
      step s = .next { s with
        turns := rest, blkIn := blk, srcIn := rd
        status := s.status ++ [u ++ 0x06#8], rsp := .refused .badUnit })

/-- The turns that offer no word (R86, R304, R305, R307, R311, R340; log 3, log 5, log 6, log 24). An
engine's turn takes the first piece of what it has begun: an operation is carried out; a loop over a queue
is over when the queue is empty, and is else one `BSYNC` or `FECBIT`, with the loop still to do; the last
piece of a `BLOCK` adds its length to `n_total`. A producer that holds nothing does nothing, the stop
request is a `CLOSE` step, a sink changes its readiness, and without a turn nothing happens. -/
def Obligations.AgentTurns : Prop :=
  ∀ (s : State) (rest : List Turn) (c : UnitNo),
    (s.turns = .engine c :: rest →
      (∀ k more, (s.engine c).todo = k :: more →
        let s' := { s with
          turns := rest, eng := s.eng.set c.toNat { s.engine c with todo := more } c.isLt }
        (∀ i, k = .op i → step s = exec i s') ∧
        (k = .drainTq → (s.chan c).tq = [] → step s = .next s') ∧
        (k = .drainTq → (s.chan c).tq ≠ [] → step s = exec (.bsync c) { s with turns := rest }) ∧
        (k = .drainBq → (s.chan c).bq = [] → step s = .next s') ∧
        (k = .drainBq → (s.chan c).bq ≠ [] → step s = exec (.fecbit c) { s with turns := rest }) ∧
        (∀ len, k = .advance len → step s = .next { s' with
          ch := s.ch.set c.toNat { s.chan c with nTotal := (s.chan c).nTotal + len } c.isLt
          rsp := .nothing })) ∧
      ((s.engine c).todo = [] → step s = .next { s with turns := rest })) ∧
    (s.turns = .producer :: rest → s.prod.held = none → step s = .next { s with turns := rest }) ∧
    (s.turns = .stop :: rest → step s = exec .close { s with turns := rest }) ∧
    (∀ b, s.turns = .sink c b :: rest →
      step s = .next { s with turns := rest, sinkReady := s.sinkReady.set c.toNat b c.isLt }) ∧
    (s.turns = [] → step s = .next s)

/-- R345: nothing is fatal: every operation in every state, and every step, has a next state. -/
def Obligations.NothingIsFatal : Prop :=
  (∀ (i : Instr) (s : State), ∃ t, exec i s = .next t) ∧ ∀ s : State, ∃ t, step s = .next t

/-- R371, R47, R90: no step changes a construction parameter; only the construction of the unit
itself changes what was computed from them: the number of consumers, and a channel's oscillator,
history length and blend weight. The atomic steps are every agent's: the operations, the producer's
push and the pieces of the engines' programs. -/
def Obligations.ConfigurationFixed : Prop :=
  (∀ s t : State, step s = .next t → t.cfg = s.cfg) ∧
  (∀ s t : State, atomicStep (· ≠ .spinit) s t → t.sp.cursor.length = s.sp.cursor.length) ∧
  ∀ (s t : State) (c : UnitNo), atomicStep (· ≠ .chinit c) s t →
    (t.chan c).osc = (s.chan c).osc ∧ (t.chan c).tLen = (s.chan c).tLen ∧
    (t.chan c).rep = (s.chan c).rep ∧ (t.chan c).sgn = (s.chan c).sgn ∧
    (t.chan c).frac = (s.chan c).frac ∧ (t.chan c).hlen = (s.chan c).hlen

/-! ## Construction -/

/-- R270, R9 (log 19, log 21): with legal parameters `SPINIT` leaves an empty open Splitter with `N`
cursors at 0 and an unspecified `close_index`, in whatever state it is issued, and touches no channel;
with illegal ones it is refused. -/
def Obligations.SpinitConstructs : Prop :=
  ∀ s : State,
    (splitterLegal s.cfg = true ↔
      1 ≤ s.cfg.n ∧ s.cfg.n ≤ 256 ∧ 1 ≤ s.cfg.lagWarn ∧ 1 ≤ s.cfg.readMax ∧
        (∀ m, s.cfg.windowCap = some m → 1 ≤ m) ∧
        ∀ m, s.cfg.blockMax = some m → 1 ≤ m ∧ s.cfg.readMax ≤ m) ∧
    (splitterLegal s.cfg = true →
      ∃ eng prod free, ∃ index : Nat, exec .spinit s = .next { s with
        sp := { constructed := true, window := [], base := 0, wr := 0,
                cursor := List.replicate s.cfg.n 0, closed := false, closeIndex := index,
                lagWarn := false }
        eng := eng, prod := prod, free := free, rsp := .nothing }) ∧
    (splitterLegal s.cfg = false →
      exec .spinit s = .next { s with
        status := s.status ++ [0x0009#16], rsp := .refused .badConfig })

/-- R9, R10, R300, R48, R133, R332 (log 21): which channel parameters are legal; with legal parameters `CHINIT c` leaves the channel of the table of
R48, raises `CFG_ADJUST` when the residual error is not zero, and changes nothing else; `msg`, the
staging buffer and the working state of the block decode are not specified. With illegal parameters it
is refused. `C` is `ceil(OFF)`. -/
def Obligations.ChinitConstructs : Prop :=
  ∀ (s : State) (c : UnitNo), s.served c →
    (channelLegal s.cfg c = true ↔
      (2 ≤ s.cfg.fpS.prec ∧ 1 ≤ s.cfg.fpS.emax) ∧ (2 ≤ s.cfg.fpA.prec ∧ 1 ≤ s.cfg.fpA.emax) ∧
      (∀ v ∈ [s.cfg.sampleRate, s.cfg.off, s.cfg.bw], v.inFormat s.cfg.fpA = true ∧
        ∃ q, v.toRat? = some q ∧ 0 < q) ∧
      (∃ v q, s.cfg.freq[c.toNat]? = some v ∧ v.inFormat s.cfg.fpA = true ∧ v.toRat? = some q) ∧
      (∀ b ∈ s.cfg.sos.toList, ∀ v ∈ [b.b0, b.b1, b.b2, b.a1, b.a2],
        v.inFormat s.cfg.fpS = true ∧ ∃ q, v.toRat? = some q) ∧
      (∀ n, n < 16 → BitVec.ofNat 16 (2 * n) ∈ s.cfg.interleave.toList) ∧
      s.cfg.crcOk ≠ 0x00#8 ∧ ∀ m, s.cfg.tMax = some m → 1 ≤ m) ∧
    (channelLegal s.cfg c = true →
      ∃ (off : Rat) (C : Nat), s.cfg.off.toRat? = some off ∧ off ≤ C ∧ (C : Rat) < off + 1 ∧
      ∃ staging msg wk free,
        let p := searchPeriod s.cfg (channelFreq s.cfg c)
        let minus := (channelFreq s.cfg c).lt (.fin false 0 0)
        let zero : Cplx := ⟨.fin false 0 s.cfg.fpS.etiny, .fin false 0 s.cfg.fpS.etiny⟩
        exec (.chinit c) s = .next { s with
          ch := s.ch.set c.toNat
            { constructed := true, tLen := p.tLen, rep := p.rep
              sgn := if minus then .minus else .plus
              osc := oscTable s.cfg.fpS (if minus then .minus else .plus) p.rep p.tLen
              cfgWarn := !p.best.isZero
              frac := fpSub s.cfg.fpA (ofNat s.cfg.fpA C) s.cfg.off
              hlen := C + 1
              zi := #v[⟨zero, zero⟩, ⟨zero, zero⟩, ⟨zero, zero⟩]
              hist := List.replicate (C + 1) zero
              staging := staging, prevBit := false, nTotal := 0, x := [], tq := [], bq := []
              alignment := .fin false 0 s.cfg.fpA.etiny
              mode := .syncing, syncReg := 0, msg := msg, outCursor := 0, wk := wk } c.isLt
          status := s.status ++ (if p.best.isZero then [] else [c ++ 0x01#8])
          free := free, rsp := .nothing }) ∧
    (channelLegal s.cfg c = false →
      exec (.chinit c) s = .next { s with
        status := s.status ++ [c ++ 0x09#8], rsp := .refused .badConfig })

/-- R372, R103, R338, R341 (log 20): before `SPINIT` everything else is refused with
`NOT_CONSTRUCTED`, whatever its unit, which the event word carries; after it a unit `>= N` is refused with `BAD_UNIT`, and an
operation on a channel not yet constructed with `NOT_CONSTRUCTED`. -/
def Obligations.UnavailableRefused : Prop :=
  ∀ (s : State) (i : Instr),
    (s.sp.constructed = false → i ≠ .spinit →
      exec i s = .next { s with
        status := s.status ++ [i.unitField ++ 0x0F#8], rsp := .refused .notConstructed }) ∧
    ∀ c : UnitNo, i.unit? = some c → s.sp.constructed = true →
      (s.cfg.n ≤ c.toNat → exec i s = .next { s with
        status := s.status ++ [c ++ 0x06#8], rsp := .refused .badUnit }) ∧
      (c.toNat < s.cfg.n → i.usesChannel = true → (s.chan c).constructed = false →
        exec i s = .next { s with
          status := s.status ++ [c ++ 0x0F#8], rsp := .refused .notConstructed })

/-! ## Frequency shifter -/

/-- R131: what the search for the table length finds. For `F = 0` the identity table without error.
Else, if any repeat count 1..9 gives a table with an error below infinity, the result is one of the
candidates, none has a smaller error, and every smaller repeat count has a greater one (or none: a
NaN is no error); if there is no such candidate, the identity table with `best = a`. -/
def Obligations.SearchIsBest : Prop :=
  ∀ (cfg : Params) (freq : Datum),
    let p := searchPeriod cfg freq
    let a := freq.abs
    (a.isZero = true → p.tLen = 1 ∧ p.rep = 1 ∧ p.best.isZero = true) ∧
    (a.isZero = false → p.found = true →
      1 ≤ p.rep ∧ p.rep ≤ 9 ∧ 1 ≤ p.tLen ∧ (∀ m, cfg.tMax = some m → p.tLen ≤ m) ∧
      searchCandidate cfg a p.rep = some (p.tLen, p.best) ∧
      ∀ r t e, 1 ≤ r → r ≤ 9 → searchCandidate cfg a r = some (t, e) →
        e.lt p.best = false ∧ (r < p.rep → e = .nan ∨ p.best.lt e = true)) ∧
    (a.isZero = false → p.found = false →
      p.tLen = 1 ∧ p.rep = 1 ∧ p.best = a ∧
      ∀ r t e, 1 ≤ r → r ≤ 9 → searchCandidate cfg a r = some (t, e) → e.lt (.inf false) = false)

/-- R134, R135, R139, R141 (log 13): the table has `T` entries; where `R*k mod T = 0`, and so at `k = 0`,
the entry is `1 + j*0`; an entry depends on `R*k mod T` alone; elsewhere the tables of the two directions
hold conjugate entries; the table of two entries holds `-1`. Every entry is finite, within `3 / 2^prec`
of the true phasor of `sgn*R*k/T` of a turn, and of magnitude 1 within `16 / 2^prec`: the number is the
model's reading of "the format's tolerance" (log 13). -/
def Obligations.OscillatorTable : Prop :=
  (∀ f : Format, f.legal = true → (cone f).re.toRat? = some 1 ∧ (cone f).im.toRat? = some 0) ∧
  (∀ (f : Format) (rep tLen : Nat) (sgn : Rotation), 1 ≤ tLen →
    (oscTable f sgn rep tLen).length = tLen ∧
    (oscTable f sgn rep tLen)[0]? = some (cone f) ∧
    ∀ k, k < tLen →
      (rep * k % tLen = 0 → (oscTable f sgn rep tLen)[k]? = some (cone f)) ∧
      (rep * k % tLen ≠ 0 → ∃ z, (oscTable f .plus rep tLen)[k]? = some z ∧
        (oscTable f .minus rep tLen)[k]? = some ⟨z.re, z.im.neg⟩) ∧
      ∀ j, j < tLen → rep * j % tLen = rep * k % tLen →
        (oscTable f sgn rep tLen)[j]? = (oscTable f sgn rep tLen)[k]?) ∧
  ∀ (f : Format) (rep tLen : Nat) (sgn : Rotation) (k : Nat), f.legal = true → k < tLen →
    ∃ (z : Cplx) (a b : Rat), (oscTable f sgn rep tLen)[k]? = some z ∧
      z.re.toRat? = some a ∧ z.im.toRat? = some b ∧
      (let turns : ℝ := ((rep * k % tLen : Nat) : ℝ) / tLen
       let sign : ℝ := match sgn with | .plus => 1 | .minus => -1
       |(a : ℝ) - Real.cos (2 * Real.pi * turns)| ≤ 3 / 2 ^ f.prec ∧
       |(b : ℝ) - sign * Real.sin (2 * Real.pi * turns)| ≤ 3 / 2 ^ f.prec) ∧
      |a ^ 2 + b ^ 2 - 1| ≤ 16 / 2 ^ f.prec ∧
      (tLen = 2 → rep * k % 2 = 1 → a = -1 ∧ b = 0)

/-- R136, R71: `SHIFT c` multiplies sample `i` by the phasor at `(n_total + i) mod T` and changes the
work buffer only. -/
def Obligations.ShiftResult : Prop :=
  (∀ c : UnitNo, encode (.shift c) = 0x20#8 ++ c) ∧
  ∀ (s : State) (c : UnitNo), s.ready c →
    ∃ x', exec (.shift c) s = .next { s with
        ch := s.ch.set c.toNat { s.chan c with x := x' } c.isLt, rsp := .nothing } ∧
      x'.length = (s.chan c).x.length ∧
      ∀ i z w, (s.chan c).x[i]? = some z →
        (s.chan c).osc[((s.chan c).nTotal + i) % (s.chan c).tLen]? = some w →
        x'[i]? = some (cmul s.cfg.fpS z w)

/-- R138, R154, R189: the shifter, the filter and the extractor on a stream cut into blocks give, bit
for bit, what they give on the whole stream. -/
def Obligations.StagesContinue : Prop :=
  (∀ (f : Format) (k : Channel) (g : Nat) (bs : List Block),
    shiftBlocks f k g bs = shiftSamples f k g bs.flatten) ∧
  (∀ (f : Format) (sos : Vector Biquad 3) (zi : Vector Zi 3) (bs : List Block),
    filterBlocks f sos zi bs = filterSamples f sos zi bs.flatten) ∧
  ∀ (g : Nat) (last : Bool) (bs : List Block),
    transitionsOfBlocks g last bs = transitionsOf g last bs.flatten

/-! ## Low-pass filter -/

/-- R150, R152, R153: `LPF c` filters the work buffer in place; `zs i` is the filter state before
sample `i`, `ys i k` the input of section `k` at sample `i`; the new state of a section uses its old
second value. Only `x` and `zi` change. -/
def Obligations.LpfResult : Prop :=
  (∀ c : UnitNo, encode (.lpf c) = 0x21#8 ++ c) ∧
  ∀ (s : State) (c : UnitNo), s.ready c →
    ∃ (x' : List Cplx) (zs : Nat → Vector Zi 3) (ys : Nat → Nat → Cplx),
      exec (.lpf c) s = .next { s with
        ch := s.ch.set c.toNat { s.chan c with x := x', zi := zs (s.chan c).x.length } c.isLt
        rsp := .nothing } ∧
      x'.length = (s.chan c).x.length ∧ zs 0 = (s.chan c).zi ∧
      ∀ i u, (s.chan c).x[i]? = some u →
        ys i 0 = u ∧ x'[i]? = some (ys i 3) ∧
        ∀ k (_ : k < 3),
          let f := s.cfg.fpS
          let b := s.cfg.sos[k]
          ys i (k + 1) = cadd f (cscale f b.b0 (ys i k)) (zs i)[k].z0 ∧
          (zs (i + 1))[k].z0
            = cadd f (csub f (cscale f b.b1 (ys i k)) (cscale f b.a1 (ys i (k + 1)))) (zs i)[k].z1 ∧
          (zs (i + 1))[k].z1 = csub f (cscale f b.b2 (ys i k)) (cscale f b.a2 (ys i (k + 1)))

/-- R153, corner cases: the three sections sample by sample give what they give section by section
over the whole buffer, output and state. -/
def Obligations.LpfSectionOrder : Prop :=
  ∀ (f : Format) (sos : Vector Biquad 3) (zi : Vector Zi 3) (xs : List Cplx),
    let r0 := sectionOver f sos[0] zi[0] xs
    let r1 := sectionOver f sos[1] zi[1] r0.1
    let r2 := sectionOver f sos[2] zi[2] r1.1
    filterSamples f sos zi xs = (r2.1, #v[r0.2, r1.2, r2.2])

/-! ## Discriminator -/

/-- R72, R166 to R168, R170: with `p` the history followed by the buffer, sample `i` becomes the blend
of `p[i+1]` and `p[i+2]` (positions `i - C` and `i - C + 1`, `C = HLEN - 1`) times the conjugate of the
sample; the history becomes the last `HLEN` entries of `p`. Nothing else changes but the hidden staging
buffer, which takes the old history (R26). -/
def Obligations.DiscResult : Prop :=
  (∀ c : UnitNo, encode (.disc c) = 0x22#8 ++ c) ∧
  ∀ (s : State) (c : UnitNo), s.ready c → (s.chan c).hist.length = (s.chan c).hlen →
    2 ≤ (s.chan c).hlen →
    let f := s.cfg.fpS
    let p := (s.chan c).hist ++ (s.chan c).x
    let fs := (s.chan c).frac.convert f
    ∃ x', exec (.disc c) s = .next { s with
        ch := s.ch.set c.toNat { s.chan c with
          x := x', hist := p.drop (s.chan c).x.length, staging := (s.chan c).hist } c.isLt
        rsp := .nothing } ∧
      x'.length = (s.chan c).x.length ∧
      ∀ i a b z, p[i + 1]? = some a → p[i + 2]? = some b → (s.chan c).x[i]? = some z →
        x'[i]? = some (cmulconj f
          (cadd f (cscale f (fpSub f (ofNat f 1) fs) a) (cscale f fs b)) z)

/-- R171: from the zero history, on blocks of any lengths, the output for global index `g` is the
formula of R171 on the whole stream `p` (zeros before it), and the history holds the last `HLEN`
samples received. -/
def Obligations.DiscContinuity : Prop :=
  ∀ (f : Format) (fs : Datum) (hlen : Nat) (bs : List Block), 2 ≤ hlen →
    let r := discriminateBlocks f fs hlen (List.replicate hlen (czero f)) bs
    let p := List.replicate hlen (czero f) ++ bs.flatten
    r.1.length = bs.flatten.length ∧ r.2 = p.drop bs.flatten.length ∧
    ∀ g a b z, p[g + 1]? = some a → p[g + 2]? = some b → bs.flatten[g]? = some z →
      r.1[g]? = some (cmulconj f
        (cadd f (cscale f (fpSub f (ofNat f 1) fs) a) (cscale f fs b)) z)

/-! ## Extractor -/

/-- R186, R17: the boolean of a sample is true exactly for an imaginary part that is minus infinity or
a negative number; false for both zeros, plus infinity and a NaN. -/
def Obligations.SampleBoolean : Prop :=
  ∀ (re im : Datum), sampleBit ⟨re, im⟩ = true ↔
    im = .inf true ∨ ∃ m e, im = .fin true m e ∧ 0 < m

/-- R187: `EXTR c` appends, in index order, one record for each sample whose boolean differs from the
one before it (`prev_bit` before the first), with the global index `n_total + i`; `prev_bit` becomes
the last boolean, or stays when the buffer is empty. -/
def Obligations.ExtrResult : Prop :=
  (∀ c : UnitNo, encode (.extr c) = 0x23#8 ++ c) ∧
  ∀ (s : State) (c : UnitNo), s.ready c →
    ∃ ts, exec (.extr c) s = .next { s with
        ch := s.ch.set c.toNat { s.chan c with
          tq := (s.chan c).tq ++ ts
          prevBit := ((s.chan c).x.getLast?.map sampleBit).getD (s.chan c).prevBit } c.isLt
        rsp := .nothing } ∧
      ts.Pairwise (fun a b => a.idx < b.idx) ∧
      ∀ g v, (⟨g, v⟩ : Transition) ∈ ts ↔
        ∃ i z before, (s.chan c).x[i]? = some z ∧
          ((s.chan c).prevBit :: (s.chan c).x.map sampleBit)[i]? = some before ∧
          g = (s.chan c).nTotal + i ∧ v = sampleBit z ∧ v ≠ before

/-- R188, R112: of any stream of samples the records' indices strictly increase, their states alternate
beginning with the negation of the boolean carried in, and the booleans rebuilt from them are the
stream's. As a word of 65 bits a record has its index in bits 63:0 and its state in bit 64, and an index
of 64 bits (R16) loses nothing. -/
def Obligations.TransitionStream : Prop :=
  (∀ (g : Nat) (last : Bool) (xs : List Cplx),
    let ts := (transitionsOf g last xs).1
    ts.Pairwise (fun a b => a.idx < b.idx) ∧
    (∀ i t, ts[i]? = some t → t.newState = (last ^^ decide (i % 2 = 0))) ∧
    ∀ i z, xs[i]? = some z → rebuiltBoolean last ts (g + i) = sampleBit z) ∧
  (∀ t : Transition, t.idx < 2 ^ 64 →
    (transitionWord t).toNat = (if t.newState then 2 ^ 64 else 0) + t.idx ∧
    transitionOfWord (transitionWord t) = t) ∧
  ∀ w : BitVec 65, transitionWord (transitionOfWord w) = w

/-! ## Bit synchronizer -/

/-- R201 steps 1 and 2, R205, R207: the first transition primes the clock; a transition before the
accumulator, or exactly at it, is dropped; no bit is emitted. -/
def Obligations.BsyncWithoutTick : Prop :=
  ∀ (s : State) (c : UnitNo) (t : Transition) (rest : List Transition), s.ready c →
    (s.chan c).tq = t :: rest →
    let a := (s.chan c).alignment
    let xi := ofNat s.cfg.fpA t.idx
    (a.isZero = true → exec (.bsync c) s = .next { s with
      ch := s.ch.set c.toNat { s.chan c with tq := rest, alignment := xi } c.isLt
      rsp := .nothing }) ∧
    (a.isZero = false → xi.lt a = true ∨ a.lt xi = false → exec (.bsync c) s = .next { s with
      ch := s.ch.set c.toNat { s.chan c with tq := rest } c.isLt, rsp := .nothing })

/-- R201 step 3, R202 to R204: a transition after the accumulator, `m` ticks on. The ticks before the
`m`-th lie before the transition and not within half a baud width of it; the `m`-th either lies within
half a baud width, and pulls, or is the first not before the transition. `m` bits are emitted, each
the state held before the transition. The bound on `m` is the number of passes the model makes at
most, more than the format has values (log 18). -/
def Obligations.BsyncTicks : Prop :=
  ∀ (s : State) (c : UnitNo) (t : Transition) (rest : List Transition) (m : Nat), s.ready c →
    (s.chan c).tq = t :: rest →
    let f := s.cfg.fpA
    let a := ticked f s.cfg.bw (s.chan c).alignment
    let xi := ofNat f t.idx
    (a 0).isZero = false → 1 ≤ m → m < clockFuel f →
    (∀ j, j < m → (a j).lt xi = true) →
    (∀ j, 1 ≤ j → j < m → withinHalf s.cfg xi (a j) = false) →
    (withinHalf s.cfg xi (a m) = true → exec (.bsync c) s = .next { s with
      ch := s.ch.set c.toNat { s.chan c with
        tq := rest
        alignment := fpAdd f (fpMul f (keepWeight f) (a m)) (fpMul f (pullWeight f) xi)
        bq := (s.chan c).bq ++ List.replicate m (!t.newState) } c.isLt
      rsp := .nothing }) ∧
    (withinHalf s.cfg xi (a m) = false → (a m).lt xi = false → exec (.bsync c) s = .next { s with
      ch := s.ch.set c.toNat { s.chan c with
        tq := rest
        alignment := a m
        bq := (s.chan c).bq ++ List.replicate m (!t.newState) } c.isLt
      rsp := .nothing })

/-- R208, R389 (log 18): a `BSYNC` that does not complete is one whose accumulator no longer grows,
`alignment +_A BW = alignment`, while the transition is still ahead. -/
def Obligations.ClockWaitsOnlyWhenStuck : Prop :=
  ∀ (s : State) (c : UnitNo) (t : Transition) (rest : List Transition), s.ready c →
    (s.chan c).tq = t :: rest → s.cfg.fpA.legal = true →
    (s.chan c).alignment.inFormat s.cfg.fpA = true → s.cfg.bw.isPositive s.cfg.fpA = true →
    exec (.bsync c) s = .next (s.wait c (.bsync c)) →
    ∃ j, (ticked s.cfg.fpA s.cfg.bw (s.chan c).alignment j).lt (ofNat s.cfg.fpA t.idx) = true ∧
      ticked s.cfg.fpA s.cfg.bw (s.chan c).alignment (j + 1)
        = ticked s.cfg.fpA s.cfg.bw (s.chan c).alignment j

/-- R338, R201, R221: `BSYNC` on an empty `tq` and `FECBIT` on an empty `bq` are refused with
`EMPTY_QUEUE`. -/
def Obligations.EmptyQueuesRefused : Prop :=
  ∀ (s : State) (c : UnitNo), s.ready c →
    ((s.chan c).tq = [] → exec (.bsync c) s = .next { s with
      status := s.status ++ [c ++ 0x0C#8], rsp := .refused .emptyQueue }) ∧
    ((s.chan c).bq = [] → exec (.fecbit c) s = .next { s with
      status := s.status ++ [c ++ 0x0C#8], rsp := .refused .emptyQueue })

/-! ## FEC decoder: detection and buffering -/

/-- R222, R223, R115: in mode Syncing the register moves one place towards the oldest and takes the new
bit as its newest character; when all 34 characters are then the pattern's, the mode becomes Buffering
and the cursor 0, else both stay. -/
def Obligations.FecbitSyncs : Prop :=
  ∀ (s : State) (c : UnitNo) (v : Bool) (rest : List Bool), s.ready c →
    (s.chan c).mode = .syncing → (s.chan c).bq = v :: rest →
    ∃ r : BitVec 34,
      (∀ m, m < 33 → syncChar r m = syncChar (s.chan c).syncReg (m + 1)) ∧ syncChar r 33 = v ∧
      ((∀ m, m < 34 → syncPatternBits[m]? = some (syncChar r m)) →
        exec (.fecbit c) s = .next { s with
          ch := s.ch.set c.toNat { s.chan c with
            bq := rest, syncReg := r, mode := .buffering, outCursor := 0 } c.isLt
          rsp := .nothing }) ∧
      ((∃ m, m < 34 ∧ syncPatternBits[m]? ≠ some (syncChar r m)) →
        exec (.fecbit c) s = .next { s with
          ch := s.ch.set c.toNat { s.chan c with bq := rest, syncReg := r } c.isLt
          rsp := .nothing })

/-- R225, R226, R311 (log 24): in mode Buffering the bit is stored as a soft byte and the cursor grows;
the bit stored at 575 also decodes the block and sends its frame, with `CRC_FAIL` when the CRC does not
match, and the mode becomes Syncing; while the sink takes no frame that last bit waits. -/
def Obligations.FecbitBuffers : Prop :=
  ∀ (s : State) (c : UnitNo) (v : Bool) (rest : List Bool), s.ready c →
    (s.chan c).mode = .buffering → (s.chan c).bq = v :: rest →
    let k := s.chan c
    let stored : Vector Byte 576 := k.msg.setIfInBounds k.outCursor (if v then 0xFF#8 else 0x00#8)
    (k.outCursor < 575 → exec (.fecbit c) s = .next { s with
      ch := s.ch.set c.toNat { k with
        bq := rest, msg := stored, outCursor := k.outCursor + 1 } c.isLt
      rsp := .nothing }) ∧
    (k.outCursor = 575 → s.sinkTakes c = true →
      ∃ wk, let frame := (decodeBlock s.cfg c stored k.wk).2
        exec (.fecbit c) s = .next { s with
          ch := s.ch.set c.toNat { k with
            bq := rest, msg := stored, outCursor := 576, mode := .syncing, wk := wk } c.isLt
          sink := s.sink ++ [frame]
          status := s.status ++ (if frame.crcMatch then [] else [c ++ 0x02#8])
          rsp := .nothing }) ∧
    (k.outCursor = 575 → s.sinkTakes c = false → exec (.fecbit c) s = .next { s with
      eng := s.eng.set c.toNat
        { s.engine c with todo := .op (.fecbit c) :: (s.engine c).todo } c.isLt })

/-- R224: after construction no match is possible before 34 bits have been received, and the first 34
bits match exactly when they are the pattern. -/
def Obligations.NoMatchBefore34 : Prop :=
  ∀ (cfg : Params) (c : UnitNo) (k : Channel) (bits : List Bool),
    k.mode = .syncing → k.syncReg = 0 →
    (bits.length ≤ 33 → (feedBits cfg c bits k).1.mode = .syncing) ∧
    (bits.length = 34 → ((feedBits cfg c bits k).1.mode = .buffering ↔ bits = syncPatternBits))

/-- R227: with the register still holding the pattern, the earliest match is after 33 bits, exactly
when they are the pattern without its first character. -/
def Obligations.EarliestRematch : Prop :=
  ∀ (cfg : Params) (c : UnitNo) (k : Channel) (bits : List Bool),
    k.mode = .syncing → (∀ m, m < 34 → syncPatternBits[m]? = some (syncChar k.syncReg m)) →
    bits.length ≤ 33 →
    ((feedBits cfg c bits k).1.mode = .buffering ↔ bits = syncPatternBits.drop 1)

/-- R225 to R228, R84: from a match, the next 576 bits are stored in time order whatever they are, no
frame leaves before the last of them, and then exactly one; the sync register does not move. -/
def Obligations.OneFramePerBlock : Prop :=
  ∀ (cfg : Params) (c : UnitNo) (k : Channel) (bits : List Bool),
    k.mode = .buffering → k.outCursor = 0 → bits.length = 576 →
    let r := feedBits cfg c bits k
    r.1.mode = .syncing ∧ r.1.outCursor = 576 ∧ r.1.syncReg = k.syncReg ∧
    (∀ (n : Nat) (v : Bool), bits[n]? = some v → r.1.msg[n]? = some (if v then 0xFF#8 else 0x00#8)) ∧
    r.2 = [(decodeBlock cfg c r.1.msg k.wk).2] ∧
    ∀ n, n < 576 → (feedBits cfg c (bits.take n) k).2 = [] ∧
      (feedBits cfg c (bits.take n) k).1.mode = .buffering

/-! ## FEC decoder: block decode -/

/-- R230, R241, R244, R117, R333, R311 (log 24): `FECDEC c` sends one frame and writes the decode's
working state only; with `d` the state after the 288 pairs, the first 32 bytes are those committed, the
CRC matches exactly when the CRC of those 32 bytes is the last two committed bytes, high byte first, and
the last two bytes become 0 and the sentinel or 0. While the sink takes no frame the engine waits. -/
def Obligations.FecdecResult : Prop :=
  ∀ (s : State) (c : UnitNo), s.ready c →
    let d := decodeUpTo s.cfg (s.chan c).msg (s.chan c).wk 288
    (s.sinkTakes c = true → ∃ (wk : Viterbi) (f : Frame),
      exec (.fecdec c) s = .next { s with
        ch := s.ch.set c.toNat { s.chan c with wk := wk } c.isLt
        sink := s.sink ++ [f]
        status := s.status ++ (if f.crcMatch then [] else [c ++ 0x02#8])
        rsp := .nothing } ∧
      f.channelId = c ∧ (∀ i, i < 32 → f.data[i]? = d.out[i]?) ∧
      (f.crcMatch = true ↔
        (d.out.toList.take 32).foldl (fun a b => crcByte b a) 0xFFFF#16 = d.out[32] ++ d.out[33]) ∧
      f.data[32] = 0x00#8 ∧ f.data[33] = if f.crcMatch then s.cfg.crcOk else 0x00#8) ∧
    (s.sinkTakes c = false → exec (.fecdec c) s = .next { s with
      eng := s.eng.set c.toNat { s.engine c with todo := .op (.fecdec c) :: (s.engine c).todo } c.isLt })

/-- R35, R236, R246: the frame is a function of `msg` alone: it does not depend on what an earlier
decode left in the working state. -/
def Obligations.FrameDependsOnMsgOnly : Prop :=
  ∀ (cfg : Params) (c : UnitNo) (msg : Vector Byte 576) (v v' : Viterbi),
    (decodeBlock cfg c msg v).2 = (decodeBlock cfg c msg v').2

/-- R238, R239, R245: after the passes for pairs `0 .. b-1`, `b <= 287`, one byte has been committed for
each of the pairs 32, 40, .. that have passed; after all 288, exactly 34 bytes, from 272 bits: for
every content of `msg`. -/
def Obligations.CommitSchedule : Prop :=
  ∀ (cfg : Params) (msg : Vector Byte 576) (v : Viterbi),
    (∀ b, b ≤ 287 → (decodeUpTo cfg msg v b).nout = (b - 25) / 8 ∧
      (decodeUpTo cfg msg v b).o = 8 * ((b - 25) / 8)) ∧
    (decodeUpTo cfg msg v 288).nout = 34 ∧ (decodeUpTo cfg msg v 288).o = 272

/-- R16, R233, R236: path costs never overflow: after `b` pairs each is at most `0x7FFFFFFF + 510*b`,
and a branch cost is at most 510. -/
def Obligations.CostsDoNotOverflow : Prop :=
  (∀ (cfg : Params) (pair : Byte × Byte) (p u : Nat), (branchCost cfg pair p u).toNat ≤ 510) ∧
  ∀ (cfg : Params) (msg : Vector Byte 576) (v : Viterbi) (b : Nat) (ns : Fin 8), b ≤ 288 →
    (decodeUpTo cfg msg v b).cost[ns].toNat ≤ 0x7FFFFFFF + 510 * b

/-- R231, R233, R236, R237: add-compare-select keeps the least cost. After `b` pairs the cost of a
state is the least total cost, over all start states and all `b` data bits, of a path that ends there;
no `u32` addition wraps. -/
def Obligations.SurvivorsAreOptimal : Prop :=
  ∀ (cfg : Params) (msg : Vector Byte 576) (v : Viterbi) (b : Nat) (ns : Fin 8), b ≤ 288 →
    (∀ (p : Nat) (us : List Bool), p < 8 → us.length = b → pathEnd p us = ns.val →
      (decodeUpTo cfg msg v b).cost[ns].toNat ≤ startCost p + pathCost cfg msg 0 p us) ∧
    ∃ (p : Nat) (us : List Bool), p < 8 ∧ us.length = b ∧ pathEnd p us = ns.val ∧
      (decodeUpTo cfg msg v b).cost[ns].toNat = startCost p + pathCost cfg msg 0 p us

/-- R247 (log 22): with the default tables, a block that the test-bench encoder makes of any 32-byte
payload decodes to that payload with a matching CRC. -/
def Obligations.RoundTrip : Prop :=
  ∀ (cfg : Params) (c : UnitNo) (payload : List Byte) (msg : Vector Byte 576) (v : Viterbi),
    DefaultFec cfg → payload.length = 32 → Encodes cfg payload msg →
    (decodeBlock cfg c msg v).2.crcMatch = true ∧
      (decodeBlock cfg c msg v).2.data.toList.take 32 = payload

/-- R242: the check value of `123456789`; and, as for any CRC without reflection and final exclusive
or, a register fed its own two bytes, high byte first, becomes 0. -/
def Obligations.CrcRegister : Prop :=
  [0x31#8, 0x32#8, 0x33#8, 0x34#8, 0x35#8, 0x36#8, 0x37#8, 0x38#8, 0x39#8].foldl
      (fun a b => crcByte b a) 0xFFFF#16 = 0xAEE7#16 ∧
  ∀ crc : BitVec 16, crcByte (crc.extractLsb' 0 8) (crcByte (crc.extractLsb' 8 8) crc) = 0#16

/-- R73, R235: with a legal table the de-interleave permutes the even places of each group of 32 coded
bits: even, inside the block, in the same group, and no two pairs on one place. -/
def Obligations.DeinterleavePermutes : Prop :=
  ∀ cfg : Params, interleaveLegal cfg.interleave = true →
    ∀ b, b < 288 →
      let place := deinterleave cfg (BitVec.ofNat 16 (2 * b))
      place % 2 = 0 ∧ place ≤ 574 ∧ place / 32 = 2 * b / 32 ∧
      ∀ b', b' < 288 → deinterleave cfg (BitVec.ofNat 16 (2 * b')) = place → b' = b

/-! ## Splitter -/

/-- R271, R272, R281 to R283, R334, R336, R341: `PUSH` on a constructed Splitter, in the order of its
checks: empty, too long, closed, full, else the block is appended. -/
def Obligations.PushResult : Prop :=
  ∀ s : State, s.sp.constructed = true →
    let len := s.sp.window.length + 1
    (s.blkIn = [] → exec .push s = .next { s with
      status := s.status ++ [0x0007#16], rsp := .refused .emptyPush }) ∧
    (∀ m, s.blkIn ≠ [] → s.cfg.blockMax = some m → m < s.blkIn.length →
      exec .push s = .next { s with
        status := s.status ++ [0x000E#16], rsp := .refused .blockTooLong }) ∧
    (s.blkIn ≠ [] → (∀ m, s.cfg.blockMax = some m → s.blkIn.length ≤ m) →
      (s.sp.closed = true → exec .push s = .next { s with
        status := s.status ++ [0x0005#16], rsp := .pushed false }) ∧
      (s.sp.closed = false → s.cfg.windowCap = some s.sp.window.length →
        exec .push s = .next { s with
          status := s.status ++ [0x000A#16], rsp := .refused .windowOverflow }) ∧
      (s.sp.closed = false → s.cfg.windowCap ≠ some s.sp.window.length →
        exec .push s = .next { s with
          sp := { s.sp with
            window := s.sp.window ++ [s.blkIn], wr := s.sp.wr + 1
            lagWarn := s.sp.lagWarn || decide (s.cfg.lagWarn < len) }
          status := s.status ++ (if s.cfg.lagWarn < len then [0x0003#16] else [])
          rsp := .pushed true }))

/-- R273, R274, R284 (log 5, log 7): `GET c` answers the block at the cursor when there is one, the
terminator when the stream is closed and the cursor at the close index, and otherwise waits: the
engine keeps it as its next operation and nothing else changes. -/
def Obligations.GetResult : Prop :=
  ∀ (s : State) (c : UnitNo) (k : Nat), s.served c → s.sp.cursor[c.toNat]? = some k →
    (∀ b, k < s.sp.wr → s.sp.window[k - s.sp.base]? = some b →
      exec (.get c) s = .next { s with rsp := .block b }) ∧
    (s.sp.wr ≤ k → s.sp.closed = true → k = s.sp.closeIndex → exec (.get c) s = .next { s with
      eng := s.eng.set c.toNat { s.engine c with ended := true } c.isLt, rsp := .terminator }) ∧
    (s.sp.wr ≤ k → (s.sp.closed = false ∨ k ≠ s.sp.closeIndex) → exec (.get c) s = .next { s with
      eng := s.eng.set c.toNat { s.engine c with todo := .op (.get c) :: (s.engine c).todo } c.isLt })

/-- R275 to R277: `NEXT c` moves the cursor by one; `base` becomes the least cursor and the blocks
below it leave the window, at most one; at the write position it is refused. -/
def Obligations.NextResult : Prop :=
  ∀ (s : State) (c : UnitNo) (k : Nat), s.served c → s.sp.Inv s.cfg →
    s.sp.cursor[c.toNat]? = some k →
    (k < s.sp.wr → ∃ m, m ∈ s.sp.cursor.set c.toNat (k + 1) ∧
      (∀ j ∈ s.sp.cursor.set c.toNat (k + 1), m ≤ j) ∧
      (m = s.sp.base ∨ m = s.sp.base + 1) ∧
      exec (.next c) s = .next { s with
        sp := { s.sp with
          cursor := s.sp.cursor.set c.toNat (k + 1)
          base := m, window := s.sp.window.drop (m - s.sp.base) }
        rsp := .nothing }) ∧
    (s.sp.wr ≤ k → exec (.next c) s = .next { s with
      status := s.status ++ [c ++ 0x08#8], rsp := .refused .nextBeyondWrite })

/-- R279, R280, R335: the first `CLOSE` fixes the close index at the write position and raises `EOS`;
it keeps the window; a second one changes nothing. -/
def Obligations.CloseResult : Prop :=
  encode .close = 0x1300#16 ∧
  ∀ s : State, s.sp.constructed = true →
    (s.sp.closed = false → exec .close s = .next { s with
      sp := { s.sp with closed := true, closeIndex := s.sp.wr }
      status := s.status ++ [0x0004#16], rsp := .nothing }) ∧
    (s.sp.closed = true → exec .close s = .next { s with rsp := .nothing })

/-- R37, R38, R21, R25, R34 and the agents' own order: every step keeps all the invariants. -/
def Obligations.InvariantKept : Prop :=
  ∀ s t : State, s.Inv → step s = .next t → t.Inv

/-- R372, R38: the state after reset has the invariants, and nothing is constructed in it. -/
def Obligations.InvariantAtReset : Prop :=
  State.reset.Inv ∧ State.reset.sp.constructed = false ∧
    ∀ c : UnitNo, (State.reset.chan c).constructed = false

/-- R75, R86, R91, R277, R278: with `pushed` the blocks pushed since construction, every atomic step of
every agent but `SPINIT` keeps the window a tail of that list, to which it appends at most one block; the
list's earlier entries never change and `base` never falls. `GET c` answers the entry at the consumer's
cursor. -/
def Obligations.BlocksInPushOrder : Prop :=
  (∀ (s t : State) (pushed : List Block), s.sp.constructed = true → s.sp.Inv s.cfg →
    s.sp.Records pushed → atomicStep (· ≠ .spinit) s t →
    s.sp.base ≤ t.sp.base ∧
    (t.sp.Records pushed ∨ ∃ b, b ≠ [] ∧ t.sp.Records (pushed ++ [b]))) ∧
  ∀ (s : State) (c : UnitNo) (pushed : List Block) (k : Nat) (b : Block), s.served c →
    s.sp.Inv s.cfg → s.sp.Records pushed → s.sp.cursor[c.toNat]? = some k → pushed[k]? = some b →
    exec (.get c) s = .next { s with rsp := .block b }

/-- R282, R313, R332, R343: a step only appends to what went out on the sinks and on the status port;
no atomic step of any agent (an operation, the producer's push, a piece of an engine's program) clears
`closed`, `lag_warn` or `cfg_warn` but the construction of the unit. -/
def Obligations.StatusIsSticky : Prop :=
  (∀ s t : State, step s = .next t → s.status <+: t.status ∧ s.sink <+: t.sink) ∧
  (∀ s t : State, atomicStep (· ≠ .spinit) s t →
    (s.sp.closed = true → t.sp.closed = true) ∧ (s.sp.lagWarn = true → t.sp.lagWarn = true)) ∧
  ∀ (s t : State) (c : UnitNo), atomicStep (· ≠ .chinit c) s t →
    (t.chan c).cfgWarn = (s.chan c).cfgWarn

/-! ## The channel as a whole -/

/-- R302, R338: `LOADX c` puts the block of `blk_in`, of any length up to `BLOCK_MAX`, into the work
buffer and changes nothing else; a longer one is refused. -/
def Obligations.LoadxResult : Prop :=
  ∀ (s : State) (c : UnitNo), s.ready c →
    ((∀ m, s.cfg.blockMax = some m → s.blkIn.length ≤ m) → exec (.loadx c) s = .next { s with
      ch := s.ch.set c.toNat { s.chan c with x := s.blkIn } c.isLt, rsp := .nothing }) ∧
    (∀ m, s.cfg.blockMax = some m → m < s.blkIn.length → exec (.loadx c) s = .next { s with
      status := s.status ++ [c ++ 0x0E#8], rsp := .refused .blockTooLong })

/-- R303 to R306, R108, R313 (log 6): `BLOCK c` copies the block at the cursor to the work buffer and
leaves its primitives, in their order, as the first of what the engine has to do. When the engine then
takes its turns, no other agent's between them, it ends with the channel and the frames of the chain as
one function of the channel, both queues empty, `n_total` greater by the block's length, and with nothing
else changed. The premise on `processBlock` says that no clock loop is stuck (log 18), the last one that
the sink takes what leaves (log 24). -/
def Obligations.BlockIsChain : Prop :=
  ∀ (s : State) (c : UnitNo) (k : Nat) (blk : Block), s.ready c →
    s.sp.cursor[c.toNat]? = some k → k < s.sp.wr → s.sp.window[k - s.sp.base]? = some blk →
    exec (.block c) s = .next { s with
      ch := s.ch.set c.toNat { s.chan c with x := blk } c.isLt
      eng := s.eng.set c.toNat { s.engine c with
        todo := [.op (.shift c), .op (.lpf c), .op (.disc c), .op (.extr c), .drainTq, .drainBq,
          .advance blk.length] ++ (s.engine c).todo } c.isLt
      rsp := .nothing } ∧
    ∀ r : Channel × List Frame, processBlock s.cfg c blk (s.chan c) = some r →
      (r.2 = [] ∨ s.sinkTakes c = true) →
      r.1.tq = [] ∧ r.1.bq = [] ∧ r.1.nTotal = (s.chan c).nTotal + blk.length ∧
      ∃ (n : Nat) (t : State), exec (.block c) s = .next t ∧
        engineTurns c n t = some { s with
          ch := s.ch.set c.toNat r.1 c.isLt
          sink := s.sink ++ r.2
          status := s.status ++ r.2.flatMap (fun f => if f.crcMatch then [] else [c ++ 0x02#8])
          rsp := .nothing }

/-- R304, R311, U51, U53 (log 6, log 18, log 24): where `BLOCK c` is refused and where its primitives
wait. At the write position it is refused with `NO_BLOCK`. In its loop over `tq` a `BSYNC` whose clock is
stuck waits, and in its loop over `bq` a `FECBIT` that would send a frame waits while the sink takes none:
the engine keeps the primitive and the rest of the loop, and nothing else changes; frames of the same
`BLOCK` that left before it have left. -/
def Obligations.BlockRefusedOrWaits : Prop :=
  (∀ (s : State) (c : UnitNo) (k : Nat), s.ready c → s.sp.cursor[c.toNat]? = some k → s.sp.wr ≤ k →
    exec (.block c) s = .next { s with
      status := s.status ++ [c ++ 0x0D#8], rsp := .refused .noBlock }) ∧
  ∀ (s : State) (c : UnitNo) (rest : List Piece), s.ready c →
    ((s.engine c).todo = .drainTq :: rest → (s.chan c).tq ≠ [] →
      bsyncChannel s.cfg (s.chan c) = none →
      engineTurn c s = .next { s with
        eng := s.eng.set c.toNat
          { s.engine c with todo := .op (.bsync c) :: .drainTq :: rest } c.isLt }) ∧
    ((s.engine c).todo = .drainBq :: rest → (s.chan c).bq ≠ [] → (s.chan c).mode = .buffering →
      (s.chan c).outCursor = 575 → s.sinkTakes c = false →
      engineTurn c s = .next { s with
        eng := s.eng.set c.toNat
          { s.engine c with todo := .op (.fecbit c) :: .drainBq :: rest } c.isLt })

/-- R83, R315, R306: cutting a stream into blocks does not change a channel. Processing any list of
blocks one after the other gives the frames, in order, and the state (but for the work and staging
buffers) that one block with all their samples gives; and a clock loop is stuck in the one exactly
when it is in the other. -/
def Obligations.BlockSplitInvariance : Prop :=
  ∀ (cfg : Params) (c : UnitNo) (k : Channel) (bs : List Block), bs ≠ [] →
    k.hist.length = k.hlen → 2 ≤ k.hlen →
    (processBlocks cfg c bs k).map (fun r => (r.1.carried, r.2))
      = (processBlock cfg c bs.flatten k).map (fun r => (r.1.carried, r.2))

/-- R307 (log 5, log 6, log 30): `RUN c` begins a pass when a block is at the cursor: `BLOCK c`,
`NEXT c` and the loop again are the engine's next operations; on the terminator the engine is finished;
else it waits. -/
def Obligations.RunResult : Prop :=
  ∀ (s : State) (c : UnitNo) (k : Nat), s.ready c → s.sp.cursor[c.toNat]? = some k →
    (k < s.sp.wr → exec (.run c) s = .next { s with
      eng := s.eng.set c.toNat { s.engine c with
        todo := .op (.block c) :: .op (.next c) :: .op (.run c) :: (s.engine c).todo } c.isLt
      rsp := .nothing }) ∧
    (s.sp.wr ≤ k → s.sp.closed = true → k = s.sp.closeIndex → exec (.run c) s = .next { s with
      eng := s.eng.set c.toNat { s.engine c with ended := true } c.isLt, rsp := .terminator }) ∧
    (s.sp.wr ≤ k → (s.sp.closed = false ∨ k ≠ s.sp.closeIndex) → exec (.run c) s = .next { s with
      eng := s.eng.set c.toNat { s.engine c with todo := .op (.run c) :: (s.engine c).todo } c.isLt })

/-! ## The producer -/

/-- R108, R301, R308, R110, R281, R336, R337 (log 6, log 9, log 10, log 25): `PUMP` by a producer that
holds no block. While it has not stopped and the stream is open, a read of 0 words closes the stream and
stops it; else the words read, at most `READ_MAX`, become samples, I from bits 7:0 and Q from bits 15:8,
and are held for the push. On a stream that another agent has closed nothing is read (log 25): where the
source offers no words the close is without effect, where it offers some the push is rejected with
`PUSH_REJECT`, and both stop it. Once it has stopped it does nothing and answers so (log 10). A producer
that still holds a block pushes it first (log 10). -/
def Obligations.PumpReads : Prop :=
  ∀ s : State, s.sp.constructed = true →
    let ws := s.srcIn.take s.cfg.readMax
    (s.prod = ⟨none, false⟩ → s.sp.closed = false →
      (ws ≠ [] → exec .pump s = .next { s with
        prod := ⟨some (ws.map fun w => ⟨ofInt s.cfg.fpS (w.extractLsb' 0 8).toInt,
          ofInt s.cfg.fpS (w.extractLsb' 8 8).toInt⟩), false⟩
        rsp := .nothing }) ∧
      (ws = [] → exec .pump s = .next { s with
        sp := { s.sp with closed := true, closeIndex := s.sp.wr }
        prod := ⟨none, true⟩, status := s.status ++ [0x0004#16], rsp := .stopped })) ∧
    (s.prod = ⟨none, false⟩ → s.sp.closed = true →
      (s.srcIn = [] → exec .pump s = .next { s with prod := ⟨none, true⟩, rsp := .stopped }) ∧
      (s.srcIn ≠ [] → exec .pump s = .next { s with
        prod := ⟨none, true⟩, status := s.status ++ [0x0005#16], rsp := .stopped })) ∧
    (s.prod = ⟨none, true⟩ → exec .pump s = .next { s with rsp := .stopped }) ∧
    (∀ t, s.prod.held ≠ none → producerTurn s = .next t → exec .pump s = exec .pump t)

/-- R308, R336, R397, R283 (log 6, log 27): the producer's turn pushes the block it holds: on an open
Splitter with room it is appended and the producer runs on; on a closed one it is rejected and the
producer stops; on a full one it is lost and the producer goes on. -/
def Obligations.ProducerPushes : Prop :=
  ∀ (s : State) (rest : List Turn) (blk : Block), s.turns = .producer :: rest →
    s.prod.held = some blk → blk ≠ [] → (∀ m, s.cfg.blockMax = some m → blk.length ≤ m) →
    (s.sp.closed = true → step s = .next { s with
      turns := rest, prod := ⟨none, true⟩, status := s.status ++ [0x0005#16], rsp := .stopped }) ∧
    (s.sp.closed = false → s.cfg.windowCap ≠ some s.sp.window.length → step s = .next { s with
      turns := rest, prod := { s.prod with held := none }
      sp := { s.sp with
        window := s.sp.window ++ [blk], wr := s.sp.wr + 1
        lagWarn := s.sp.lagWarn || decide (s.cfg.lagWarn < s.sp.window.length + 1) }
      status := s.status ++ (if s.cfg.lagWarn < s.sp.window.length + 1 then [0x0003#16] else [])
      rsp := .running }) ∧
    (s.sp.closed = false → s.cfg.windowCap = some s.sp.window.length → step s = .next { s with
      turns := rest, prod := { s.prod with held := none }
      status := s.status ++ [0x000A#16], rsp := .refused .windowOverflow })

/-- R310: the conversion of an IQ word is exact in any format with at least 8 bits of significand (and
exponents up to 7): no scaling, no offset. -/
def Obligations.IqConversionExact : Prop :=
  ∀ (f : Format) (w : Word16), 8 ≤ f.prec → 7 ≤ f.emax →
    (iqSample f w).re.toRat? = some ((w.extractLsb' 0 8).toInt : Rat) ∧
    (iqSample f w).im.toRat? = some ((w.extractLsb' 8 8).toInt : Rat) ∧
    (iqSample f w).re.inFormat f = true ∧ (iqSample f w).im.inFormat f = true

/-! ## Rules about the whole machine -/

/-- R20, R278, R314: an operation touches no channel, engine, cursor or sink but those of its own unit,
and a channel operation does not touch the Splitter. -/
def Obligations.OtherChannelsUntouched : Prop :=
  ∀ (i : Instr) (s t : State), i ≠ .spinit → exec i s = .next t →
    (i.usesChannel = true → t.sp = s.sp) ∧
    ∀ d : UnitNo, i.unit? ≠ some d →
      t.chan d = s.chan d ∧ t.engine d = s.engine d ∧
      t.sp.cursor[d.toNat]? = s.sp.cursor[d.toNat]? ∧
      t.sink.filter (fun f => f.channelId = d) = s.sink.filter (fun f => f.channelId = d)

/-- R314, R315: what an operation of channel `c` does to the channel, what it sends and what it raises
depend on that channel, on the Splitter and on its own inputs only: two states that agree on these
agree afterwards, whatever the other channels hold. -/
def Obligations.ChannelSeesNoOther : Prop :=
  ∀ (i : Instr) (c : UnitNo) (s₁ s₂ t₁ t₂ : State), i.unit? = some c →
    s₁.cfg = s₂.cfg → s₁.sp = s₂.sp → s₁.chan c = s₂.chan c → s₁.engine c = s₂.engine c →
    s₁.sinkTakes c = s₂.sinkTakes c → s₁.blkIn = s₂.blkIn → s₁.free = s₂.free →
    exec i s₁ = .next t₁ → exec i s₂ = .next t₂ →
    t₁.sp = t₂.sp ∧ t₁.chan c = t₂.chan c ∧ t₁.engine c = t₂.engine c ∧
    ∃ frames words, t₁.sink = s₁.sink ++ frames ∧ t₂.sink = s₂.sink ++ frames ∧
      t₁.status = s₁.status ++ words ∧ t₂.status = s₂.status ++ words

/-- R118, R330, R331, R338, R342: a refused operation changes no state: one event word goes out, with
the code of the table and a unit, and the issuer is told. -/
def Obligations.RefusalLeavesState : Prop :=
  (∀ (e : Event) (u : UnitNo), (eventWord e u).extractLsb' 0 8 = e.code ∧
    (eventWord e u).extractLsb' 8 8 = u) ∧
  [Event.cfgAdjust, .crcFail, .lag, .eos, .pushReject, .badUnit, .emptyPush, .nextBeyondWrite,
    .badConfig, .windowOverflow, .badOp, .emptyQueue, .noBlock, .blockTooLong,
    .notConstructed].map Event.code = (List.range 15).map (fun n => BitVec.ofNat 8 (n + 1)) ∧
  ∀ (i : Instr) (s t : State) (e : Event), exec i s = .next t → t.rsp = .refused e →
    s.rsp ≠ .refused e →
    ∃ u, t = { s with status := s.status ++ [eventWord e u], rsp := .refused e }

/-- R12, R17, R200 (log 12): on finite data of a legal format, addition, subtraction, multiplication
and division by a number other than 0 give the exact result rounded once, to nearest, ties to even;
the comparison is that of the numbers; 0.8 and 0.2 are the nearest values. -/
def Obligations.ArithmeticRoundsOnce : Prop :=
  ∀ f : Format, f.legal = true →
    (∀ (x y : Datum) (p q : Rat), x.toRat? = some p → y.toRat? = some q →
      Rounded f (p + q) (fpAdd f x y) ∧ Rounded f (p - q) (fpSub f x y) ∧
      Rounded f (p * q) (fpMul f x y) ∧ (q ≠ 0 → Rounded f (p / q) (fpDiv f x y)) ∧
      Rounded f p (x.convert f) ∧ (x.lt y = true ↔ p < q)) ∧
    (∀ n : Nat, Rounded f n (ofNat f n)) ∧ (∀ n : Int, Rounded f n (ofInt f n)) ∧
    Rounded f (4 / 5) (keepWeight f) ∧ Rounded f (1 / 5) (pullWeight f)

/-! ## Block decode, byte by byte -/

/-- R231, R233, R237 to R241, R246: what the block decode writes for every content of `msg`. The pass of
pair `b` gives each next state the cheaper of its two predecessors, the lower-numbered one at a tie, and
shifts that predecessor's bit 0 into its path. Byte `k` is committed after the pass of pair `32 + 8k`, or
the last one: it is the eight bits `8k .. 8k+7` of the path of the least-cost state, the lowest-numbered
among equals, exclusive-or the whitening byte `k`. The CRC register has taken bytes 0 to 31. -/
def Obligations.CommittedBytes : Prop :=
  ∀ (cfg : Params) (msg : Vector Byte 576) (v : Viterbi),
    (∀ (b : Nat) (ns : Fin 8), b < 288 →
      let old := decodeUpTo cfg msg v b
      let new := decodeUpTo cfg msg v (b + 1)
      let place := deinterleave cfg (BitVec.ofNat 16 (2 * b))
      let pair : Byte × Byte := (msg.getD place 0, msg.getD (place + 1) 0)
      let p0 : Fin 8 := ⟨ns.val / 2, by omega⟩
      let p1 : Fin 8 := ⟨ns.val / 2 + 4, by omega⟩
      let m0 := old.cost[p0] + branchCost cfg pair p0.val (ns.val % 2)
      let m1 := old.cost[p1] + branchCost cfg pair p1.val (ns.val % 2)
      (m1 < m0 → new.cost[ns] = m1 ∧
        new.path[ns] = (old.path[p1] <<< 1) ||| BitVec.ofNat 32 (p1.val % 2)) ∧
      (¬ m1 < m0 → new.cost[ns] = m0 ∧
        new.path[ns] = (old.path[p0] <<< 1) ||| BitVec.ofNat 32 (p0.val % 2))) ∧
    (∀ k, k < 34 →
      let b := if k < 32 then 32 + 8 * k else 287
      let d := decodeUpTo cfg msg v (b + 1)
      ∃ ms : Fin 8, (∀ ns : Fin 8, d.cost[ms] ≤ d.cost[ns]) ∧
        (∀ ns : Fin 8, ns < ms → d.cost[ms] < d.cost[ns]) ∧
        (decodeUpTo cfg msg v 288).out[k]? = some
          ((d.path[ms] >>> (b - (8 * k + 8))).setWidth 8 ^^^ cfg.whiten.getD k 0)) ∧
    (decodeUpTo cfg msg v 288).crc
      = ((decodeUpTo cfg msg v 288).out.toList.take 32).foldl (fun a b => crcByte b a) 0xFFFF#16
end

