-- ==== Sys2Proof/Laws/Channel.lean ====
section
/-!
SUPPORT. The frame of each stage on a channel: every field the stage does not write is unchanged.
-/

namespace Sys2Proof.Machine

section
variable (cfg : Params) (k : Channel)

@[simp] theorem shiftChannel_constructed : (shiftChannel cfg k).constructed = k.constructed := rfl
@[simp] theorem shiftChannel_tLen : (shiftChannel cfg k).tLen = k.tLen := rfl
@[simp] theorem shiftChannel_rep : (shiftChannel cfg k).rep = k.rep := rfl
@[simp] theorem shiftChannel_sgn : (shiftChannel cfg k).sgn = k.sgn := rfl
@[simp] theorem shiftChannel_osc : (shiftChannel cfg k).osc = k.osc := rfl
@[simp] theorem shiftChannel_cfgWarn : (shiftChannel cfg k).cfgWarn = k.cfgWarn := rfl
@[simp] theorem shiftChannel_frac : (shiftChannel cfg k).frac = k.frac := rfl
@[simp] theorem shiftChannel_hlen : (shiftChannel cfg k).hlen = k.hlen := rfl
@[simp] theorem shiftChannel_zi : (shiftChannel cfg k).zi = k.zi := rfl
@[simp] theorem shiftChannel_hist : (shiftChannel cfg k).hist = k.hist := rfl
@[simp] theorem shiftChannel_staging : (shiftChannel cfg k).staging = k.staging := rfl
@[simp] theorem shiftChannel_prevBit : (shiftChannel cfg k).prevBit = k.prevBit := rfl
@[simp] theorem shiftChannel_nTotal : (shiftChannel cfg k).nTotal = k.nTotal := rfl
@[simp] theorem shiftChannel_tq : (shiftChannel cfg k).tq = k.tq := rfl
@[simp] theorem shiftChannel_bq : (shiftChannel cfg k).bq = k.bq := rfl
@[simp] theorem shiftChannel_alignment : (shiftChannel cfg k).alignment = k.alignment := rfl
@[simp] theorem shiftChannel_mode : (shiftChannel cfg k).mode = k.mode := rfl
@[simp] theorem shiftChannel_syncReg : (shiftChannel cfg k).syncReg = k.syncReg := rfl
@[simp] theorem shiftChannel_msg : (shiftChannel cfg k).msg = k.msg := rfl
@[simp] theorem shiftChannel_outCursor : (shiftChannel cfg k).outCursor = k.outCursor := rfl
@[simp] theorem shiftChannel_wk : (shiftChannel cfg k).wk = k.wk := rfl

end

section
variable (cfg : Params) (k : Channel)

@[simp] theorem filterChannel_constructed : (filterChannel cfg k).constructed = k.constructed := rfl
@[simp] theorem filterChannel_tLen : (filterChannel cfg k).tLen = k.tLen := rfl
@[simp] theorem filterChannel_rep : (filterChannel cfg k).rep = k.rep := rfl
@[simp] theorem filterChannel_sgn : (filterChannel cfg k).sgn = k.sgn := rfl
@[simp] theorem filterChannel_osc : (filterChannel cfg k).osc = k.osc := rfl
@[simp] theorem filterChannel_cfgWarn : (filterChannel cfg k).cfgWarn = k.cfgWarn := rfl
@[simp] theorem filterChannel_frac : (filterChannel cfg k).frac = k.frac := rfl
@[simp] theorem filterChannel_hlen : (filterChannel cfg k).hlen = k.hlen := rfl
@[simp] theorem filterChannel_hist : (filterChannel cfg k).hist = k.hist := rfl
@[simp] theorem filterChannel_staging : (filterChannel cfg k).staging = k.staging := rfl
@[simp] theorem filterChannel_prevBit : (filterChannel cfg k).prevBit = k.prevBit := rfl
@[simp] theorem filterChannel_nTotal : (filterChannel cfg k).nTotal = k.nTotal := rfl
@[simp] theorem filterChannel_tq : (filterChannel cfg k).tq = k.tq := rfl
@[simp] theorem filterChannel_bq : (filterChannel cfg k).bq = k.bq := rfl
@[simp] theorem filterChannel_alignment : (filterChannel cfg k).alignment = k.alignment := rfl
@[simp] theorem filterChannel_mode : (filterChannel cfg k).mode = k.mode := rfl
@[simp] theorem filterChannel_syncReg : (filterChannel cfg k).syncReg = k.syncReg := rfl
@[simp] theorem filterChannel_msg : (filterChannel cfg k).msg = k.msg := rfl
@[simp] theorem filterChannel_outCursor : (filterChannel cfg k).outCursor = k.outCursor := rfl
@[simp] theorem filterChannel_wk : (filterChannel cfg k).wk = k.wk := rfl

end

section
variable (cfg : Params) (k : Channel)

@[simp] theorem discChannel_constructed : (discChannel cfg k).constructed = k.constructed := rfl
@[simp] theorem discChannel_tLen : (discChannel cfg k).tLen = k.tLen := rfl
@[simp] theorem discChannel_rep : (discChannel cfg k).rep = k.rep := rfl
@[simp] theorem discChannel_sgn : (discChannel cfg k).sgn = k.sgn := rfl
@[simp] theorem discChannel_osc : (discChannel cfg k).osc = k.osc := rfl
@[simp] theorem discChannel_cfgWarn : (discChannel cfg k).cfgWarn = k.cfgWarn := rfl
@[simp] theorem discChannel_frac : (discChannel cfg k).frac = k.frac := rfl
@[simp] theorem discChannel_hlen : (discChannel cfg k).hlen = k.hlen := rfl
@[simp] theorem discChannel_zi : (discChannel cfg k).zi = k.zi := rfl
@[simp] theorem discChannel_prevBit : (discChannel cfg k).prevBit = k.prevBit := rfl
@[simp] theorem discChannel_nTotal : (discChannel cfg k).nTotal = k.nTotal := rfl
@[simp] theorem discChannel_tq : (discChannel cfg k).tq = k.tq := rfl
@[simp] theorem discChannel_bq : (discChannel cfg k).bq = k.bq := rfl
@[simp] theorem discChannel_alignment : (discChannel cfg k).alignment = k.alignment := rfl
@[simp] theorem discChannel_mode : (discChannel cfg k).mode = k.mode := rfl
@[simp] theorem discChannel_syncReg : (discChannel cfg k).syncReg = k.syncReg := rfl
@[simp] theorem discChannel_msg : (discChannel cfg k).msg = k.msg := rfl
@[simp] theorem discChannel_outCursor : (discChannel cfg k).outCursor = k.outCursor := rfl
@[simp] theorem discChannel_wk : (discChannel cfg k).wk = k.wk := rfl

end

section
variable (k : Channel)

@[simp] theorem extrChannel_constructed : (extrChannel k).constructed = k.constructed := rfl
@[simp] theorem extrChannel_tLen : (extrChannel k).tLen = k.tLen := rfl
@[simp] theorem extrChannel_rep : (extrChannel k).rep = k.rep := rfl
@[simp] theorem extrChannel_sgn : (extrChannel k).sgn = k.sgn := rfl
@[simp] theorem extrChannel_osc : (extrChannel k).osc = k.osc := rfl
@[simp] theorem extrChannel_cfgWarn : (extrChannel k).cfgWarn = k.cfgWarn := rfl
@[simp] theorem extrChannel_frac : (extrChannel k).frac = k.frac := rfl
@[simp] theorem extrChannel_hlen : (extrChannel k).hlen = k.hlen := rfl
@[simp] theorem extrChannel_zi : (extrChannel k).zi = k.zi := rfl
@[simp] theorem extrChannel_hist : (extrChannel k).hist = k.hist := rfl
@[simp] theorem extrChannel_staging : (extrChannel k).staging = k.staging := rfl
@[simp] theorem extrChannel_nTotal : (extrChannel k).nTotal = k.nTotal := rfl
@[simp] theorem extrChannel_x : (extrChannel k).x = k.x := rfl
@[simp] theorem extrChannel_bq : (extrChannel k).bq = k.bq := rfl
@[simp] theorem extrChannel_alignment : (extrChannel k).alignment = k.alignment := rfl
@[simp] theorem extrChannel_mode : (extrChannel k).mode = k.mode := rfl
@[simp] theorem extrChannel_syncReg : (extrChannel k).syncReg = k.syncReg := rfl
@[simp] theorem extrChannel_msg : (extrChannel k).msg = k.msg := rfl
@[simp] theorem extrChannel_outCursor : (extrChannel k).outCursor = k.outCursor := rfl
@[simp] theorem extrChannel_wk : (extrChannel k).wk = k.wk := rfl

end

section
variable (cfg : Params) (c : UnitNo) (k : Channel)

@[simp] theorem fecdecChannel_constructed : ((fecdecChannel cfg c k).1).constructed = k.constructed := by simp only [fecdecChannel]
@[simp] theorem fecdecChannel_tLen : ((fecdecChannel cfg c k).1).tLen = k.tLen := by simp only [fecdecChannel]
@[simp] theorem fecdecChannel_rep : ((fecdecChannel cfg c k).1).rep = k.rep := by simp only [fecdecChannel]
@[simp] theorem fecdecChannel_sgn : ((fecdecChannel cfg c k).1).sgn = k.sgn := by simp only [fecdecChannel]
@[simp] theorem fecdecChannel_osc : ((fecdecChannel cfg c k).1).osc = k.osc := by simp only [fecdecChannel]
@[simp] theorem fecdecChannel_cfgWarn : ((fecdecChannel cfg c k).1).cfgWarn = k.cfgWarn := by simp only [fecdecChannel]
@[simp] theorem fecdecChannel_frac : ((fecdecChannel cfg c k).1).frac = k.frac := by simp only [fecdecChannel]
@[simp] theorem fecdecChannel_hlen : ((fecdecChannel cfg c k).1).hlen = k.hlen := by simp only [fecdecChannel]
@[simp] theorem fecdecChannel_zi : ((fecdecChannel cfg c k).1).zi = k.zi := by simp only [fecdecChannel]
@[simp] theorem fecdecChannel_hist : ((fecdecChannel cfg c k).1).hist = k.hist := by simp only [fecdecChannel]
@[simp] theorem fecdecChannel_staging : ((fecdecChannel cfg c k).1).staging = k.staging := by simp only [fecdecChannel]
@[simp] theorem fecdecChannel_prevBit : ((fecdecChannel cfg c k).1).prevBit = k.prevBit := by simp only [fecdecChannel]
@[simp] theorem fecdecChannel_nTotal : ((fecdecChannel cfg c k).1).nTotal = k.nTotal := by simp only [fecdecChannel]
@[simp] theorem fecdecChannel_x : ((fecdecChannel cfg c k).1).x = k.x := by simp only [fecdecChannel]
@[simp] theorem fecdecChannel_tq : ((fecdecChannel cfg c k).1).tq = k.tq := by simp only [fecdecChannel]
@[simp] theorem fecdecChannel_bq : ((fecdecChannel cfg c k).1).bq = k.bq := by simp only [fecdecChannel]
@[simp] theorem fecdecChannel_alignment : ((fecdecChannel cfg c k).1).alignment = k.alignment := by simp only [fecdecChannel]
@[simp] theorem fecdecChannel_mode : ((fecdecChannel cfg c k).1).mode = k.mode := by simp only [fecdecChannel]
@[simp] theorem fecdecChannel_syncReg : ((fecdecChannel cfg c k).1).syncReg = k.syncReg := by simp only [fecdecChannel]
@[simp] theorem fecdecChannel_msg : ((fecdecChannel cfg c k).1).msg = k.msg := by simp only [fecdecChannel]
@[simp] theorem fecdecChannel_outCursor : ((fecdecChannel cfg c k).1).outCursor = k.outCursor := by simp only [fecdecChannel]

end

section
variable (cfg : Params) (k : Channel)

@[simp] theorem shiftChannel_x : (shiftChannel cfg k).x = shiftSamples cfg.fpS k k.nTotal k.x := rfl

@[simp] theorem filterChannel_x :
    (filterChannel cfg k).x = (filterSamples cfg.fpS cfg.sos k.zi k.x).1 := rfl

@[simp] theorem filterChannel_zi :
    (filterChannel cfg k).zi = (filterSamples cfg.fpS cfg.sos k.zi k.x).2 := rfl

@[simp] theorem discChannel_x :
    (discChannel cfg k).x = discriminate cfg.fpS (k.frac.convert cfg.fpS) k.hist k.x k.hlen := rfl

@[simp] theorem discChannel_hist : (discChannel cfg k).hist = newHistory k.hist k.x k.hlen := rfl

@[simp] theorem discChannel_staging : (discChannel cfg k).staging = k.hist := rfl

@[simp] theorem extrChannel_tq :
    (extrChannel k).tq = k.tq ++ (transitionsOf k.nTotal k.prevBit k.x).1 := rfl

@[simp] theorem extrChannel_prevBit :
    (extrChannel k).prevBit = (transitionsOf k.nTotal k.prevBit k.x).2 := rfl

@[simp] theorem fecdecChannel_wk (c : UnitNo) :
    (fecdecChannel cfg c k).1.wk = (decodeBlock cfg c k.msg k.wk).1 := by simp only [fecdecChannel]

@[simp] theorem fecdecChannel_frame (c : UnitNo) :
    (fecdecChannel cfg c k).2 = (decodeBlock cfg c k.msg k.wk).2 := by simp only [fecdecChannel]

end

end Sys2Proof.Machine
end

