-- ==== Sys2Proof/Laws/State.lean ====
section
/-!
SUPPORT. What each update of the state does to each field, and what reading a channel, an engine or a
sink's readiness gives after it.
-/

namespace Sys2Proof.Machine

section
variable (s : State) (c : UnitNo) (k : Channel)

@[simp] theorem State.setChan_cfg : (s.setChan c k).cfg = s.cfg := rfl
@[simp] theorem State.setChan_turns : (s.setChan c k).turns = s.turns := rfl
@[simp] theorem State.setChan_blkIn : (s.setChan c k).blkIn = s.blkIn := rfl
@[simp] theorem State.setChan_srcIn : (s.setChan c k).srcIn = s.srcIn := rfl
@[simp] theorem State.setChan_sinkReady : (s.setChan c k).sinkReady = s.sinkReady := rfl
@[simp] theorem State.setChan_sp : (s.setChan c k).sp = s.sp := rfl
@[simp] theorem State.setChan_ch : (s.setChan c k).ch = s.ch.set c.toNat k c.isLt := rfl
@[simp] theorem State.setChan_eng : (s.setChan c k).eng = s.eng := rfl
@[simp] theorem State.setChan_prod : (s.setChan c k).prod = s.prod := rfl
@[simp] theorem State.setChan_rsp : (s.setChan c k).rsp = s.rsp := rfl
@[simp] theorem State.setChan_sink : (s.setChan c k).sink = s.sink := rfl
@[simp] theorem State.setChan_status : (s.setChan c k).status = s.status := rfl
@[simp] theorem State.setChan_free : (s.setChan c k).free = s.free := rfl
@[simp] theorem State.setChan_engine (d : UnitNo) : (s.setChan c k).engine d = s.engine d := rfl
@[simp] theorem State.setChan_sinkTakes (d : UnitNo) : (s.setChan c k).sinkTakes d = s.sinkTakes d := rfl

end

section
variable (s : State) (c : UnitNo) (e : Engine)

@[simp] theorem State.setEngine_cfg : (s.setEngine c e).cfg = s.cfg := rfl
@[simp] theorem State.setEngine_turns : (s.setEngine c e).turns = s.turns := rfl
@[simp] theorem State.setEngine_blkIn : (s.setEngine c e).blkIn = s.blkIn := rfl
@[simp] theorem State.setEngine_srcIn : (s.setEngine c e).srcIn = s.srcIn := rfl
@[simp] theorem State.setEngine_sinkReady : (s.setEngine c e).sinkReady = s.sinkReady := rfl
@[simp] theorem State.setEngine_sp : (s.setEngine c e).sp = s.sp := rfl
@[simp] theorem State.setEngine_ch : (s.setEngine c e).ch = s.ch := rfl
@[simp] theorem State.setEngine_eng : (s.setEngine c e).eng = s.eng.set c.toNat e c.isLt := rfl
@[simp] theorem State.setEngine_prod : (s.setEngine c e).prod = s.prod := rfl
@[simp] theorem State.setEngine_rsp : (s.setEngine c e).rsp = s.rsp := rfl
@[simp] theorem State.setEngine_sink : (s.setEngine c e).sink = s.sink := rfl
@[simp] theorem State.setEngine_status : (s.setEngine c e).status = s.status := rfl
@[simp] theorem State.setEngine_free : (s.setEngine c e).free = s.free := rfl
@[simp] theorem State.setEngine_chan (d : UnitNo) : (s.setEngine c e).chan d = s.chan d := rfl
@[simp] theorem State.setEngine_sinkTakes (d : UnitNo) : (s.setEngine c e).sinkTakes d = s.sinkTakes d := rfl

end

section
variable (s : State) (sp : Splitter)

@[simp] theorem State.setSplitter_cfg : (s.setSplitter sp).cfg = s.cfg := rfl
@[simp] theorem State.setSplitter_turns : (s.setSplitter sp).turns = s.turns := rfl
@[simp] theorem State.setSplitter_blkIn : (s.setSplitter sp).blkIn = s.blkIn := rfl
@[simp] theorem State.setSplitter_srcIn : (s.setSplitter sp).srcIn = s.srcIn := rfl
@[simp] theorem State.setSplitter_sinkReady : (s.setSplitter sp).sinkReady = s.sinkReady := rfl
@[simp] theorem State.setSplitter_sp : (s.setSplitter sp).sp = sp := rfl
@[simp] theorem State.setSplitter_ch : (s.setSplitter sp).ch = s.ch := rfl
@[simp] theorem State.setSplitter_eng : (s.setSplitter sp).eng = s.eng := rfl
@[simp] theorem State.setSplitter_prod : (s.setSplitter sp).prod = s.prod := rfl
@[simp] theorem State.setSplitter_rsp : (s.setSplitter sp).rsp = s.rsp := rfl
@[simp] theorem State.setSplitter_sink : (s.setSplitter sp).sink = s.sink := rfl
@[simp] theorem State.setSplitter_status : (s.setSplitter sp).status = s.status := rfl
@[simp] theorem State.setSplitter_free : (s.setSplitter sp).free = s.free := rfl
@[simp] theorem State.setSplitter_chan (d : UnitNo) : (s.setSplitter sp).chan d = s.chan d := rfl
@[simp] theorem State.setSplitter_engine (d : UnitNo) : (s.setSplitter sp).engine d = s.engine d := rfl
@[simp] theorem State.setSplitter_sinkTakes (d : UnitNo) : (s.setSplitter sp).sinkTakes d = s.sinkTakes d := rfl

end

section
variable (s : State) (p : Producer)

@[simp] theorem State.setProducer_cfg : (s.setProducer p).cfg = s.cfg := rfl
@[simp] theorem State.setProducer_turns : (s.setProducer p).turns = s.turns := rfl
@[simp] theorem State.setProducer_blkIn : (s.setProducer p).blkIn = s.blkIn := rfl
@[simp] theorem State.setProducer_srcIn : (s.setProducer p).srcIn = s.srcIn := rfl
@[simp] theorem State.setProducer_sinkReady : (s.setProducer p).sinkReady = s.sinkReady := rfl
@[simp] theorem State.setProducer_sp : (s.setProducer p).sp = s.sp := rfl
@[simp] theorem State.setProducer_ch : (s.setProducer p).ch = s.ch := rfl
@[simp] theorem State.setProducer_eng : (s.setProducer p).eng = s.eng := rfl
@[simp] theorem State.setProducer_prod : (s.setProducer p).prod = p := rfl
@[simp] theorem State.setProducer_rsp : (s.setProducer p).rsp = s.rsp := rfl
@[simp] theorem State.setProducer_sink : (s.setProducer p).sink = s.sink := rfl
@[simp] theorem State.setProducer_status : (s.setProducer p).status = s.status := rfl
@[simp] theorem State.setProducer_free : (s.setProducer p).free = s.free := rfl
@[simp] theorem State.setProducer_chan (d : UnitNo) : (s.setProducer p).chan d = s.chan d := rfl
@[simp] theorem State.setProducer_engine (d : UnitNo) : (s.setProducer p).engine d = s.engine d := rfl
@[simp] theorem State.setProducer_sinkTakes (d : UnitNo) : (s.setProducer p).sinkTakes d = s.sinkTakes d := rfl

end

section
variable (s : State) (t : List Turn)

@[simp] theorem State.setTurns_cfg : (s.setTurns t).cfg = s.cfg := rfl
@[simp] theorem State.setTurns_turns : (s.setTurns t).turns = t := rfl
@[simp] theorem State.setTurns_blkIn : (s.setTurns t).blkIn = s.blkIn := rfl
@[simp] theorem State.setTurns_srcIn : (s.setTurns t).srcIn = s.srcIn := rfl
@[simp] theorem State.setTurns_sinkReady : (s.setTurns t).sinkReady = s.sinkReady := rfl
@[simp] theorem State.setTurns_sp : (s.setTurns t).sp = s.sp := rfl
@[simp] theorem State.setTurns_ch : (s.setTurns t).ch = s.ch := rfl
@[simp] theorem State.setTurns_eng : (s.setTurns t).eng = s.eng := rfl
@[simp] theorem State.setTurns_prod : (s.setTurns t).prod = s.prod := rfl
@[simp] theorem State.setTurns_rsp : (s.setTurns t).rsp = s.rsp := rfl
@[simp] theorem State.setTurns_sink : (s.setTurns t).sink = s.sink := rfl
@[simp] theorem State.setTurns_status : (s.setTurns t).status = s.status := rfl
@[simp] theorem State.setTurns_free : (s.setTurns t).free = s.free := rfl
@[simp] theorem State.setTurns_chan (d : UnitNo) : (s.setTurns t).chan d = s.chan d := rfl
@[simp] theorem State.setTurns_engine (d : UnitNo) : (s.setTurns t).engine d = s.engine d := rfl
@[simp] theorem State.setTurns_sinkTakes (d : UnitNo) : (s.setTurns t).sinkTakes d = s.sinkTakes d := rfl

end

section
variable (s : State) (n : Nat)

@[simp] theorem State.setFree_cfg : (s.setFree n).cfg = s.cfg := rfl
@[simp] theorem State.setFree_turns : (s.setFree n).turns = s.turns := rfl
@[simp] theorem State.setFree_blkIn : (s.setFree n).blkIn = s.blkIn := rfl
@[simp] theorem State.setFree_srcIn : (s.setFree n).srcIn = s.srcIn := rfl
@[simp] theorem State.setFree_sinkReady : (s.setFree n).sinkReady = s.sinkReady := rfl
@[simp] theorem State.setFree_sp : (s.setFree n).sp = s.sp := rfl
@[simp] theorem State.setFree_ch : (s.setFree n).ch = s.ch := rfl
@[simp] theorem State.setFree_eng : (s.setFree n).eng = s.eng := rfl
@[simp] theorem State.setFree_prod : (s.setFree n).prod = s.prod := rfl
@[simp] theorem State.setFree_rsp : (s.setFree n).rsp = s.rsp := rfl
@[simp] theorem State.setFree_sink : (s.setFree n).sink = s.sink := rfl
@[simp] theorem State.setFree_status : (s.setFree n).status = s.status := rfl
@[simp] theorem State.setFree_free : (s.setFree n).free = n := rfl
@[simp] theorem State.setFree_chan (d : UnitNo) : (s.setFree n).chan d = s.chan d := rfl
@[simp] theorem State.setFree_engine (d : UnitNo) : (s.setFree n).engine d = s.engine d := rfl
@[simp] theorem State.setFree_sinkTakes (d : UnitNo) : (s.setFree n).sinkTakes d = s.sinkTakes d := rfl

end

section
variable (s : State) (r : Response)

@[simp] theorem State.answer_cfg : (s.answer r).cfg = s.cfg := rfl
@[simp] theorem State.answer_turns : (s.answer r).turns = s.turns := rfl
@[simp] theorem State.answer_blkIn : (s.answer r).blkIn = s.blkIn := rfl
@[simp] theorem State.answer_srcIn : (s.answer r).srcIn = s.srcIn := rfl
@[simp] theorem State.answer_sinkReady : (s.answer r).sinkReady = s.sinkReady := rfl
@[simp] theorem State.answer_sp : (s.answer r).sp = s.sp := rfl
@[simp] theorem State.answer_ch : (s.answer r).ch = s.ch := rfl
@[simp] theorem State.answer_eng : (s.answer r).eng = s.eng := rfl
@[simp] theorem State.answer_prod : (s.answer r).prod = s.prod := rfl
@[simp] theorem State.answer_rsp : (s.answer r).rsp = r := rfl
@[simp] theorem State.answer_sink : (s.answer r).sink = s.sink := rfl
@[simp] theorem State.answer_status : (s.answer r).status = s.status := rfl
@[simp] theorem State.answer_free : (s.answer r).free = s.free := rfl
@[simp] theorem State.answer_chan (d : UnitNo) : (s.answer r).chan d = s.chan d := rfl
@[simp] theorem State.answer_engine (d : UnitNo) : (s.answer r).engine d = s.engine d := rfl
@[simp] theorem State.answer_sinkTakes (d : UnitNo) : (s.answer r).sinkTakes d = s.sinkTakes d := rfl

end

section
variable (s : State) (blk : Block) (rd : List Word16)

@[simp] theorem State.present_cfg : (s.present blk rd).cfg = s.cfg := rfl
@[simp] theorem State.present_turns : (s.present blk rd).turns = s.turns := rfl
@[simp] theorem State.present_blkIn : (s.present blk rd).blkIn = blk := rfl
@[simp] theorem State.present_srcIn : (s.present blk rd).srcIn = rd := rfl
@[simp] theorem State.present_sinkReady : (s.present blk rd).sinkReady = s.sinkReady := rfl
@[simp] theorem State.present_sp : (s.present blk rd).sp = s.sp := rfl
@[simp] theorem State.present_ch : (s.present blk rd).ch = s.ch := rfl
@[simp] theorem State.present_eng : (s.present blk rd).eng = s.eng := rfl
@[simp] theorem State.present_prod : (s.present blk rd).prod = s.prod := rfl
@[simp] theorem State.present_rsp : (s.present blk rd).rsp = s.rsp := rfl
@[simp] theorem State.present_sink : (s.present blk rd).sink = s.sink := rfl
@[simp] theorem State.present_status : (s.present blk rd).status = s.status := rfl
@[simp] theorem State.present_free : (s.present blk rd).free = s.free := rfl
@[simp] theorem State.present_chan (d : UnitNo) : (s.present blk rd).chan d = s.chan d := rfl
@[simp] theorem State.present_engine (d : UnitNo) : (s.present blk rd).engine d = s.engine d := rfl
@[simp] theorem State.present_sinkTakes (d : UnitNo) : (s.present blk rd).sinkTakes d = s.sinkTakes d := rfl

end

section
variable (s : State) (c : UnitNo) (b : Bool)

@[simp] theorem State.setSinkReady_cfg : (s.setSinkReady c b).cfg = s.cfg := rfl
@[simp] theorem State.setSinkReady_turns : (s.setSinkReady c b).turns = s.turns := rfl
@[simp] theorem State.setSinkReady_blkIn : (s.setSinkReady c b).blkIn = s.blkIn := rfl
@[simp] theorem State.setSinkReady_srcIn : (s.setSinkReady c b).srcIn = s.srcIn := rfl
@[simp] theorem State.setSinkReady_sinkReady : (s.setSinkReady c b).sinkReady = s.sinkReady.set c.toNat b c.isLt := rfl
@[simp] theorem State.setSinkReady_sp : (s.setSinkReady c b).sp = s.sp := rfl
@[simp] theorem State.setSinkReady_ch : (s.setSinkReady c b).ch = s.ch := rfl
@[simp] theorem State.setSinkReady_eng : (s.setSinkReady c b).eng = s.eng := rfl
@[simp] theorem State.setSinkReady_prod : (s.setSinkReady c b).prod = s.prod := rfl
@[simp] theorem State.setSinkReady_rsp : (s.setSinkReady c b).rsp = s.rsp := rfl
@[simp] theorem State.setSinkReady_sink : (s.setSinkReady c b).sink = s.sink := rfl
@[simp] theorem State.setSinkReady_status : (s.setSinkReady c b).status = s.status := rfl
@[simp] theorem State.setSinkReady_free : (s.setSinkReady c b).free = s.free := rfl
@[simp] theorem State.setSinkReady_chan (d : UnitNo) : (s.setSinkReady c b).chan d = s.chan d := rfl
@[simp] theorem State.setSinkReady_engine (d : UnitNo) : (s.setSinkReady c b).engine d = s.engine d := rfl

end

section
variable (s : State) (e : Event) (u : UnitNo)

@[simp] theorem State.raise_cfg : (s.raise e u).cfg = s.cfg := rfl
@[simp] theorem State.raise_turns : (s.raise e u).turns = s.turns := rfl
@[simp] theorem State.raise_blkIn : (s.raise e u).blkIn = s.blkIn := rfl
@[simp] theorem State.raise_srcIn : (s.raise e u).srcIn = s.srcIn := rfl
@[simp] theorem State.raise_sinkReady : (s.raise e u).sinkReady = s.sinkReady := rfl
@[simp] theorem State.raise_sp : (s.raise e u).sp = s.sp := rfl
@[simp] theorem State.raise_ch : (s.raise e u).ch = s.ch := rfl
@[simp] theorem State.raise_eng : (s.raise e u).eng = s.eng := rfl
@[simp] theorem State.raise_prod : (s.raise e u).prod = s.prod := rfl
@[simp] theorem State.raise_rsp : (s.raise e u).rsp = s.rsp := rfl
@[simp] theorem State.raise_sink : (s.raise e u).sink = s.sink := rfl
@[simp] theorem State.raise_status : (s.raise e u).status = s.status ++ [eventWord e u] := rfl
@[simp] theorem State.raise_free : (s.raise e u).free = s.free := rfl
@[simp] theorem State.raise_chan (d : UnitNo) : (s.raise e u).chan d = s.chan d := rfl
@[simp] theorem State.raise_engine (d : UnitNo) : (s.raise e u).engine d = s.engine d := rfl
@[simp] theorem State.raise_sinkTakes (d : UnitNo) : (s.raise e u).sinkTakes d = s.sinkTakes d := rfl

end

section
variable (s : State) (e : Event) (u : UnitNo)

@[simp] theorem State.refuse_cfg : (s.refuse e u).cfg = s.cfg := rfl
@[simp] theorem State.refuse_turns : (s.refuse e u).turns = s.turns := rfl
@[simp] theorem State.refuse_blkIn : (s.refuse e u).blkIn = s.blkIn := rfl
@[simp] theorem State.refuse_srcIn : (s.refuse e u).srcIn = s.srcIn := rfl
@[simp] theorem State.refuse_sinkReady : (s.refuse e u).sinkReady = s.sinkReady := rfl
@[simp] theorem State.refuse_sp : (s.refuse e u).sp = s.sp := rfl
@[simp] theorem State.refuse_ch : (s.refuse e u).ch = s.ch := rfl
@[simp] theorem State.refuse_eng : (s.refuse e u).eng = s.eng := rfl
@[simp] theorem State.refuse_prod : (s.refuse e u).prod = s.prod := rfl
@[simp] theorem State.refuse_rsp : (s.refuse e u).rsp = .refused e := rfl
@[simp] theorem State.refuse_sink : (s.refuse e u).sink = s.sink := rfl
@[simp] theorem State.refuse_status : (s.refuse e u).status = s.status ++ [eventWord e u] := rfl
@[simp] theorem State.refuse_free : (s.refuse e u).free = s.free := rfl
@[simp] theorem State.refuse_chan (d : UnitNo) : (s.refuse e u).chan d = s.chan d := rfl
@[simp] theorem State.refuse_engine (d : UnitNo) : (s.refuse e u).engine d = s.engine d := rfl
@[simp] theorem State.refuse_sinkTakes (d : UnitNo) : (s.refuse e u).sinkTakes d = s.sinkTakes d := rfl

end

section
variable (s : State) (c : UnitNo) (i : Instr)

@[simp] theorem State.wait_cfg : (s.wait c i).cfg = s.cfg := rfl
@[simp] theorem State.wait_turns : (s.wait c i).turns = s.turns := rfl
@[simp] theorem State.wait_blkIn : (s.wait c i).blkIn = s.blkIn := rfl
@[simp] theorem State.wait_srcIn : (s.wait c i).srcIn = s.srcIn := rfl
@[simp] theorem State.wait_sinkReady : (s.wait c i).sinkReady = s.sinkReady := rfl
@[simp] theorem State.wait_sp : (s.wait c i).sp = s.sp := rfl
@[simp] theorem State.wait_ch : (s.wait c i).ch = s.ch := rfl
@[simp] theorem State.wait_prod : (s.wait c i).prod = s.prod := rfl
@[simp] theorem State.wait_rsp : (s.wait c i).rsp = s.rsp := rfl
@[simp] theorem State.wait_sink : (s.wait c i).sink = s.sink := rfl
@[simp] theorem State.wait_status : (s.wait c i).status = s.status := rfl
@[simp] theorem State.wait_free : (s.wait c i).free = s.free := rfl
@[simp] theorem State.wait_chan (d : UnitNo) : (s.wait c i).chan d = s.chan d := rfl
@[simp] theorem State.wait_sinkTakes (d : UnitNo) : (s.wait c i).sinkTakes d = s.sinkTakes d := rfl

end

section
variable (s : State) (c : UnitNo)

@[simp] theorem State.endEngine_cfg : (s.endEngine c).cfg = s.cfg := rfl
@[simp] theorem State.endEngine_turns : (s.endEngine c).turns = s.turns := rfl
@[simp] theorem State.endEngine_blkIn : (s.endEngine c).blkIn = s.blkIn := rfl
@[simp] theorem State.endEngine_srcIn : (s.endEngine c).srcIn = s.srcIn := rfl
@[simp] theorem State.endEngine_sinkReady : (s.endEngine c).sinkReady = s.sinkReady := rfl
@[simp] theorem State.endEngine_sp : (s.endEngine c).sp = s.sp := rfl
@[simp] theorem State.endEngine_ch : (s.endEngine c).ch = s.ch := rfl
@[simp] theorem State.endEngine_prod : (s.endEngine c).prod = s.prod := rfl
@[simp] theorem State.endEngine_rsp : (s.endEngine c).rsp = s.rsp := rfl
@[simp] theorem State.endEngine_sink : (s.endEngine c).sink = s.sink := rfl
@[simp] theorem State.endEngine_status : (s.endEngine c).status = s.status := rfl
@[simp] theorem State.endEngine_free : (s.endEngine c).free = s.free := rfl
@[simp] theorem State.endEngine_chan (d : UnitNo) : (s.endEngine c).chan d = s.chan d := rfl
@[simp] theorem State.endEngine_sinkTakes (d : UnitNo) : (s.endEngine c).sinkTakes d = s.sinkTakes d := rfl

end

section
variable (s : State) (c : UnitNo) (fs : List Frame)

@[simp] theorem State.send_cfg : (s.send c fs).cfg = s.cfg := rfl
@[simp] theorem State.send_turns : (s.send c fs).turns = s.turns := rfl
@[simp] theorem State.send_blkIn : (s.send c fs).blkIn = s.blkIn := rfl
@[simp] theorem State.send_srcIn : (s.send c fs).srcIn = s.srcIn := rfl
@[simp] theorem State.send_sinkReady : (s.send c fs).sinkReady = s.sinkReady := rfl
@[simp] theorem State.send_sp : (s.send c fs).sp = s.sp := rfl
@[simp] theorem State.send_ch : (s.send c fs).ch = s.ch := rfl
@[simp] theorem State.send_eng : (s.send c fs).eng = s.eng := rfl
@[simp] theorem State.send_prod : (s.send c fs).prod = s.prod := rfl
@[simp] theorem State.send_rsp : (s.send c fs).rsp = s.rsp := rfl
@[simp] theorem State.send_sink : (s.send c fs).sink = s.sink ++ fs := rfl
@[simp] theorem State.send_status : (s.send c fs).status = s.status ++ frameEvents c fs := rfl
@[simp] theorem State.send_free : (s.send c fs).free = s.free := rfl
@[simp] theorem State.send_chan (d : UnitNo) : (s.send c fs).chan d = s.chan d := rfl
@[simp] theorem State.send_engine (d : UnitNo) : (s.send c fs).engine d = s.engine d := rfl
@[simp] theorem State.send_sinkTakes (d : UnitNo) : (s.send c fs).sinkTakes d = s.sinkTakes d := rfl

end

section
variable (s : State) (c : UnitNo) (ts : List Piece)

@[simp] theorem State.begin_cfg : (s.begin c ts).cfg = s.cfg := rfl
@[simp] theorem State.begin_turns : (s.begin c ts).turns = s.turns := rfl
@[simp] theorem State.begin_blkIn : (s.begin c ts).blkIn = s.blkIn := rfl
@[simp] theorem State.begin_srcIn : (s.begin c ts).srcIn = s.srcIn := rfl
@[simp] theorem State.begin_sinkReady : (s.begin c ts).sinkReady = s.sinkReady := rfl
@[simp] theorem State.begin_sp : (s.begin c ts).sp = s.sp := rfl
@[simp] theorem State.begin_ch : (s.begin c ts).ch = s.ch := rfl
@[simp] theorem State.begin_prod : (s.begin c ts).prod = s.prod := rfl
@[simp] theorem State.begin_rsp : (s.begin c ts).rsp = s.rsp := rfl
@[simp] theorem State.begin_sink : (s.begin c ts).sink = s.sink := rfl
@[simp] theorem State.begin_status : (s.begin c ts).status = s.status := rfl
@[simp] theorem State.begin_free : (s.begin c ts).free = s.free := rfl
@[simp] theorem State.begin_chan (d : UnitNo) : (s.begin c ts).chan d = s.chan d := rfl
@[simp] theorem State.begin_sinkTakes (d : UnitNo) : (s.begin c ts).sinkTakes d = s.sinkTakes d := rfl

end

section
variable (s : State) (c : UnitNo) (i : Instr)

@[simp] theorem State.enqueue_cfg : (s.enqueue c i).cfg = s.cfg := rfl
@[simp] theorem State.enqueue_turns : (s.enqueue c i).turns = s.turns := rfl
@[simp] theorem State.enqueue_blkIn : (s.enqueue c i).blkIn = s.blkIn := rfl
@[simp] theorem State.enqueue_srcIn : (s.enqueue c i).srcIn = s.srcIn := rfl
@[simp] theorem State.enqueue_sinkReady : (s.enqueue c i).sinkReady = s.sinkReady := rfl
@[simp] theorem State.enqueue_sp : (s.enqueue c i).sp = s.sp := rfl
@[simp] theorem State.enqueue_ch : (s.enqueue c i).ch = s.ch := rfl
@[simp] theorem State.enqueue_prod : (s.enqueue c i).prod = s.prod := rfl
@[simp] theorem State.enqueue_rsp : (s.enqueue c i).rsp = s.rsp := rfl
@[simp] theorem State.enqueue_sink : (s.enqueue c i).sink = s.sink := rfl
@[simp] theorem State.enqueue_status : (s.enqueue c i).status = s.status := rfl
@[simp] theorem State.enqueue_free : (s.enqueue c i).free = s.free := rfl
@[simp] theorem State.enqueue_chan (d : UnitNo) : (s.enqueue c i).chan d = s.chan d := rfl
@[simp] theorem State.enqueue_sinkTakes (d : UnitNo) : (s.enqueue c i).sinkTakes d = s.sinkTakes d := rfl

end

section
variable (s : State) (c d : UnitNo)

/-- Two different units are different positions. -/
theorem unit_toNat_ne (h : d ≠ c) : c.toNat ≠ d.toNat := fun e => h (BitVec.eq_of_toNat_eq e.symm)

@[simp] theorem State.setChan_chan_self (k : Channel) : (s.setChan c k).chan c = k := by
  simp [State.setChan, State.chan]

@[simp] theorem State.setChan_chan_ne (k : Channel) (h : d ≠ c) : (s.setChan c k).chan d = s.chan d := by
  simp [State.setChan, State.chan, unit_toNat_ne c d h]

@[simp] theorem State.setEngine_engine_self (e : Engine) : (s.setEngine c e).engine c = e := by
  simp [State.setEngine, State.engine]

@[simp] theorem State.setEngine_engine_ne (e : Engine) (h : d ≠ c) :
    (s.setEngine c e).engine d = s.engine d := by
  simp [State.setEngine, State.engine, unit_toNat_ne c d h]

@[simp] theorem State.setSinkReady_sinkTakes_self (b : Bool) : (s.setSinkReady c b).sinkTakes c = b := by
  simp [State.setSinkReady, State.sinkTakes]

@[simp] theorem State.setSinkReady_sinkTakes_ne (b : Bool) (h : d ≠ c) :
    (s.setSinkReady c b).sinkTakes d = s.sinkTakes d := by
  simp [State.setSinkReady, State.sinkTakes, unit_toNat_ne c d h]

@[simp] theorem State.begin_engine_self (ts : List Piece) :
    (s.begin c ts).engine c = ⟨ts ++ (s.engine c).todo, (s.engine c).ended⟩ := by simp [State.begin]

@[simp] theorem State.begin_engine_ne (ts : List Piece) (h : d ≠ c) :
    (s.begin c ts).engine d = s.engine d := by simp [State.begin, h]

@[simp] theorem State.wait_engine_self (i : Instr) :
    (s.wait c i).engine c = ⟨.op i :: (s.engine c).todo, (s.engine c).ended⟩ := by simp [State.wait]

@[simp] theorem State.wait_engine_ne (i : Instr) (h : d ≠ c) : (s.wait c i).engine d = s.engine d := by
  simp [State.wait, h]

@[simp] theorem State.enqueue_engine_self (i : Instr) :
    (s.enqueue c i).engine c = ⟨(s.engine c).todo ++ [.op i], (s.engine c).ended⟩ := by
  simp [State.enqueue]

@[simp] theorem State.enqueue_engine_ne (i : Instr) (h : d ≠ c) :
    (s.enqueue c i).engine d = s.engine d := by simp [State.enqueue, h]

@[simp] theorem State.endEngine_engine_self :
    (s.endEngine c).engine c = ⟨(s.engine c).todo, true⟩ := by simp [State.endEngine]

@[simp] theorem State.endEngine_engine_ne (h : d ≠ c) : (s.endEngine c).engine d = s.engine d := by
  simp [State.endEngine, h]

end

@[simp] theorem State.reset_chan (c : UnitNo) : State.reset.chan c = Channel.powerOn := by
  simp [State.reset, State.chan]

@[simp] theorem State.reset_engine (c : UnitNo) : State.reset.engine c = ⟨[], false⟩ := by
  simp [State.reset, State.engine]

@[simp] theorem State.reset_sinkTakes (c : UnitNo) : State.reset.sinkTakes c = true := by
  simp [State.reset, State.sinkTakes]

end Sys2Proof.Machine
end

