-- ==== Sys2Proof/Laws/Ops.lean ====
section
/-!
SUPPORT. For each shared operation, once, everything it can do: the checks before an operation, the
end of an operation with frames, the Splitter's operations, the agents' turns.
-/

namespace Sys2Proof.Machine

section
variable {s : State} {c : UnitNo}

/-! ## The checks -/

theorem State.consumerRefusal_served (h : s.served c) : s.consumerRefusal c = none := by
  simp [State.consumerRefusal, h.1, h.2]

theorem State.channelRefusal_ready (h : s.ready c) : s.channelRefusal c = none := by
  simp [State.channelRefusal, State.consumerRefusal_served h.1, h.2]

theorem State.splitterRefusal_constructed (h : s.sp.constructed = true) :
    s.splitterRefusal = none := by simp [State.splitterRefusal, h]

/-- The refusal of a consumer operation is one of two, or the consumer is served. -/
theorem State.consumerRefusal_cases (s : State) (c : UnitNo) :
    (s.sp.constructed = false ∧ s.consumerRefusal c = some .notConstructed) ∨
    (s.sp.constructed = true ∧ s.cfg.n ≤ c.toNat ∧ s.consumerRefusal c = some .badUnit) ∨
    (s.served c ∧ s.consumerRefusal c = none) := by
  by_cases h : s.sp.constructed = true
  · by_cases h' : c.toNat < s.cfg.n
    · exact .inr (.inr ⟨⟨h, h'⟩, State.consumerRefusal_served ⟨h, h'⟩⟩)
    · exact .inr (.inl ⟨h, by omega, by simp [State.consumerRefusal, h, h']⟩)
  · exact .inl ⟨by simpa using h, by simp [State.consumerRefusal, h]⟩

/-- The refusal of a channel operation is one of three, or the channel is ready. -/
theorem State.channelRefusal_cases (s : State) (c : UnitNo) :
    (∃ e, s.channelRefusal c = some e) ∨ (s.ready c ∧ s.channelRefusal c = none) := by
  rcases State.consumerRefusal_cases s c with ⟨-, h⟩ | ⟨-, -, h⟩ | ⟨h, -⟩
  · exact .inl ⟨_, by simp [State.channelRefusal, h]; rfl⟩
  · exact .inl ⟨_, by simp [State.channelRefusal, h]; rfl⟩
  · by_cases k : (s.chan c).constructed = true
    · exact .inr ⟨⟨h, k⟩, State.channelRefusal_ready ⟨h, k⟩⟩
    · exact .inl ⟨.notConstructed, by
        simp [State.channelRefusal, State.consumerRefusal_served h, k]⟩

@[simp] theorem State.guarded_some (s : State) (e : Event) (u : UnitNo) (act : State) :
    s.guarded (some e) u act = .next (s.refuse e u) := rfl

@[simp] theorem State.guarded_none (s : State) (u : UnitNo) (act : State) :
    s.guarded none u act = .next act := rfl

/-- A guarded operation refuses or acts; it always has a next state. -/
theorem State.guarded_cases (s : State) (r : Option Event) (u : UnitNo) (act : State) :
    (∃ e, r = some e ∧ s.guarded r u act = .next (s.refuse e u)) ∨
    (r = none ∧ s.guarded r u act = .next act) := by
  cases r with
  | none => exact .inr ⟨rfl, rfl⟩
  | some e => exact .inl ⟨e, rfl, rfl⟩

theorem State.onChannel_ready (h : s.ready c) (f : Channel → Channel) :
    s.onChannel c f = .next ((s.setChan c (f (s.chan c))).answer .nothing) := by
  simp [State.onChannel, State.channelRefusal_ready h]

/-! ## The end of an operation with frames -/

theorem State.finish_cases (s : State) (c : UnitNo) (i : Instr) (k : Channel) (fs : List Frame) :
    ((fs = [] ∨ s.sinkTakes c = true) ∧
      s.finish c i k fs = ((s.setChan c k).send c fs).answer .nothing) ∨
    (fs ≠ [] ∧ s.sinkTakes c = false ∧ s.finish c i k fs = s.wait c i) := by
  cases fs with
  | nil => exact .inl ⟨.inl rfl, by simp [State.finish]⟩
  | cons f fs =>
    cases h : s.sinkTakes c
    · exact .inr ⟨by simp, rfl, by simp [State.finish, h]⟩
    · exact .inl ⟨.inr rfl, by simp [State.finish, h]⟩

@[simp] theorem frameEvents_nil (c : UnitNo) : frameEvents c [] = [] := rfl

theorem frameEvents_append (c : UnitNo) (fs gs : List Frame) :
    frameEvents c (fs ++ gs) = frameEvents c fs ++ frameEvents c gs := by simp [frameEvents]

theorem frameEvents_single (c : UnitNo) (f : Frame) :
    frameEvents c [f] = if f.crcMatch then [] else [eventWord .crcFail c] := by
  cases h : f.crcMatch <;> simp [frameEvents, h]

/-! ## What each operation is on a unit in operation -/

theorem exec_shift_ready (h : s.ready c) :
    exec (.shift c) s = .next ((s.setChan c (shiftChannel s.cfg (s.chan c))).answer .nothing) :=
  State.onChannel_ready h _

theorem exec_lpf_ready (h : s.ready c) :
    exec (.lpf c) s = .next ((s.setChan c (filterChannel s.cfg (s.chan c))).answer .nothing) :=
  State.onChannel_ready h _

theorem exec_disc_ready (h : s.ready c) :
    exec (.disc c) s = .next ((s.setChan c (discChannel s.cfg (s.chan c))).answer .nothing) :=
  State.onChannel_ready h _

theorem exec_extr_ready (h : s.ready c) :
    exec (.extr c) s = .next ((s.setChan c (extrChannel (s.chan c))).answer .nothing) :=
  State.onChannel_ready h _

theorem exec_bsync_ready (h : s.ready c) {t : Transition} {rest : List Transition}
    (hq : (s.chan c).tq = t :: rest) :
    exec (.bsync c) s =
      match bsyncChannel s.cfg (s.chan c) with
      | none => .next (s.wait c (.bsync c))
      | some k => .next ((s.setChan c k).answer .nothing) := by
  simp only [exec, execBsync, State.channelRefusal_ready h, hq, List.isEmpty_cons]
  rfl

theorem exec_fecbit_ready (h : s.ready c) {v : Bool} {rest : List Bool}
    (hq : (s.chan c).bq = v :: rest) :
    exec (.fecbit c) s = .next (s.finish c (.fecbit c) (fecbitChannel s.cfg c (s.chan c)).1
      (fecbitChannel s.cfg c (s.chan c)).2) := by
  simp only [exec, execFecbit, State.channelRefusal_ready h, hq, List.isEmpty_cons]
  rfl

theorem exec_fecdec_ready (h : s.ready c) :
    exec (.fecdec c) s = .next (s.finish c (.fecdec c) (fecdecChannel s.cfg c (s.chan c)).1
      [(fecdecChannel s.cfg c (s.chan c)).2]) := by
  simp only [exec, execFecdec, State.channelRefusal_ready h, State.guarded_none]

theorem exec_block_ready (h : s.ready c) (ha : s.sp.avail c = true) :
    exec (.block c) s = .next (((s.setChan c { s.chan c with x := s.sp.blockAt c }).begin c
      (blockPieces c (s.sp.blockAt c).length)).answer .nothing) := by
  simp only [exec, execBlock, State.channelRefusal_ready h, ha, if_true]

/-! ## The agents -/

/-- Everything an engine's turn can be. -/
theorem engineTurn_cases (c : UnitNo) (s : State) :
    ((s.engine c).todo = [] ∧ engineTurn c s = .next s) ∨
    ∃ k rest, (s.engine c).todo = k :: rest ∧
      engineTurn c s = runPiece c k (s.setEngine c { s.engine c with todo := rest }) := by
  cases h : (s.engine c).todo with
  | nil => exact .inl ⟨rfl, by simp only [engineTurn, h]⟩
  | cons k rest => exact .inr ⟨k, rest, rfl, by simp only [engineTurn, h]⟩

/-- A piece taken off an engine's list and put back: the list as it was. -/
theorem State.begin_popped {k : Piece} {rest : List Piece} (h : (s.engine c).todo = k :: rest) :
    (s.setEngine c { s.engine c with todo := rest }).begin c [k] = s := by
  have e : s.eng.set c.toNat ⟨k :: rest, (s.engine c).ended⟩ c.isLt = s.eng := by
    rw [← h]
    ext i hi
    simp only [Vector.getElem_set]
    split
    · subst i; rfl
    · rfl
  simp only [State.begin, State.setEngine_engine_self, List.cons_append, List.nil_append]
  simp only [State.setEngine, Vector.set_set, e]

/-- A loop over `tq` with a record to take is one `BSYNC`, the loop still to do. -/
theorem engineTurn_drainTq {rest : List Piece} (h : (s.engine c).todo = .drainTq :: rest)
    (hq : (s.chan c).tq ≠ []) : engineTurn c s = exec (.bsync c) s := by
  simp only [engineTurn, h, runPiece, State.begin_popped h]
  exact if_neg (by simpa using hq)

/-- A loop over `bq` with a bit to take is one `FECBIT`, the loop still to do. -/
theorem engineTurn_drainBq {rest : List Piece} (h : (s.engine c).todo = .drainBq :: rest)
    (hq : (s.chan c).bq ≠ []) : engineTurn c s = exec (.fecbit c) s := by
  simp only [engineTurn, h, runPiece, State.begin_popped h]
  exact if_neg (by simpa using hq)

/-- Everything the offer of an operation can be. -/
theorem offer_cases (i : Instr) (s : State) :
    (∃ c, i.engine? = some c ∧ (s.engine c).todo = [] ∧ offer i s = exec i s) ∨
    (∃ c, i.engine? = some c ∧ (s.engine c).todo ≠ [] ∧ offer i s = .next (s.enqueue c i)) ∨
    (i = .push ∧ offer i s = exec .push s.pushHeld) ∨
    (i.engine? = none ∧ i ≠ .push ∧ offer i s = exec i s) := by
  cases hi : i.engine? with
  | none =>
    by_cases hp : i = .push
    · subst hp; exact .inr (.inr (.inl ⟨rfl, by simp [offer, Instr.engine?]⟩))
    · exact .inr (.inr (.inr ⟨rfl, hp, by simp [offer, hi, hp]⟩))
  | some c =>
    by_cases ht : (s.engine c).todo = []
    · exact .inl ⟨c, rfl, ht, by simp [offer, hi, ht]⟩
    · exact .inr (.inl ⟨c, rfl, ht, by simp [offer, hi, ht]⟩)

/-- An engine's operation is one of its own unit. -/
theorem Instr.unit_of_engine {i : Instr} (h : i.engine? = some c) : i.unit? = some c := by
  cases i <;> first | exact h | exact absurd h (by simp [Instr.engine?])

/-! ## The Splitter -/

theorem Splitter.cursorOf_eq {sp : Splitter} {k : Nat} (h : sp.cursor[c.toNat]? = some k) :
    sp.cursorOf c = k := by simp [Splitter.cursorOf, List.getD, h]

theorem Splitter.avail_eq {sp : Splitter} {k : Nat} (h : sp.cursor[c.toNat]? = some k) :
    sp.avail c = decide (k < sp.wr) := by simp [Splitter.avail, Splitter.cursorOf_eq h]

theorem Splitter.done_eq {sp : Splitter} {k : Nat} (h : sp.cursor[c.toNat]? = some k) :
    sp.done c = (sp.closed && decide (k = sp.closeIndex)) := by
  simp [Splitter.done, Splitter.cursorOf_eq h]

theorem Splitter.blockAt_eq {sp : Splitter} {k : Nat} {b : Block}
    (h : sp.cursor[c.toNat]? = some k) (hb : sp.window[k - sp.base]? = some b) :
    sp.blockAt c = b := by simp [Splitter.blockAt, List.getD, Splitter.cursorOf_eq h, hb]

end

/-- A block is not too long exactly when no `BLOCK_MAX` is exceeded. -/
theorem fitsBlockMax_iff (cfg : Params) (n : Nat) :
    fitsBlockMax cfg n = true ↔ ∀ m, cfg.blockMax = some m → n ≤ m := by
  unfold fitsBlockMax
  cases cfg.blockMax <;> simp

/-- The window is full exactly when it holds `WINDOW_CAP` blocks. -/
theorem windowFull_iff (cfg : Params) (w : List Block) :
    windowFull cfg w = true ↔ cfg.windowCap = some w.length := by
  unfold windowFull
  cases cfg.windowCap <;> simp
  exact eq_comm

/-- Eviction up to `m`, when the window reaches that far. -/
theorem evict_eq (m : Nat) (w : List Block) (base : Nat) (h : m ≤ base + w.length) :
    evict m base w = (max base m, w.drop (m - base)) := by
  induction w generalizing base with
  | nil => simp [evict]; simp at h; omega
  | cons b w ih =>
    by_cases hb : base < m
    · have h' : m ≤ base + 1 + w.length := by simp at h; omega
      have e : m - base = m - (base + 1) + 1 := by omega
      simp only [evict, hb, if_true, ih _ h', e, List.drop_succ_cons]
      congr 1
      omega
    · have e : m - base = 0 := by omega
      simp [evict, hb, e]
      omega

/-- The least cursor of a Splitter with consumers is one of the cursors and below the others. -/
theorem Splitter.minCursor_spec {sp : Splitter} (h : sp.cursor ≠ []) :
    sp.minCursor ∈ sp.cursor ∧ ∀ k ∈ sp.cursor, sp.minCursor ≤ k := by
  obtain ⟨m, hm⟩ : ∃ m, sp.cursor.min? = some m := by
    cases hc : sp.cursor with
    | nil => exact absurd hc h
    | cons a l => exact ⟨_, List.min?_cons⟩
  simp only [Splitter.minCursor, hm, Option.getD_some]
  rwa [List.min?_eq_some_iff] at hm

/-- Everything a push on the Splitter can do. -/
theorem State.pushBlock_cases (s : State) (blk : Block) :
    (blk = [] ∧ s.pushBlock blk = s.refuse .emptyPush 0) ∨
    (blk ≠ [] ∧ fitsBlockMax s.cfg blk.length = false ∧ s.pushBlock blk = s.refuse .blockTooLong 0) ∨
    (blk ≠ [] ∧ fitsBlockMax s.cfg blk.length = true ∧ s.sp.closed = true ∧
      s.pushBlock blk = (s.raise .pushReject 0).answer (.pushed false)) ∨
    (blk ≠ [] ∧ fitsBlockMax s.cfg blk.length = true ∧ s.sp.closed = false ∧
      windowFull s.cfg s.sp.window = true ∧ s.pushBlock blk = s.refuse .windowOverflow 0) ∨
    (blk ≠ [] ∧ fitsBlockMax s.cfg blk.length = true ∧ s.sp.closed = false ∧
      windowFull s.cfg s.sp.window = false ∧
      s.pushBlock blk = { s with
        sp := s.sp.append s.cfg blk
        status := s.status ++
          (if lagCondition s.cfg (s.sp.window ++ [blk]) then [eventWord .lag 0] else [])
        rsp := .pushed true }) := by
  by_cases h1 : blk = []
  · exact .inl ⟨h1, by simp [State.pushBlock, h1]⟩
  · have e1 : blk.isEmpty = false := by simpa using h1
    cases h2 : fitsBlockMax s.cfg blk.length
    · exact .inr (.inl ⟨h1, rfl, by simp [State.pushBlock, e1, h2]⟩)
    · cases h3 : s.sp.closed
      · cases h4 : windowFull s.cfg s.sp.window
        · refine .inr (.inr (.inr (.inr ⟨h1, rfl, rfl, rfl, ?_⟩)))
          cases h5 : lagCondition s.cfg (s.sp.window ++ [blk]) <;>
            simp [State.pushBlock, e1, h2, h3, h4, h5, Splitter.append, State.setSplitter,
              State.raise, State.answer]
        · exact .inr (.inr (.inr (.inl ⟨h1, rfl, rfl, rfl, by
            simp [State.pushBlock, e1, h2, h3, h4]⟩)))
      · exact .inr (.inr (.inl ⟨h1, rfl, rfl, by simp [State.pushBlock, e1, h2, h3]⟩))

/-- Everything a close can do. -/
theorem State.closeStream_cases (s : State) :
    (s.sp.closed = true ∧ s.closeStream = s) ∨
    (s.sp.closed = false ∧ s.closeStream = (s.setSplitter s.sp.shut).raise .eos 0) := by
  cases h : s.sp.closed
  · exact .inr ⟨rfl, by simp [State.closeStream, h]⟩
  · exact .inl ⟨rfl, by simp [State.closeStream, h]⟩

end Sys2Proof.Machine
end

