-- ==== Sys2Proof/Laws/Cases.lean ====
section
/-!
SUPPORT. For every operation, once, every next state it can have: refused, or the unit is in operation
and one of the outcomes of its rule. The provers of rules about all operations case on these.
-/

namespace Sys2Proof.Machine

section
variable {s t : State} {c : UnitNo}

theorem spinit_cases (h : exec .spinit s = .next t) :
    (splitterLegal s.cfg = true ∧ t = { s with
      sp := Splitter.fresh s.cfg s.free, eng := Vector.replicate 256 ⟨[], false⟩
      prod := ⟨none, false⟩, rsp := .nothing, free := s.free + 1 }) ∨
    (splitterLegal s.cfg = false ∧ t = s.refuse .badConfig 0) := by
  cases hl : splitterLegal s.cfg <;> simp only [exec, execSpinit, hl] at h
  · exact .inr ⟨rfl, by simpa using h.symm⟩
  · exact .inl ⟨rfl, by simpa using h.symm⟩

theorem chinit_cases (h : exec (.chinit c) s = .next t) :
    (∃ e, t = s.refuse e c) ∨
    (s.served c ∧ channelLegal s.cfg c = true ∧ t = { s with
      ch := s.ch.set c.toNat (freshChannel s.cfg c s.free (s.chan c)) c.isLt
      status := s.status ++ (if (freshChannel s.cfg c s.free (s.chan c)).cfgWarn then
        [eventWord .cfgAdjust c] else [])
      rsp := .nothing, free := s.free + 1 }) := by
  rcases State.consumerRefusal_cases s c with ⟨-, hr⟩ | ⟨-, -, hr⟩ | ⟨hs, hr⟩ <;>
    simp only [exec, execChinit, hr] at h
  · exact .inl ⟨_, by simpa using h.symm⟩
  · exact .inl ⟨_, by simpa using h.symm⟩
  · cases hl : channelLegal s.cfg c <;> simp only [hl] at h
    · exact .inl ⟨.badConfig, by simpa using h.symm⟩
    · refine .inr ⟨hs, rfl, ?_⟩
      cases hw : (freshChannel s.cfg c s.free (s.chan c)).cfgWarn <;>
        simpa [hw, State.answer, State.raise, State.setChan, State.setFree] using h.symm

theorem push_cases (h : exec .push s = .next t) :
    t = s.refuse .notConstructed 0 ∨ (s.sp.constructed = true ∧ t = s.pushBlock s.blkIn) := by
  cases hc : s.sp.constructed <;>
    simp only [exec, execPush, State.splitterRefusal, hc] at h
  · exact .inl (by simpa using h.symm)
  · exact .inr ⟨rfl, by simpa using h.symm⟩

theorem get_cases (h : exec (.get c) s = .next t) :
    (∃ e, t = s.refuse e c) ∨
    (s.served c ∧ s.sp.avail c = true ∧ t = s.answer (.block (s.sp.blockAt c))) ∨
    (s.served c ∧ s.sp.avail c = false ∧ s.sp.done c = true ∧
      t = (s.endEngine c).answer .terminator) ∨
    (s.served c ∧ s.sp.avail c = false ∧ s.sp.done c = false ∧ t = s.wait c (.get c)) := by
  rcases State.consumerRefusal_cases s c with ⟨-, hr⟩ | ⟨-, -, hr⟩ | ⟨hs, hr⟩ <;>
    simp only [exec, execGet, hr] at h
  · exact .inl ⟨_, by simpa using h.symm⟩
  · exact .inl ⟨_, by simpa using h.symm⟩
  · cases ha : s.sp.avail c <;> cases hd : s.sp.done c <;> simp only [ha, hd] at h
    · exact .inr (.inr (.inr ⟨hs, rfl, rfl, by simpa using h.symm⟩))
    · exact .inr (.inr (.inl ⟨hs, rfl, rfl, by simpa using h.symm⟩))
    all_goals exact .inr (.inl ⟨hs, rfl, by simpa using h.symm⟩)

theorem next_cases (h : exec (.next c) s = .next t) :
    (∃ e, t = s.refuse e c) ∨
    (s.served c ∧ s.sp.avail c = true ∧ t = (s.setSplitter (s.sp.advance c)).answer .nothing) := by
  rcases State.consumerRefusal_cases s c with ⟨-, hr⟩ | ⟨-, -, hr⟩ | ⟨hs, hr⟩ <;>
    simp only [exec, execNext, hr] at h
  · exact .inl ⟨_, by simpa using h.symm⟩
  · exact .inl ⟨_, by simpa using h.symm⟩
  · cases ha : s.sp.avail c <;> simp only [ha] at h
    · exact .inl ⟨.nextBeyondWrite, by simpa using h.symm⟩
    · exact .inr ⟨hs, rfl, by simpa using h.symm⟩

theorem close_cases (h : exec .close s = .next t) :
    t = s.refuse .notConstructed 0 ∨
    (s.sp.constructed = true ∧ t = s.closeStream.answer .nothing) := by
  cases hc : s.sp.constructed <;>
    simp only [exec, execClose, State.splitterRefusal, hc] at h
  · exact .inl (by simpa using h.symm)
  · exact .inr ⟨rfl, by simpa using h.symm⟩

/-- A stage operation: refused, or the channel is in operation and becomes `f` of it. -/
theorem onChannel_cases {f : Channel → Channel} (h : s.onChannel c f = .next t) :
    (∃ e, t = s.refuse e c) ∨
    (s.ready c ∧ t = (s.setChan c (f (s.chan c))).answer .nothing) := by
  rcases State.channelRefusal_cases s c with ⟨e, hr⟩ | ⟨hs, hr⟩ <;>
    simp only [State.onChannel, hr, State.guarded_some, State.guarded_none] at h
  · exact .inl ⟨e, by simpa using h.symm⟩
  · exact .inr ⟨hs, by simpa using h.symm⟩

theorem shift_cases (h : exec (.shift c) s = .next t) :
    (∃ e, t = s.refuse e c) ∨
    (s.ready c ∧ t = (s.setChan c (shiftChannel s.cfg (s.chan c))).answer .nothing) :=
  onChannel_cases h

theorem lpf_cases (h : exec (.lpf c) s = .next t) :
    (∃ e, t = s.refuse e c) ∨
    (s.ready c ∧ t = (s.setChan c (filterChannel s.cfg (s.chan c))).answer .nothing) :=
  onChannel_cases h

theorem disc_cases (h : exec (.disc c) s = .next t) :
    (∃ e, t = s.refuse e c) ∨
    (s.ready c ∧ t = (s.setChan c (discChannel s.cfg (s.chan c))).answer .nothing) :=
  onChannel_cases h

theorem extr_cases (h : exec (.extr c) s = .next t) :
    (∃ e, t = s.refuse e c) ∨
    (s.ready c ∧ t = (s.setChan c (extrChannel (s.chan c))).answer .nothing) :=
  onChannel_cases h

theorem bsync_cases (h : exec (.bsync c) s = .next t) :
    (∃ e, t = s.refuse e c) ∨
    (s.ready c ∧ bsyncChannel s.cfg (s.chan c) = none ∧ t = s.wait c (.bsync c)) ∨
    (s.ready c ∧ ∃ k, bsyncChannel s.cfg (s.chan c) = some k ∧
      t = (s.setChan c k).answer .nothing) := by
  rcases State.channelRefusal_cases s c with ⟨e, hr⟩ | ⟨hs, hr⟩ <;>
    simp only [exec, execBsync, hr] at h
  · exact .inl ⟨e, by simpa using h.symm⟩
  · split at h
    · exact .inl ⟨.emptyQueue, by simpa using h.symm⟩
    · split at h
      · exact .inr (.inl ⟨hs, by assumption, by simpa using h.symm⟩)
      · exact .inr (.inr ⟨hs, _, by assumption, by simpa using h.symm⟩)

theorem fecbit_cases (h : exec (.fecbit c) s = .next t) :
    (∃ e, t = s.refuse e c) ∨
    (s.ready c ∧ (s.chan c).bq ≠ [] ∧
      t = s.finish c (.fecbit c) (fecbitChannel s.cfg c (s.chan c)).1
        (fecbitChannel s.cfg c (s.chan c)).2) := by
  rcases State.channelRefusal_cases s c with ⟨e, hr⟩ | ⟨hs, hr⟩ <;>
    simp only [exec, execFecbit, hr] at h
  · exact .inl ⟨e, by simpa using h.symm⟩
  · split at h
    · exact .inl ⟨.emptyQueue, by simpa using h.symm⟩
    · rename_i hq
      exact .inr ⟨hs, by simpa using hq, by simpa using h.symm⟩

theorem fecdec_cases (h : exec (.fecdec c) s = .next t) :
    (∃ e, t = s.refuse e c) ∨
    (s.ready c ∧ t = s.finish c (.fecdec c) (fecdecChannel s.cfg c (s.chan c)).1
      [(fecdecChannel s.cfg c (s.chan c)).2]) := by
  rcases State.channelRefusal_cases s c with ⟨e, hr⟩ | ⟨hs, hr⟩ <;>
    simp only [exec, execFecdec, hr, State.guarded_some, State.guarded_none] at h
  · exact .inl ⟨e, by simpa using h.symm⟩
  · exact .inr ⟨hs, by simpa using h.symm⟩

theorem loadx_cases (h : exec (.loadx c) s = .next t) :
    (∃ e, t = s.refuse e c) ∨
    (s.ready c ∧ fitsBlockMax s.cfg s.blkIn.length = true ∧
      t = (s.setChan c { s.chan c with x := s.blkIn }).answer .nothing) := by
  rcases State.channelRefusal_cases s c with ⟨e, hr⟩ | ⟨hs, hr⟩ <;>
    simp only [exec, execLoadx, hr] at h
  · exact .inl ⟨e, by simpa using h.symm⟩
  · split at h
    · exact .inr ⟨hs, by assumption, by simpa using h.symm⟩
    · exact .inl ⟨.blockTooLong, by simpa using h.symm⟩

theorem block_cases (h : exec (.block c) s = .next t) :
    (∃ e, t = s.refuse e c) ∨
    (s.ready c ∧ s.sp.avail c = true ∧
      t = ((s.setChan c { s.chan c with x := s.sp.blockAt c }).begin c
        (blockPieces c (s.sp.blockAt c).length)).answer .nothing) := by
  rcases State.channelRefusal_cases s c with ⟨e, hr⟩ | ⟨hs, hr⟩ <;>
    simp only [exec, execBlock, hr] at h
  · exact .inl ⟨e, by simpa using h.symm⟩
  · cases ha : s.sp.avail c <;> simp only [ha] at h
    · exact .inl ⟨.noBlock, by simpa using h.symm⟩
    · exact .inr ⟨hs, rfl, by simpa using h.symm⟩

theorem run_cases (h : exec (.run c) s = .next t) :
    (∃ e, t = s.refuse e c) ∨
    (s.ready c ∧ s.sp.avail c = true ∧ t = (s.begin c (passPieces c)).answer .nothing) ∨
    (s.ready c ∧ s.sp.avail c = false ∧ s.sp.done c = true ∧
      t = (s.endEngine c).answer .terminator) ∨
    (s.ready c ∧ s.sp.avail c = false ∧ s.sp.done c = false ∧ t = s.wait c (.run c)) := by
  rcases State.channelRefusal_cases s c with ⟨e, hr⟩ | ⟨hs, hr⟩ <;>
    simp only [exec, execRun, hr] at h
  · exact .inl ⟨e, by simpa using h.symm⟩
  · cases ha : s.sp.avail c <;> cases hd : s.sp.done c <;> simp only [ha, hd] at h
    · exact .inr (.inr (.inr ⟨hs, rfl, rfl, by simpa using h.symm⟩))
    · exact .inr (.inr (.inl ⟨hs, rfl, rfl, by simpa using h.symm⟩))
    all_goals exact .inr (.inl ⟨hs, rfl, by simpa using h.symm⟩)

theorem pump_cases (h : exec .pump s = .next t) :
    t = s.refuse .notConstructed 0 ∨ (s.sp.constructed = true ∧ t = s.pushHeld.pumpRead) := by
  cases hc : s.sp.constructed <;>
    simp only [exec, execPump, State.splitterRefusal, hc] at h
  · exact .inl (by simpa using h.symm)
  · exact .inr ⟨rfl, by simpa using h.symm⟩

/-- The producer's push: it holds nothing; or the push of the block it holds answered `ok`, and it
stops or runs on; or the push was refused. -/
theorem pushHeld_cases (s : State) :
    (s.prod.held = none ∧ s.pushHeld = s) ∨
    ∃ blk, s.prod.held = some blk ∧
      let s' := (s.setProducer { s.prod with held := none }).pushBlock blk
      (s'.rsp = .pushed false ∧ s.pushHeld = (s'.setProducer ⟨none, true⟩).answer .stopped) ∨
      (s'.rsp = .pushed true ∧ s.pushHeld = s'.answer .running) ∨
      (s'.rsp ≠ .pushed false ∧ s'.rsp ≠ .pushed true ∧ s.pushHeld = s') := by
  cases hh : s.prod.held with
  | none => exact .inl ⟨rfl, by simp only [State.pushHeld, hh]⟩
  | some blk =>
    refine .inr ⟨blk, rfl, ?_⟩
    simp only [State.pushHeld, hh]
    by_cases h1 : ((s.setProducer { s.prod with held := none }).pushBlock blk).rsp = .pushed false
    · exact .inl ⟨h1, by rw [if_pos h1]⟩
    · by_cases h2 : ((s.setProducer { s.prod with held := none }).pushBlock blk).rsp = .pushed true
      · exact .inr (.inl ⟨h2, by rw [if_neg h1, if_pos h2]⟩)
      · exact .inr (.inr ⟨h1, h2, by rw [if_neg h1, if_neg h2]⟩)

/-- A `PUMP` begun on a closed stream stops the producer, and has its push rejected where the source
offers words. -/
theorem pumpClosed_eq (s : State) :
    s.pumpClosed = { s with
      prod := { s.prod with stopped := true }
      status := s.status ++ (if s.srcIn = [] then [] else [eventWord .pushReject 0])
      rsp := .stopped } := by
  by_cases h : s.srcIn = [] <;>
    simp [State.pumpClosed, h, State.setProducer, State.raise, State.answer]

/-- The producer's first half: it has stopped already; or the stream is closed; or the read is empty,
which closes the stream; or the words read are held for the push. -/
theorem pumpRead_cases (s : State) :
    (s.prod.stopped = true ∧ s.pumpRead = s.answer .stopped) ∨
    (s.prod.stopped = false ∧ s.sp.closed = true ∧ s.pumpRead = s.pumpClosed) ∨
    (s.prod.stopped = false ∧ s.sp.closed = false ∧ s.readWords = [] ∧
      s.pumpRead = (s.closeStream.setProducer { s.prod with stopped := true }).answer .stopped) ∨
    (s.prod.stopped = false ∧ s.sp.closed = false ∧ s.readWords ≠ [] ∧
      s.pumpRead = (s.setProducer { s.prod with
        held := some (s.readWords.map (iqSample s.cfg.fpS)) }).answer .nothing) := by
  cases hs : s.prod.stopped
  · cases hc : s.sp.closed
    · by_cases hr : s.readWords = []
      · exact .inr (.inr (.inl ⟨rfl, rfl, hr, by simp [State.pumpRead, hs, hc, hr]⟩))
      · exact .inr (.inr (.inr ⟨rfl, rfl, hr, by simp [State.pumpRead, hs, hc, hr]⟩))
    · exact .inr (.inl ⟨rfl, rfl, by simp [State.pumpRead, hs, hc]⟩)
  · exact .inl ⟨rfl, by simp [State.pumpRead, hs]⟩

/-- Everything one piece of an engine's program can do: an operation; a pass of a loop, over when the
queue is empty; the sample count. -/
theorem runPiece_cases {k : Piece} (h : runPiece c k s = .next t) :
    (∃ i, k = .op i ∧ exec i s = .next t) ∨
    (k = .drainTq ∧ (s.chan c).tq = [] ∧ t = s) ∨
    (k = .drainTq ∧ (s.chan c).tq ≠ [] ∧ exec (.bsync c) (s.begin c [.drainTq]) = .next t) ∨
    (k = .drainBq ∧ (s.chan c).bq = [] ∧ t = s) ∨
    (k = .drainBq ∧ (s.chan c).bq ≠ [] ∧ exec (.fecbit c) (s.begin c [.drainBq]) = .next t) ∨
    (∃ len, k = .advance len ∧ t = s.advanceTotal c len) := by
  cases k with
  | op i => exact .inl ⟨i, rfl, h⟩
  | drainTq =>
    simp only [runPiece] at h
    split at h
    · exact .inr (.inl ⟨rfl, by simpa using ‹(s.chan c).tq.isEmpty = true›, by simpa using h.symm⟩)
    · exact .inr (.inr (.inl ⟨rfl, by simpa using ‹¬(s.chan c).tq.isEmpty = true›, h⟩))
  | drainBq =>
    simp only [runPiece] at h
    split at h
    · exact .inr (.inr (.inr (.inl ⟨rfl, by simpa using ‹(s.chan c).bq.isEmpty = true›,
        by simpa using h.symm⟩)))
    · exact .inr (.inr (.inr (.inr (.inl ⟨rfl, by simpa using ‹¬(s.chan c).bq.isEmpty = true›, h⟩))))
  | advance len => exact .inr (.inr (.inr (.inr (.inr ⟨len, rfl, by simpa [runPiece] using h.symm⟩))))

end

end Sys2Proof.Machine
end

