-- ==== Sys2Proof/Laws/Fec.lean ====
section
/-!
SUPPORT. What each operation of the FEC decoder can do: the two steps of FECBIT on a bit, the fields
that the parts of the block decode write.
-/

namespace Sys2Proof.Machine

section
variable (cfg : Params) (c : UnitNo) (v : Bool) (k : Channel)

/-! ## Detection and buffering -/

theorem fecdecChannel_eq :
    fecdecChannel cfg c k
      = ({ k with wk := (decodeBlock cfg c k.msg k.wk).1 }, (decodeBlock cfg c k.msg k.wk).2) := by
  simp only [fecdecChannel]

/-- A bit stored before the last place of the block. -/
theorem bufferStep_early (h : k.outCursor + 1 ≠ 576) :
    bufferStep cfg c v k
      = ({ k with msg := k.msg.setIfInBounds k.outCursor (softByte v), outCursor := k.outCursor + 1 },
          []) := by
  simp only [bufferStep, msgBits, h, if_false]

/-- The bit that completes the block. -/
theorem bufferStep_last (h : k.outCursor + 1 = 576) :
    bufferStep cfg c v k
      = ({ k with
            msg := k.msg.setIfInBounds k.outCursor (softByte v), outCursor := 576, mode := .syncing
            wk := (decodeBlock cfg c (k.msg.setIfInBounds k.outCursor (softByte v)) k.wk).1 },
          [(decodeBlock cfg c (k.msg.setIfInBounds k.outCursor (softByte v)) k.wk).2]) := by
  simp only [bufferStep, msgBits, h, if_true, fecdecChannel_eq]

/-- A step in mode Syncing: the register shifts, and a match starts the buffering. -/
theorem syncStep_cases :
    (((k.syncReg <<< 1) ||| (if v then 1#34 else 0#34)) = syncPattern ∧
      syncStep v k = { k with syncReg := syncPattern, mode := .buffering, outCursor := 0 }) ∨
    (((k.syncReg <<< 1) ||| (if v then 1#34 else 0#34)) ≠ syncPattern ∧
      syncStep v k = { k with syncReg := (k.syncReg <<< 1) ||| (if v then 1#34 else 0#34) }) := by
  by_cases h : ((k.syncReg <<< 1) ||| (if v then 1#34 else 0#34)) = syncPattern
  · exact .inl ⟨h, by simp only [syncStep, h, if_true]⟩
  · exact .inr ⟨h, by simp only [syncStep, h, if_false]⟩

@[simp] theorem takeBit_syncing (h : k.mode = .syncing) :
    takeBit cfg c v k = (syncStep v k, []) := by simp only [takeBit, h]

@[simp] theorem takeBit_buffering (h : k.mode = .buffering) :
    takeBit cfg c v k = bufferStep cfg c v k := by simp only [takeBit, h]

@[simp] theorem drainBits_zero : drainBits cfg c 0 k = (k, []) := rfl

theorem drainBits_succ (n : Nat) :
    drainBits cfg c (n + 1) k
      = ((drainBits cfg c n (fecbitChannel cfg c k).1).1,
          (fecbitChannel cfg c k).2 ++ (drainBits cfg c n (fecbitChannel cfg c k).1).2) := by
  simp only [drainBits]

theorem fecbitChannel_cons {rest : List Bool} (h : k.bq = v :: rest) :
    fecbitChannel cfg c k = takeBit cfg c v { k with bq := rest } := by
  simp only [fecbitChannel, h]

end

/-! ## The block decode, part by part -/

section
variable (cfg : Params) (v : Viterbi) (b : Nat) (pair : Byte × Byte)

@[simp] theorem addCompareSelect_o : (addCompareSelect cfg pair v).o = v.o := by
  simp only [addCompareSelect]

@[simp] theorem addCompareSelect_nout : (addCompareSelect cfg pair v).nout = v.nout := by
  simp only [addCompareSelect]

@[simp] theorem addCompareSelect_crc : (addCompareSelect cfg pair v).crc = v.crc := by
  simp only [addCompareSelect]

@[simp] theorem addCompareSelect_out : (addCompareSelect cfg pair v).out = v.out := by
  simp only [addCompareSelect]

@[simp] theorem commitByte_cost : (commitByte cfg b v).cost = v.cost := by simp only [commitByte]

@[simp] theorem commitByte_path : (commitByte cfg b v).path = v.path := by simp only [commitByte]

@[simp] theorem commitByte_nout : (commitByte cfg b v).nout = v.nout + 1 := by
  simp only [commitByte]

@[simp] theorem commitByte_o : (commitByte cfg b v).o = v.o + 8 := by simp only [commitByte]

@[simp] theorem viterbiInit_o : (viterbiInit v).o = 0 := rfl

@[simp] theorem viterbiInit_nout : (viterbiInit v).nout = 0 := rfl

@[simp] theorem viterbiInit_crc : (viterbiInit v).crc = crcInit := rfl

@[simp] theorem viterbiInit_path : (viterbiInit v).path = Vector.replicate 8 0 := rfl

@[simp] theorem viterbiInit_cost :
    (viterbiInit v).cost = (Vector.replicate 8 largeCost).set 0 0 := rfl

theorem viterbiInit_cost_get (ns : Fin 8) :
    (viterbiInit v).cost[ns] = if ns = 0 then 0#32 else largeCost := by
  rw [viterbiInit_cost]
  revert ns
  decide

theorem addCompareSelect_cost_get (ns : Fin 8) :
    (addCompareSelect cfg pair v).cost[ns] = (survivor cfg v.cost pair ns).1 := by
  simp only [addCompareSelect, Fin.getElem_fin, Vector.getElem_ofFn]

theorem addCompareSelect_path_get (ns : Fin 8) :
    (addCompareSelect cfg pair v).path[ns]
      = survivorPath v.path (survivor cfg v.cost pair ns).2 := by
  simp only [addCompareSelect, Fin.getElem_fin, Vector.getElem_ofFn]

/-- The commits after a pair leave costs and paths alone. -/
theorem commitWhile_cost_path (n : Nat) :
    (commitWhile cfg b n v).cost = v.cost ∧ (commitWhile cfg b n v).path = v.path := by
  induction n generalizing v with
  | zero => exact ⟨rfl, rfl⟩
  | succ n ih =>
    simp only [commitWhile]
    split
    · simpa using ih (commitByte cfg b v)
    · exact ⟨rfl, rfl⟩

/-- With no commit due, or all bytes out, the commits do nothing. -/
theorem commitWhile_none (n : Nat) (h : (decide (v.nout < outLen) && commitDue b v.o) = false) :
    commitWhile cfg b n v = v := by
  cases n <;> simp only [commitWhile, h]; rfl

/-- A commit that is due is made, and the rest follow. -/
theorem commitWhile_due (n : Nat) (h : (decide (v.nout < outLen) && commitDue b v.o) = true) :
    commitWhile cfg b (n + 1) v = commitWhile cfg b n (commitByte cfg b v) := by
  simp only [commitWhile, h]; rfl

theorem decodeUpTo_zero (msg : Vector Byte 576) : decodeUpTo cfg msg v 0 = viterbiInit v := rfl

theorem decodeUpTo_succ (msg : Vector Byte 576) :
    decodeUpTo cfg msg v (b + 1) = decodePair cfg msg (decodeUpTo cfg msg v b) b := by
  simp only [decodeUpTo, List.range_succ, List.foldl_append, List.foldl_cons, List.foldl_nil]

end

end Sys2Proof.Machine
end

