-- ==== Sys2Proof/Laws/PerInstr.lean ====
section
/-!
SUPPORT. A law of every operation, one lemma for each: its word holds its code in the high byte and its
unit in the low byte, and the unit is the channel it names, or 0.
-/

namespace Sys2Proof.Laws.UnitField

/-- The word of `i` holds `op` and `unit` where spec R101 puts them, and `unit` is the channel or 0. -/
def Statement (i : Instr) : Prop :=
  wordOp (encode i) = i.opCode ∧ wordUnit (encode i) = i.unitField ∧ i.unitField = i.unit?.getD 0#8

theorem wordOp_wordOfBytes (hi lo : Byte) : wordOp (wordOfBytes hi lo) = hi := by
  apply BitVec.eq_of_getLsbD_eq
  intro i hi'
  have e : wordOfBytes hi lo = (hi ++ lo : BitVec (8 + 8)) := rfl
  simp only [wordOp, e, BitVec.getLsbD_extractLsb', BitVec.getLsbD_append]
  simp [hi']

theorem wordUnit_wordOfBytes (hi lo : Byte) : wordUnit (wordOfBytes hi lo) = lo := by
  apply BitVec.eq_of_getLsbD_eq
  intro i hi'
  have e : wordOfBytes hi lo = (hi ++ lo : BitVec (8 + 8)) := rfl
  simp only [wordUnit, e, BitVec.getLsbD_extractLsb', BitVec.getLsbD_append]
  simp [hi']

/-- The two fields of any operation's word. -/
theorem fields (i : Instr) : wordOp (encode i) = i.opCode ∧ wordUnit (encode i) = i.unitField :=
  ⟨wordOp_wordOfBytes _ _, wordUnit_wordOfBytes _ _⟩

theorem spinit : Statement .spinit := ⟨(fields _).1, (fields _).2, rfl⟩

theorem chinit (c : UnitNo) : Statement (.chinit c) := ⟨(fields _).1, (fields _).2, rfl⟩

theorem push : Statement .push := ⟨(fields _).1, (fields _).2, rfl⟩

theorem get (c : UnitNo) : Statement (.get c) := ⟨(fields _).1, (fields _).2, rfl⟩

theorem next (c : UnitNo) : Statement (.next c) := ⟨(fields _).1, (fields _).2, rfl⟩

theorem close : Statement .close := ⟨(fields _).1, (fields _).2, rfl⟩

theorem shift (c : UnitNo) : Statement (.shift c) := ⟨(fields _).1, (fields _).2, rfl⟩

theorem lpf (c : UnitNo) : Statement (.lpf c) := ⟨(fields _).1, (fields _).2, rfl⟩

theorem disc (c : UnitNo) : Statement (.disc c) := ⟨(fields _).1, (fields _).2, rfl⟩

theorem extr (c : UnitNo) : Statement (.extr c) := ⟨(fields _).1, (fields _).2, rfl⟩

theorem bsync (c : UnitNo) : Statement (.bsync c) := ⟨(fields _).1, (fields _).2, rfl⟩

theorem fecbit (c : UnitNo) : Statement (.fecbit c) := ⟨(fields _).1, (fields _).2, rfl⟩

theorem fecdec (c : UnitNo) : Statement (.fecdec c) := ⟨(fields _).1, (fields _).2, rfl⟩

theorem loadx (c : UnitNo) : Statement (.loadx c) := ⟨(fields _).1, (fields _).2, rfl⟩

theorem block (c : UnitNo) : Statement (.block c) := ⟨(fields _).1, (fields _).2, rfl⟩

theorem run (c : UnitNo) : Statement (.run c) := ⟨(fields _).1, (fields _).2, rfl⟩

theorem pump : Statement .pump := ⟨(fields _).1, (fields _).2, rfl⟩

end Sys2Proof.Laws.UnitField
end

