-- ==== Sys2Proof/Laws/Stages.lean ====
section
/-!
SUPPORT. What the stages do to lengths and to the fields they do not write: the shifter, the
discriminator's history, one transition, one bit, and the draining of the two queues.
-/

namespace Sys2Proof.Machine

/-! ## Buffers -/

@[simp] theorem shiftSamples_length (f : Format) (k : Channel) (g : Nat) (xs : List Cplx) :
    (shiftSamples f k g xs).length = xs.length := by
  induction xs generalizing g with
  | nil => rfl
  | cons z xs ih => simp [shiftSamples, ih]

@[simp] theorem filterSamples_length (f : Format) (sos : Vector Biquad 3) (zi : Vector Zi 3)
    (xs : List Cplx) : (filterSamples f sos zi xs).1.length = xs.length := by
  induction xs generalizing zi with
  | nil => rfl
  | cons z xs ih => simp [filterSamples, ih]

@[simp] theorem discriminate_length (f : Format) (fs : Datum) (hist xs : List Cplx) (hlen : Nat) :
    (discriminate f fs hist xs hlen).length = xs.length := by simp [discriminate]

/-- With a history of `hlen` entries the new history is what follows the first `x.length` entries of
history and buffer. -/
theorem newHistory_eq (hist xs : List Cplx) (hlen : Nat) (h : hist.length = hlen) :
    newHistory hist xs hlen = (hist ++ xs).drop xs.length := by
  unfold newHistory
  congr 1
  simp
  omega

/-- The history keeps its length. -/
theorem newHistory_length (hist xs : List Cplx) (hlen : Nat) (h : hist.length = hlen) :
    (newHistory hist xs hlen).length = hlen := by
  rw [newHistory_eq _ _ _ h]
  simp
  omega

/-! ## One transition, one bit -/

/-- What one transition writes: `tq`, `alignment`, `bq`; and it may be one that never ends. -/
theorem bsyncChannel_cases (cfg : Params) (k : Channel) :
    (k.tq = [] ∧ bsyncChannel cfg k = some k) ∨
    (∃ t rest, k.tq = t :: rest ∧ clockEvent cfg k.alignment t = none ∧ bsyncChannel cfg k = none) ∨
    ∃ t rest a bits, k.tq = t :: rest ∧ clockEvent cfg k.alignment t = some (a, bits) ∧
      bsyncChannel cfg k = some { k with tq := rest, alignment := a, bq := k.bq ++ bits } := by
  cases hq : k.tq with
  | nil => exact .inl ⟨rfl, by simp only [bsyncChannel, hq]⟩
  | cons t rest =>
    cases hc : clockEvent cfg k.alignment t with
    | none => exact .inr (.inl ⟨t, rest, rfl, hc, by simp only [bsyncChannel, hq, hc, Option.map_none]⟩)
    | some p =>
      exact .inr (.inr ⟨t, rest, p.1, p.2, rfl, hc, by
        simp only [bsyncChannel, hq, hc, Option.map_some]⟩)

/-- What one bit leaves alone: everything but the FEC decoder's own state. -/
theorem takeBit_frame (cfg : Params) (c : UnitNo) (v : Bool) (k : Channel) :
    ∃ mode syncReg msg outCursor wk, (takeBit cfg c v k).1 = { k with
      mode := mode, syncReg := syncReg, msg := msg, outCursor := outCursor, wk := wk } := by
  cases hm : k.mode
  · rw [takeBit_syncing _ _ _ _ hm]
    rcases syncStep_cases v k with ⟨-, h⟩ | ⟨-, h⟩ <;> rw [h] <;> exact ⟨_, _, _, _, _, rfl⟩
  · rw [takeBit_buffering _ _ _ _ hm]
    by_cases h : k.outCursor + 1 = 576
    · rw [bufferStep_last _ _ _ _ h]
      exact ⟨_, _, _, _, _, rfl⟩
    · rw [bufferStep_early _ _ _ _ h]
      exact ⟨_, _, _, _, _, rfl⟩

/-- Draining `bq` leaves everything alone but the queue and the FEC decoder's own state. -/
theorem drainBits_frame (cfg : Params) (c : UnitNo) (n : Nat) (k : Channel) :
    ∃ bq mode syncReg msg outCursor wk, (drainBits cfg c n k).1 = { k with
      bq := bq, mode := mode, syncReg := syncReg, msg := msg, outCursor := outCursor, wk := wk } := by
  induction n generalizing k with
  | zero => exact ⟨_, _, _, _, _, _, rfl⟩
  | succ n ih =>
    rw [drainBits_succ]
    obtain ⟨a, b, d, e, f, g, h⟩ := ih (fecbitChannel cfg c k).1
    rw [h]
    cases hq : k.bq with
    | nil =>
      have : (fecbitChannel cfg c k).1 = k := by simp only [fecbitChannel, hq]
      rw [this]
      exact ⟨_, _, _, _, _, _, rfl⟩
    | cons v rest =>
      rw [fecbitChannel_cons _ _ _ _ hq]
      obtain ⟨b', d', e', f', g', h'⟩ := takeBit_frame cfg c v { k with bq := rest }
      rw [h']
      exact ⟨_, _, _, _, _, _, rfl⟩

/-- Draining `tq` leaves everything alone but the two queues and the accumulator. -/
theorem drainTransitions_frame (cfg : Params) (n : Nat) (k r : Channel)
    (h : drainTransitions cfg n k = some r) :
    ∃ tq alignment bq, r = { k with tq := tq, alignment := alignment, bq := bq } := by
  induction n generalizing k with
  | zero => exact ⟨_, _, _, by simpa [drainTransitions] using h.symm⟩
  | succ n ih =>
    simp only [drainTransitions] at h
    rcases bsyncChannel_cases cfg k with ⟨-, hb⟩ | ⟨_, _, -, -, hb⟩ | ⟨t, rest, a, bits, -, -, hb⟩ <;>
      simp only [hb, Option.bind_some, Option.bind_none] at h
    · exact ih k h
    · exact absurd h (by simp)
    · obtain ⟨_, _, _, e⟩ := ih _ h
      exact ⟨_, _, _, e⟩

end Sys2Proof.Machine
end

