-- ==== Sys2Proof/Tests/Slice0.lean ====
section
/-!
SUPPORT. Tests. `test_…` checks one operation on one small state against a value of the spec (the rule
or the row of 95_test_vectors.md is named); `witness_…` shows a concrete state and operands that meet
all the hypotheses of the obligation of that name together, one for each of its clauses.
-/

namespace Sys2Proof.Tests

open Sys2Proof.Machine

set_option maxRecDepth 20000
set_option Elab.async false

/-! ## Small states -/

/-- A constructed channel in the state after reset of the spec, with the identity oscillator. -/
def chan0 : Channel := { Channel.powerOn with constructed := true }

/-- A sample of integers. -/
def smp (re im : Int) : Cplx := ⟨ofInt binary32 re, ofInt binary32 im⟩

/-- An open Splitter of two consumers, the first one block behind the second. -/
def twoCursors : Splitter :=
  { Splitter.powerOn with
    constructed := true, window := [[smp 1 0]], base := 1, wr := 2, cursor := [1, 2] }

/-- A machine with the Splitter and every channel constructed. -/
def ready : State := { State.reset with sp := twoCursors, ch := Vector.replicate 256 chan0 }

/-- The same with channel 0 given. -/
def withChan (k : Channel) : State := ready.setChan 0 k

/-- The next state of an outcome. -/
def after (r : Result) : State :=
  match r with
  | .next t => t
  | _ => State.reset

/-- The same numbers, sign of zero apart. -/
def same (x y : Datum) : Bool := x.isFinite && y.isFinite && !x.lt y && !y.lt x

def sameAll (xs ys : List Cplx) : Bool :=
  xs.length == ys.length && (xs.zip ys).all fun p => same p.1.re p.2.re && same p.1.im p.2.im

/-- The number `m * 2^e` in the standard 64-bit format. -/
def dbl (m : Nat) (e : Int) : Datum := roundQ binary64 false m 1 e

/-- No limit is exceeded where there is none. -/
theorem no_limit {m : Nat} {p : Prop} (h : (none : Option Nat) = some m) : p := by cases h

/-! ## Well-formedness and decoding -/

theorem test_wellFormed_refuses_unit : (Instr.get 2#8).wellFormed 2 = false := by decide
theorem test_wellFormed_accepts_unit : (Instr.get 1#8).wellFormed 2 = true := by decide

/-! The words of spec 95_test_vectors.md 8.2. -/

theorem test_decode_spinit : decodeWord 0x0100#16 = .ok .spinit := by decide
theorem test_decode_chinit : decodeWord 0x0201#16 = .ok (.chinit 1#8) := by decide
theorem test_decode_push : decodeWord 0x1000#16 = .ok .push := by decide
theorem test_decode_get : decodeWord 0x1101#16 = .ok (.get 1#8) := by decide
theorem test_decode_next : decodeWord 0x1200#16 = .ok (.next 0#8) := by decide
theorem test_decode_close : decodeWord 0x1300#16 = .ok .close := by decide
theorem test_decode_shift : decodeWord 0x2000#16 = .ok (.shift 0#8) := by decide
theorem test_decode_lpf : decodeWord 0x2101#16 = .ok (.lpf 1#8) := by decide
theorem test_decode_disc : decodeWord 0x2200#16 = .ok (.disc 0#8) := by decide
theorem test_decode_extr : decodeWord 0x2301#16 = .ok (.extr 1#8) := by decide
theorem test_decode_bsync : decodeWord 0x2400#16 = .ok (.bsync 0#8) := by decide
theorem test_decode_fecbit : decodeWord 0x2501#16 = .ok (.fecbit 1#8) := by decide
theorem test_decode_fecdec : decodeWord 0x2600#16 = .ok (.fecdec 0#8) := by decide
theorem test_decode_loadx : decodeWord 0x2700#16 = .ok (.loadx 0#8) := by decide
theorem test_decode_block : decodeWord 0x2801#16 = .ok (.block 1#8) := by decide
theorem test_decode_run : decodeWord 0x2900#16 = .ok (.run 0#8) := by decide
theorem test_decode_pump : decodeWord 0x3000#16 = .ok .pump := by decide
theorem test_decode_zero : decodeWord 0x0000#16 = .badOp 0#8 := by decide
theorem test_decode_reserved : decodeWord 0x1400#16 = .badOp 0#8 := by decide
theorem test_decode_unit : decodeWord 0x1001#16 = .badUnit 1#8 := by decide

/-! ## One operation each -/

/-- R270, example: `N = 2`. -/
theorem test_spinit : (after (exec .spinit State.reset)).sp.cursor = [0, 0] ∧
    (after (exec .spinit State.reset)).sp.window = [] := by decide +kernel

/-- 95 8.4: `N = 0`. -/
theorem test_spinit_refused :
    (after (exec .spinit { State.reset with cfg := { resetParams with n := 0 } })).status = [0x0009#16] := by
  decide +kernel

/-- R134, R141, 95 2.2, where the spec fixes an entry exactly: `[1, -1]` for `T = 2`, and the first
entry of the table `T = 4`. -/
theorem test_oscillator : sameAll (oscTable binary32 .minus 1 2) [smp 1 0, smp (-1) 0] = true ∧
    oscEntry binary32 .minus 1 4 0 = smp 1 0 := by decide +kernel

/-- R131, 95 2.1: `S = 10`, `F = 3`. -/
theorem test_search : (searchPeriod { resetParams with sampleRate := ofNat binary64 10 }
    (ofNat binary64 3)).tLen = 10 ∧ (searchPeriod { resetParams with sampleRate := ofNat binary64 10 }
    (ofNat binary64 3)).rep = 3 := by decide +kernel

/-- 95 2.1: `S = 1`, `F = 19` falls back to the identity table with a warning. -/
theorem test_search_fallback : (searchPeriod { resetParams with sampleRate := ofNat binary64 1 }
    (ofNat binary64 19)) = ⟨1, 1, ofNat binary64 19, false⟩ := by decide +kernel

/-- R300: channel 1 of the reset instance (`S = 4`, `F = -1`), 95 2.1. -/
theorem test_chinit : ((after (exec (.chinit 1#8) ready)).chan 1#8).tLen = 4 ∧
    ((after (exec (.chinit 1#8) ready)).chan 1#8).sgn = .minus := by decide +kernel

/-- 95 8.4: `CHINIT 0` with nothing constructed. -/
theorem test_chinit_refused : (after (exec (.chinit 0#8) State.reset)).status = [0x000F#16] := by
  decide +kernel

/-- R272. -/
theorem test_push : (after (exec .push { ready with blkIn := [smp 2 3] })).sp.wr = 3 := by
  decide +kernel

/-- 95 8.4: an empty push on a closed stream is refused before `closed` is looked at. -/
theorem test_push_empty : (after (exec .push
    { ready with sp := { twoCursors with closed := true, closeIndex := 2 } })).status = [0x0007#16] := by
  decide +kernel

/-- R273. -/
theorem test_get : (after (exec (.get 0#8) ready)).rsp = .block [smp 1 0] := by decide +kernel

/-- R274: consumer 1 waits at the write position of the open stream. -/
theorem test_get_waits : ((after (exec (.get 1#8) ready)).engine 1#8).todo = [.op (.get 1#8)] := by
  decide +kernel

/-- R275, example: `cursor = [3, 0]`, `NEXT 1` evicts the front block. -/
theorem test_next : (after (exec (.next 1#8) { ready with sp := { twoCursors with
      window := [[smp 0 0], [smp 1 0], [smp 2 0]], base := 0, wr := 3, cursor := [3, 0] } })).sp.window = [[smp 1 0], [smp 2 0]] := by decide +kernel

/-- 95 8.3: `NEXT_BEYOND_WRITE` by consumer 1. -/
theorem test_next_refused : (after (exec (.next 1#8) ready)).status = [0x0108#16] := by
  decide +kernel

/-- R279: `CLOSE` with `wr = 2`, and again. -/
theorem test_close : (after (exec .close ready)).sp.closeIndex = 2 ∧
    (after (exec .close (after (exec .close ready)))).status = [0x0004#16] := by decide +kernel

/-- The exact table `[1, j, -1, -j]` of 95 2.2. -/
def quarter : Channel :=
  { chan0 with tLen := 4, osc := [smp 1 0, smp 0 1, smp (-1) 0, smp 0 (-1)] }

/-- R136, example: `g = 3`. -/
theorem test_shift : sameAll ((after (exec (.shift 0#8) (withChan { quarter with
      nTotal := 3, x := List.replicate 5 (smp 1 0) }))).chan 0#8).x
    [smp 0 (-1), smp 1 0, smp 0 1, smp (-1) 0, smp 0 (-1)] = true := by decide +kernel

/-- The sections of 95 3.2. -/
def cascade : Vector Biquad 3 :=
  let z := fpZero binary32
  let one := ofNat binary32 1
  let half := roundQ binary32 false 1 2 0
  #v[⟨half, half, z, z, z⟩, ⟨one, z, z, half.neg, z⟩, ⟨one, z, z, z, z⟩]

/-- 95 3.2: input `[4-8j, 0, 2+2j]`; the last output is `2.5-2j`, checked doubled. -/
theorem test_lpf : sameAll (((after (exec (.lpf 0#8) { (withChan { chan0 with
      x := [smp 4 (-8), smp 0 0, smp 2 2] }) with
      cfg := { resetParams with sos := cascade } })).chan 0#8).x.map
        (cscale binary32 (ofNat binary32 2)))
    [smp 4 (-8), smp 6 (-12), smp 5 (-4)] = true := by decide +kernel

/-- 95 4, row 3: `OFF = 1`, `x = [2, 3j, -1]`. -/
theorem test_disc : sameAll ((after (exec (.disc 0#8) (withChan { chan0 with
      x := [smp 2 0, smp 0 3, smp (-1) 0] }))).chan 0#8).x
    [smp 0 0, smp 0 (-6), smp 0 (-3)] = true := by decide +kernel

/-- 95 4, row 3: the history after it. -/
theorem test_disc_history : ((after (exec (.disc 0#8) (withChan { chan0 with
      x := [smp 2 0, smp 0 3, smp (-1) 0] }))).chan 0#8).hist = [smp 0 3, smp (-1) 0] := by
  decide +kernel

/-- 95 5.1, row 1. -/
theorem test_extr : ((after (exec (.extr 0#8) (withChan { chan0 with
      nTotal := 100
      x := [smp 0 (-1), smp 0 (-1), smp 0 2, smp 0 0, smp 0 (-3)] }))).chan 0#8).tq
    = [⟨100, true⟩, ⟨102, false⟩, ⟨104, true⟩] := by decide +kernel

/-- 95 5.1, last row: zero of negative sign, NaN and the infinities. -/
theorem test_extr_special : ((after (exec (.extr 0#8) (withChan { chan0 with
      x := [⟨.nan, .fin true 0 (-149)⟩, ⟨.nan, .nan⟩, ⟨.nan, .inf false⟩, ⟨.nan, .inf true⟩,
        ⟨.nan, .fin true 1 (-149)⟩] }))).chan 0#8).tq = [⟨3, true⟩] := by decide +kernel

/-- R112, 95 8.3: `{idx = 104, new_state = true}`, bit 64 and bits 63:0. -/
theorem test_transition_word : (transitionWord ⟨104, true⟩).getLsbD 64 = true ∧
    (transitionWord ⟨104, true⟩).extractLsb' 0 64 = 0x0000000000000068#64 := by decide

/-- A machine with `BW = 8` whose channel 0 has the accumulator `a` and the record `t`. -/
def clock8 (a : Datum) (t : Transition) : State :=
  { (withChan { chan0 with alignment := a, tq := [t] }) with
    cfg := { resetParams with bw := ofNat binary64 8 } }

/-- 95 5.2, row 3: 26.200000000000003 is `7374580898869250 * 2^-48` in the standard format. -/
theorem test_bsync : ((after (exec (.bsync 0#8) (clock8 (ofNat binary64 18) ⟨27, true⟩))).chan 0#8).alignment
      = roundQ binary64 false 26200000000000003 1000000000000000 0 ∧
    ((after (exec (.bsync 0#8) (clock8 (ofNat binary64 18) ⟨27, true⟩))).chan 0#8).bq = [false] := by
  decide +kernel

/-- 95 5.3, row 5 with the widths doubled: half a baud width away does not pull. -/
theorem test_bsync_strict :
    ((after (exec (.bsync 0#8) (clock8 (ofNat binary64 20) ⟨32, true⟩))).chan 0#8).alignment
      = ofNat binary64 36 := by decide +kernel

/-- R221, example: a 35th bit after the pattern. -/
theorem test_fecbit : ((after (exec (.fecbit 0#8) (withChan { chan0 with
      mode := .buffering, bq := [true] }))).chan 0#8).outCursor = 1 := by decide +kernel

/-- 95 6, row 2: the 34th bit of the pattern matches. -/
theorem test_fecbit_match : ((after (exec (.fecbit 0#8) (withChan { chan0 with
      syncReg := 0x1555569C8#34, bq := [true] }))).chan 0#8).mode = .buffering := by decide +kernel

/-- The coded block of vector A (95 7.2), as soft bytes. -/
def vectorA : Vector Byte 576 := Vector.ofFn fun k => softByte
  (0x1A29EA2B0B0894A8310E292E92CBFCE8952E0E716F310A8581F6988B0071F8172FA67CFE4A1B6827F131B79AC2389583392A3BD81F3666571ACF8E2E4F89C13A435B9015FCA32ABB#576
    |>.getLsbD (575 - k.val))

/-- R230: `FECDEC` sends one frame, with the channel's number. -/
theorem test_fecdec : ((after (exec (.fecdec 0#8) (withChan { chan0 with
      msg := Vector.replicate 576 0xFF#8 }))).sink.map fun f => f.channelId) = [0#8] := by
  decide +kernel

/-- 95 7.6, all `0xFF`: the first bytes; every pass has ties. -/
theorem test_fecdec_bytes :
    (decodeUpTo resetParams (Vector.replicate 576 0xFF#8) Viterbi.powerOn 288).out.toList.take 6
      = [0x77#8, 0x69#8, 0x95#8, 0x12#8, 0x65#8, 0x0D#8] := by decide +kernel

/-- The end of a decode with the CRC `0x259D` and the last two bytes given. -/
def committed (hi lo : Byte) : Viterbi :=
  { Viterbi.powerOn with crc := 0x259D#16, out := ((Vector.replicate 34 0x11#8).set 32 hi).set 33 lo }

/-- 95 7.2 and 7.4, `Finalise`: `25 9D` matches, `24 9D` does not. -/
theorem test_finalise :
    crcMatches (committed 0x25#8 0x9D#8).crc (committed 0x25#8 0x9D#8).out = true ∧
    (finaliseOut resetParams (committed 0x25#8 0x9D#8)).toList.drop 31 = [0x11#8, 0x00#8, 0x80#8] ∧
    crcMatches (committed 0x24#8 0x9D#8).crc (committed 0x24#8 0x9D#8).out = false ∧
    (finaliseOut resetParams (committed 0x24#8 0x9D#8)).toList.drop 31 = [0x11#8, 0x00#8, 0x00#8] := by
  decide +kernel

/-- 95 7.1. -/
theorem test_crc : crcByte 0x00#8 0xFFFF#16 = 0xFD02#16 ∧ crcByte 0x80#8 0x0000#16 = 0x8303#16 := by
  decide +kernel

/-- 95 7.1: `il(2) = 22`, `il(32) = 62`, `il(574) = 544`. -/
theorem test_deinterleave : deinterleave resetParams 2#16 = 22 ∧ deinterleave resetParams 32#16 = 62 ∧
    deinterleave resetParams 574#16 = 544 := by decide +kernel

/-- R302. -/
theorem test_loadx : ((after (exec (.loadx 0#8) { ready with blkIn := [smp 1 0, smp 0 1] })).chan 0#8).x
    = [smp 1 0, smp 0 1] := by decide +kernel

/-- 95 8.4: `BLOCK_MAX = 4`, five samples. -/
theorem test_loadx_refused : (after (exec (.loadx 1#8) { ready with
      blkIn := List.replicate 5 (smp 1 0)
      cfg := { resetParams with blockMax := some 4 } })).status = [0x010E#16] := by decide +kernel

/-- R303: `BLOCK 0` copies the block; the engine has the rest to do. -/
theorem test_block : ((after (exec (.block 0#8) ready)).chan 0#8).x = [smp 1 0] ∧
    ((after (exec (.block 0#8) ready)).engine 0#8).todo.length = 7 := by decide +kernel

/-- R304, R305: seven turns later the engine has nothing left and one sample is counted. -/
theorem test_block_ends : ((engineTurns 0#8 7 (after (exec (.block 0#8) ready))).map fun t =>
    ((t.chan 0#8).nTotal, (t.engine 0#8).todo)) = some (1, []) := by decide +kernel

/-- 95 8.4: `BLOCK` at the write position. -/
theorem test_block_refused : (after (exec (.block 1#8) ready)).status = [0x010D#16] := by
  decide +kernel

/-- R307. -/
theorem test_run : ((after (exec (.run 0#8) ready)).engine 0#8).todo
    = [.op (.block 0#8), .op (.next 0#8), .op (.run 0#8)] := by decide +kernel

/-- R307: the terminator finishes the engine. -/
theorem test_run_ends : ((after (exec (.run 1#8) { ready with
      sp := { twoCursors with closed := true, closeIndex := 2 } })).engine 1#8).ended = true := by
  decide +kernel

/-- R310, 95 8.3: the IQ word `0x7F80`. -/
theorem test_pump : (after (exec .pump { ready with srcIn := [0x7F80#16] })).prod.held
    = some [smp (-128) 127] := by decide +kernel

/-- R308: a read of 0 closes the stream. -/
theorem test_pump_end : (after (exec .pump ready)).rsp = .stopped ∧
    (after (exec .pump ready)).status = [0x0004#16] := by decide +kernel

/-- A machine whose stream the controller has closed, with a word on `src`. -/
def closedWithWord : State :=
  { ready with srcIn := [0x7F80#16], sp := { twoCursors with closed := true, closeIndex := 2 } }

/-- R308, R281, R337: a `PUMP` there: `PUSH_REJECT`, stopped, and nothing of the source is held. -/
theorem test_pump_closed : (after (exec .pump closedWithWord)).prod = ⟨none, true⟩ ∧
    (after (exec .pump closedWithWord)).status = [0x0005#16] := by decide +kernel

/-- R308, R397: the push of what was read before the close is rejected, and the producer stops. -/
theorem test_pump_rejected :
    (after (producerTurn { closedWithWord with prod := ⟨some [smp (-128) 127], false⟩ })).prod
      = ⟨none, true⟩ ∧
    (after (producerTurn { closedWithWord with prod := ⟨some [smp (-128) 127], false⟩ })).status
      = [0x0005#16] := by decide +kernel

/-! ## Witnesses: encoding, step, construction -/

/-- `ready` with a turn next. -/
def turnNext (t : Turn) : State := { ready with turns := [t] }

theorem witness_DecodeEncodeAgree : decodeWord 0x2801#16 = .ok (.block 1#8) := by decide
theorem witness_ReservedWords_op : decodeWord 0x2A07#16 = .badOp 7#8 := by decide
theorem witness_ReservedWords_unit : decodeWord 0x30FF#16 = .badUnit 255#8 := by decide

theorem witness_StepRunsWord_idle :
    (turnNext (.word 0x1101#16 [] [])).turns = .word (encode (.get 1#8)) [] [] :: [] ∧
      (Instr.get 1#8).engine? = some 1#8 ∧
      ((turnNext (.word 0x1101#16 [] [])).engine 1#8).todo = [] := by decide +kernel
theorem witness_StepRunsWord_busy : ((ready.begin 1#8 [.op (.get 1#8)]).engine 1#8).todo ≠ [] ∧
    (Instr.block 1#8).engine? = some 1#8 := by decide +kernel
theorem witness_StepRunsWord_other : (turnNext (.word 0x1300#16 [] [])).turns
      = .word (encode .close) [] [] :: [] ∧ Instr.close.engine? = none ∧ Instr.close ≠ .push := by decide
theorem witness_StepRunsWord_push : (turnNext (.word 0x1000#16 [] [])).turns
      = .word (encode .push) [] [] :: [] ∧ ∃ t, producerTurn ready = .next t := ⟨by decide, _, rfl⟩
theorem witness_StepRunsWord_fetch : (∀ c, (Instr.get 1#8).engine? = some c →
      (ready.engine c).todo = []) ∧ ready.prod.held = none := by
  refine ⟨fun c h => ?_, by decide⟩
  cases h
  decide +kernel

theorem witness_RefusedWordStep_op : (turnNext (.word 0x0000#16 [] [])).turns
      = .word 0x0000#16 [] [] :: [] ∧ decodeWord 0x0000#16 = .badOp 0#8 := by decide
theorem witness_RefusedWordStep_unit : (turnNext (.word 0x1001#16 [] [])).turns
      = .word 0x1001#16 [] [] :: [] ∧ decodeWord 0x1001#16 = .badUnit 1#8 := by decide

/-- `ready` on engine 1's turn, with the piece `k` and then `RUN 1` to do. -/
def engineNext (k : Piece) : State :=
  (turnNext (.engine 1#8)).setEngine 1#8 ⟨[k, .op (.run 1#8)], false⟩

theorem witness_AgentTurns_op : (engineNext (.op (.get 1#8))).turns = .engine 1#8 :: [] ∧
    ((engineNext (.op (.get 1#8))).engine 1#8).todo = .op (.get 1#8) :: [.op (.run 1#8)] := by
  decide +kernel
theorem witness_AgentTurns_loops_over : ((engineNext .drainTq).engine 1#8).todo
      = .drainTq :: [.op (.run 1#8)] ∧ ((engineNext .drainTq).chan 1#8).tq = [] ∧
    ((engineNext .drainBq).engine 1#8).todo = .drainBq :: [.op (.run 1#8)] ∧
    ((engineNext .drainBq).chan 1#8).bq = [] := by decide +kernel
theorem witness_AgentTurns_loops :
    (((engineNext .drainTq).setChan 1#8 { chan0 with tq := [⟨5, true⟩] }).engine 1#8).todo
      = .drainTq :: [.op (.run 1#8)] ∧
    (((engineNext .drainTq).setChan 1#8 { chan0 with tq := [⟨5, true⟩] }).chan 1#8).tq ≠ [] ∧
    (((engineNext .drainBq).setChan 1#8 { chan0 with bq := [true] }).engine 1#8).todo
      = .drainBq :: [.op (.run 1#8)] ∧
    (((engineNext .drainBq).setChan 1#8 { chan0 with bq := [true] }).chan 1#8).bq ≠ [] := by
  decide +kernel
theorem witness_AgentTurns_advance : ((engineNext (.advance 3)).engine 1#8).todo
    = .advance 3 :: [.op (.run 1#8)] := by decide +kernel
theorem witness_AgentTurns_producer : (turnNext .producer).turns = .producer :: [] ∧
    (turnNext .producer).prod.held = none := by decide
theorem witness_AgentTurns_idle : (turnNext (.engine 255#8)).turns = .engine 255#8 :: [] ∧
    ((turnNext (.engine 255#8)).engine 255#8).todo = [] := by decide +kernel
theorem witness_AgentTurns_stop : (turnNext .stop).turns = .stop :: [] := by decide
theorem witness_AgentTurns_sink : (turnNext (.sink 0#8 false)).turns = .sink 0#8 false :: [] := by
  decide
theorem witness_AgentTurns_none : State.reset.turns = [] := by decide

theorem witness_ConfigurationFixed_step : ∃ t, step (turnNext (.word 0x0100#16 [] [])) = .next t :=
  ⟨_, rfl⟩
theorem witness_ConfigurationFixed_exec : ∃ t, atomicStep (· ≠ .spinit) ready t ∧
    atomicStep (· ≠ .chinit 0#8) ready t :=
  ⟨after (exec (.shift 0#8) ready), .inl ⟨.shift 0#8, by decide, rfl⟩, .inl ⟨.shift 0#8, by decide, rfl⟩⟩
theorem witness_ConfigurationFixed_producer : ∃ t, atomicStep (· ≠ .spinit) ready t :=
  ⟨after (producerTurn ready), .inr (.inl rfl)⟩
theorem witness_ConfigurationFixed_piece : ∃ t, atomicStep (· ≠ .spinit) ready t :=
  ⟨after (runPiece 0#8 (.advance 3) ready), .inr (.inr ⟨0#8, .advance 3, by simp, rfl⟩)⟩

theorem witness_SpinitConstructs_legal : splitterLegal { resetParams with n := 256 } = true := by
  decide
theorem witness_SpinitConstructs_refused : splitterLegal { resetParams with n := 257 } = false := by
  decide

theorem witness_ChinitConstructs_legal : ready.served 1#8 ∧ channelLegal ready.cfg 1#8 = true := by
  decide +kernel
/-- `BW = 0` (95 8.4). -/
theorem witness_ChinitConstructs_refused :
    State.served { ready with cfg := { resetParams with bw := fpZero binary64 } } 0#8 ∧
      channelLegal { resetParams with bw := fpZero binary64 } 0#8 = false := by decide +kernel

theorem witness_UnavailableRefused_all : State.reset.sp.constructed = false ∧ Instr.push ≠ .spinit := by
  decide
theorem witness_UnavailableRefused_unit : (Instr.get 2#8).unit? = some 2#8 ∧
    ready.sp.constructed = true ∧ ready.cfg.n ≤ (2#8 : UnitNo).toNat := by decide
theorem witness_UnavailableRefused_channel : (Instr.run 1#8).unit? = some 1#8 ∧
    { State.reset with sp := twoCursors }.sp.constructed = true ∧
    (1#8 : UnitNo).toNat < { State.reset with sp := twoCursors }.cfg.n ∧
    (Instr.run 1#8).usesChannel = true ∧
    ({ State.reset with sp := twoCursors }.chan 1#8).constructed = false := by decide +kernel

/-! ## Witnesses: the stages on a buffer -/

theorem witness_SearchIsBest_zero : (fpZero binary64).abs.isZero = true := by decide
/-- `S = 4`, `F = 1`, at `r = 9`; `r = 1` is the result. -/
theorem witness_SearchIsBest_found : (ofNat binary64 1).abs.isZero = false ∧
    (searchPeriod resetParams (ofNat binary64 1)).found = true ∧
    (searchCandidate resetParams (ofNat binary64 1).abs 9).isSome = true := by decide +kernel
/-- `S = 10`, `F = 3`: repeat count 1 is a smaller candidate than the result, 3. -/
theorem witness_SearchIsBest_smaller :
    1 < (searchPeriod { resetParams with sampleRate := ofNat binary64 10 } (ofNat binary64 3)).rep ∧
    (searchCandidate { resetParams with sampleRate := ofNat binary64 10 }
      (ofNat binary64 3).abs 1).isSome = true := by decide +kernel
theorem witness_SearchIsBest_none : (ofNat binary64 100).abs.isZero = false ∧
    (searchPeriod resetParams (ofNat binary64 100)).found = false := by decide +kernel

theorem witness_OscillatorTable_format : binary32.legal = true := by decide
theorem witness_OscillatorTable_zero : 1 ≤ 4 ∧ 0 < 4 ∧ 1 * 0 % 4 = 0 := by decide
theorem witness_OscillatorTable_other : 1 ≤ 4 ∧ 3 < 4 ∧ 1 * 3 % 4 ≠ 0 := by decide
theorem witness_OscillatorTable_tolerance : binary32.legal = true ∧ 3 < 4 := by decide
theorem witness_OscillatorTable_half : binary32.legal = true ∧ 1 < 2 ∧ 9 * 1 % 2 = 1 := by decide
theorem witness_OscillatorTable_same : 1 ≤ 4 ∧ 1 < 4 ∧ 3 < 4 ∧ 2 * 3 % 4 = 2 * 1 % 4 := by decide

theorem witness_ready : ready.ready 0#8 ∧ ready.ready 1#8 := by decide +kernel

theorem witness_ShiftResult : (withChan { quarter with nTotal := 3, x := [smp 1 0] }).ready 0#8 ∧
    ((withChan { quarter with nTotal := 3, x := [smp 1 0] }).chan 0#8).x[0]? = some (smp 1 0) ∧
    ((withChan { quarter with nTotal := 3, x := [smp 1 0] }).chan 0#8).osc[(3 + 0) % 4]?
      = some (smp 0 (-1)) := by decide +kernel

theorem witness_LpfResult : (withChan { chan0 with x := [smp 4 (-8)] }).ready 0#8 ∧
    ((withChan { chan0 with x := [smp 4 (-8)] }).chan 0#8).x[0]? = some (smp 4 (-8)) := by
  decide +kernel

theorem witness_DiscResult : (withChan { chan0 with x := [smp 2 0, smp 0 3] }).ready 0#8 ∧
    chan0.hist.length = chan0.hlen ∧ 2 ≤ chan0.hlen ∧
    (chan0.hist ++ [smp 2 0, smp 0 3])[1 + 1]? = some (smp 2 0) ∧
    (chan0.hist ++ [smp 2 0, smp 0 3])[1 + 2]? = some (smp 0 3) ∧
    [smp 2 0, smp 0 3][1]? = some (smp 0 3) := by decide +kernel

/-- The first sample of a stream in two blocks, `HLEN = 2`: its blend reads a zero and the sample. -/
theorem witness_DiscContinuity : 2 ≤ 2 ∧
    (List.replicate 2 (czero binary32) ++ [[smp 2 0], [smp 0 3]].flatten)[0 + 1]?
      = some (czero binary32) ∧
    (List.replicate 2 (czero binary32) ++ [[smp 2 0], [smp 0 3]].flatten)[0 + 2]? = some (smp 2 0) ∧
    [[smp 2 0], [smp 0 3]].flatten[0]? = some (smp 2 0) := by decide +kernel

theorem witness_ExtrResult : (withChan { chan0 with x := [smp 0 (-1)] }).ready 0#8 := by
  decide +kernel

theorem witness_TransitionStream :
    (transitionsOf 5 false [smp 0 (-1), smp 0 1]).1[1]? = some ⟨6, false⟩ ∧
      [smp 0 (-1), smp 0 1][1]? = some (smp 0 1) := by decide +kernel
theorem witness_TransitionStream_word : (⟨2 ^ 64 - 1, true⟩ : Transition).idx < 2 ^ 64 := by decide

/-! ## Witnesses: clock recovery and detection -/

theorem witness_BsyncWithoutTick_prime : (clock8 (fpZero binary64) ⟨10, true⟩).ready 0#8 ∧
    ((clock8 (fpZero binary64) ⟨10, true⟩).chan 0#8).tq = ⟨10, true⟩ :: [] ∧
    (fpZero binary64).isZero = true := by decide +kernel
theorem witness_BsyncWithoutTick_stale : (clock8 (ofNat binary64 58) ⟨40, false⟩).ready 0#8 ∧
    ((clock8 (ofNat binary64 58) ⟨40, false⟩).chan 0#8).tq = ⟨40, false⟩ :: [] ∧
    (ofNat binary64 58).isZero = false ∧ (ofNat binary64 40).lt (ofNat binary64 58) = true := by
  decide +kernel
theorem witness_BsyncWithoutTick_equal : (clock8 (ofNat binary64 13) ⟨13, true⟩).ready 0#8 ∧
    ((clock8 (ofNat binary64 13) ⟨13, true⟩).chan 0#8).tq = ⟨13, true⟩ :: [] ∧
    (ofNat binary64 13).isZero = false ∧ (ofNat binary64 13).lt (ofNat binary64 13) = false := by
  decide +kernel

/-- The hypotheses of `BsyncTicks` that both its clauses share, on `clock8 a t`, as one check. -/
def ticksTo (a : Datum) (t : Transition) (m : Nat) : Bool :=
  !a.isZero && decide (1 ≤ m) && decide (m < clockFuel binary64)
    && (List.range m).all (fun j => (ticked binary64 (ofNat binary64 8) a j).lt (ofNat binary64 t.idx))
    && (List.range m).all (fun j => j == 0 ||
      !withinHalf (clock8 a t).cfg (ofNat binary64 t.idx) (ticked binary64 (ofNat binary64 8) a j))

/-- Ticks at 34, 42, 50 for the transition at 49: two do not pull, the third does. -/
theorem witness_BsyncTicks_pull : (clock8 (ofNat binary64 26) ⟨49, false⟩).ready 0#8 ∧
    ((clock8 (ofNat binary64 26) ⟨49, false⟩).chan 0#8).tq = ⟨49, false⟩ :: [] ∧
    ticksTo (ofNat binary64 26) ⟨49, false⟩ 3 = true ∧
    withinHalf (clock8 (ofNat binary64 26) ⟨49, false⟩).cfg (ofNat binary64 49)
      (ticked binary64 (ofNat binary64 8) (ofNat binary64 26) 3) = true := by decide +kernel
/-- One tick past the transition, more than half a baud width away. -/
theorem witness_BsyncTicks_pass : (clock8 (ofNat binary64 50) ⟨51, true⟩).ready 0#8 ∧
    ((clock8 (ofNat binary64 50) ⟨51, true⟩).chan 0#8).tq = ⟨51, true⟩ :: [] ∧
    ticksTo (ofNat binary64 50) ⟨51, true⟩ 1 = true ∧
    withinHalf (clock8 (ofNat binary64 50) ⟨51, true⟩).cfg (ofNat binary64 51)
      (ticked binary64 (ofNat binary64 8) (ofNat binary64 50) 1) = false ∧
    (ticked binary64 (ofNat binary64 8) (ofNat binary64 50) 1).lt (ofNat binary64 51) = false := by
  decide +kernel

/-- An accumulator that 8 no longer moves: `2^60`, and a transition far ahead. -/
def stuckState : State := clock8 (ofNat binary64 (2 ^ 60)) ⟨2 ^ 61, true⟩

theorem stuckState_ready : stuckState.ready 0#8 := by decide +kernel

theorem stuckState_never_ends : bsyncChannel stuckState.cfg (stuckState.chan 0#8) = none := by
  decide +kernel

theorem witness_ClockWaitsOnlyWhenStuck : stuckState.ready 0#8 ∧
    (stuckState.chan 0#8).tq = ⟨2 ^ 61, true⟩ :: [] ∧ stuckState.cfg.fpA.legal = true ∧
    (stuckState.chan 0#8).alignment.inFormat stuckState.cfg.fpA = true ∧
    stuckState.cfg.bw.isPositive stuckState.cfg.fpA = true ∧
    exec (.bsync 0#8) stuckState = .next (stuckState.wait 0#8 (.bsync 0#8)) := by
  refine ⟨stuckState_ready, by decide +kernel, by decide, by decide +kernel, by decide +kernel, ?_⟩
  rw [exec_bsync_ready stuckState_ready (t := ⟨2 ^ 61, true⟩) (rest := []) (by decide +kernel),
    stuckState_never_ends]

theorem witness_EmptyQueuesRefused : ready.ready 1#8 ∧ (ready.chan 1#8).tq = [] ∧
    (ready.chan 1#8).bq = [] := by decide +kernel

/-- The register one bit before a match, and the bit that completes it. -/
theorem witness_FecbitSyncs_match :
    (withChan { chan0 with syncReg := 0x1555569C8#34, bq := [true] }).ready 0#8 ∧
    ((withChan { chan0 with syncReg := 0x1555569C8#34, bq := [true] }).chan 0#8).mode = .syncing ∧
    ((withChan { chan0 with syncReg := 0x1555569C8#34, bq := [true] }).chan 0#8).bq = true :: [] ∧
    ∃ r : BitVec 34, (∀ m, m < 33 → syncChar r m = syncChar 0x1555569C8#34 (m + 1)) ∧
      syncChar r 33 = true ∧ ∀ m, m < 34 → syncPatternBits[m]? = some (syncChar r m) := by
  refine ⟨by decide +kernel, by decide +kernel, by decide +kernel, 0x2AAAAD391#34, ?_⟩
  decide +kernel
theorem witness_FecbitSyncs_miss :
    (withChan { chan0 with syncReg := 0x1555569C8#34, bq := [false] }).ready 0#8 ∧
    ((withChan { chan0 with syncReg := 0x1555569C8#34, bq := [false] }).chan 0#8).mode = .syncing ∧
    ((withChan { chan0 with syncReg := 0x1555569C8#34, bq := [false] }).chan 0#8).bq = false :: [] ∧
    33 < 34 ∧ syncPatternBits[33]? ≠ some false := by decide +kernel

/-- A channel that buffers, at `cursor`, with the bit `true` next. -/
def buffering (cursor : Nat) : State :=
  withChan { chan0 with mode := .buffering, outCursor := cursor, bq := [true] }

theorem witness_FecbitBuffers_store : (buffering 574).ready 0#8 ∧
    ((buffering 574).chan 0#8).mode = .buffering ∧ ((buffering 574).chan 0#8).bq = true :: [] ∧
    ((buffering 574).chan 0#8).outCursor < 575 := by decide +kernel
theorem witness_FecbitBuffers_last : (buffering 575).ready 0#8 ∧
    ((buffering 575).chan 0#8).mode = .buffering ∧ ((buffering 575).chan 0#8).bq = true :: [] ∧
    ((buffering 575).chan 0#8).outCursor = 575 ∧ (buffering 575).sinkTakes 0#8 = true := by
  decide +kernel
theorem witness_FecbitBuffers_wait : ((buffering 575).setSinkReady 0#8 false).ready 0#8 ∧
    (((buffering 575).setSinkReady 0#8 false).chan 0#8).mode = .buffering ∧
    (((buffering 575).setSinkReady 0#8 false).chan 0#8).bq = true :: [] ∧
    (((buffering 575).setSinkReady 0#8 false).chan 0#8).outCursor = 575 ∧
    ((buffering 575).setSinkReady 0#8 false).sinkTakes 0#8 = false := by decide +kernel

theorem witness_NoMatchBefore34_early : chan0.mode = .syncing ∧ chan0.syncReg = 0 ∧
    (syncPatternBits.take 33).length ≤ 33 := by decide +kernel
theorem witness_NoMatchBefore34_at34 : chan0.mode = .syncing ∧ chan0.syncReg = 0 ∧
    syncPatternBits.length = 34 := by decide +kernel
theorem witness_EarliestRematch :
    { chan0 with syncReg := syncPattern }.mode = .syncing ∧
    (∀ m, m < 34 → syncPatternBits[m]? = some (syncChar syncPattern m)) ∧
    (syncPatternBits.drop 1).length ≤ 33 := by decide +kernel
theorem witness_OneFramePerBlock : { chan0 with mode := .buffering }.mode = .buffering ∧
    { chan0 with mode := .buffering }.outCursor = 0 ∧ (List.replicate 576 true).length = 576 := by
  decide +kernel

/-! ## Witnesses: block decode -/

theorem witness_FecdecResult : ready.ready 0#8 ∧ ready.sinkTakes 0#8 = true := by decide +kernel
theorem witness_FecdecResult_wait : (ready.setSinkReady 0#8 false).ready 0#8 ∧
    (ready.setSinkReady 0#8 false).sinkTakes 0#8 = false := by decide +kernel
/-- Pair 287 and byte 33 are the last ones. -/
theorem witness_CommittedBytes : 287 < 288 ∧ 33 < 34 := by decide
/-- A tie and none, for state 0: with all costs equal it keeps its lower predecessor, with a dearer state
0 it takes the higher one. -/
theorem witness_CommittedBytes_tie :
    (survivor resetParams (Vector.replicate 8 0#32) (0x00#8, 0x00#8) 0).2 = 0 ∧
    (survivor resetParams ((Vector.replicate 8 0#32).set 0 1000#32) (0x00#8, 0x00#8) 0).2 = 4 := by
  decide +kernel
theorem witness_CommitSchedule : 287 ≤ 287 := by decide
theorem witness_CostsDoNotOverflow : 288 ≤ 288 := by decide
/-- One pair, the data bit 1 from state 0: state 1. -/
theorem witness_SurvivorsAreOptimal : 1 ≤ 288 ∧ 0 < 8 ∧ [true].length = 1 ∧
    pathEnd 0 [true] = (1 : Fin 8).val := by decide

/-- The payload `00 01 .. 1F` of vector A (95 7.2). -/
def payload : List Byte := (List.range 32).map (BitVec.ofNat 8)

theorem witness_RoundTrip_payload : DefaultFec resetParams ∧ payload.length = 32 :=
  ⟨⟨rfl, rfl, rfl, rfl, rfl⟩, by decide⟩

/-- The encoder gives the coded block the spec lists for vector A (95 7.2). -/
theorem witness_RoundTrip_block : Encodes resetParams payload vectorA := by
  unfold Encodes
  simp only [vectorA, Vector.getElem?_ofFn]
  decide +kernel

theorem witness_DeinterleavePermutes : interleaveLegal resetParams.interleave = true ∧ 287 < 288 ∧
    0 < 288 := by decide +kernel

/-! ## Witnesses: Splitter -/

theorem witness_PushResult_empty : ready.sp.constructed = true ∧ ready.blkIn = [] := by decide
theorem witness_PushResult_long :
    { ready with blkIn := List.replicate 5 (smp 1 0) }.blkIn ≠ [] ∧
    { resetParams with blockMax := some 4 }.blockMax = some 4 ∧
    4 < (List.replicate 5 (smp 1 0)).length := by decide +kernel
theorem witness_PushResult_closed : { twoCursors with closed := true }.constructed = true ∧
    [smp 1 0] ≠ [] ∧ (∀ m, ready.cfg.blockMax = some m → [smp 1 0].length ≤ m) ∧
    { twoCursors with closed := true }.closed = true :=
  ⟨by decide, by decide +kernel, fun _ h => no_limit h, by decide⟩
theorem witness_PushResult_full : twoCursors.constructed = true ∧ [smp 1 0] ≠ [] ∧
    (∀ m, { resetParams with windowCap := some 1 }.blockMax = some m → [smp 1 0].length ≤ m) ∧
    twoCursors.closed = false ∧
    { resetParams with windowCap := some 1 }.windowCap = some twoCursors.window.length :=
  ⟨by decide, by decide +kernel, fun _ h => no_limit h, by decide, by decide⟩
theorem witness_PushResult_accepted : ready.sp.constructed = true ∧ [smp 1 0] ≠ [] ∧
    (∀ m, ready.cfg.blockMax = some m → [smp 1 0].length ≤ m) ∧ ready.sp.closed = false ∧
    ready.cfg.windowCap ≠ some ready.sp.window.length :=
  ⟨by decide, by decide +kernel, fun _ h => no_limit h, by decide, by decide⟩

theorem witness_GetResult_block : ready.served 0#8 ∧
    ready.sp.cursor[(0#8 : UnitNo).toNat]? = some 1 ∧ 1 < ready.sp.wr ∧
    ready.sp.window[1 - ready.sp.base]? = some [smp 1 0] := by decide +kernel
theorem witness_GetResult_done :
    State.served { ready with sp := { twoCursors with closed := true, closeIndex := 2 } } 1#8 ∧
    twoCursors.cursor[(1#8 : UnitNo).toNat]? = some 2 ∧ twoCursors.wr ≤ 2 ∧
    { twoCursors with closed := true, closeIndex := 2 }.closed = true ∧
    2 = { twoCursors with closed := true, closeIndex := 2 }.closeIndex := by decide +kernel
theorem witness_GetResult_wait : ready.served 1#8 ∧
    ready.sp.cursor[(1#8 : UnitNo).toNat]? = some 2 ∧ ready.sp.wr ≤ 2 ∧
    (ready.sp.closed = false ∨ 2 ≠ ready.sp.closeIndex) := by decide +kernel

theorem twoCursors_inv : twoCursors.Inv resetParams where
  legal := by decide
  consumers := by decide
  base_attained := by decide
  between := by decide
  write_position := by decide
  close_position := by decide
  blocks := by decide +kernel
  capacity := fun _ h => no_limit h

theorem witness_NextResult_advance : ready.served 0#8 ∧ ready.sp.Inv ready.cfg ∧
    ready.sp.cursor[(0#8 : UnitNo).toNat]? = some 1 ∧ 1 < ready.sp.wr :=
  ⟨by decide, twoCursors_inv, by decide, by decide⟩
theorem witness_NextResult_refused : ready.served 1#8 ∧ ready.sp.Inv ready.cfg ∧
    ready.sp.cursor[(1#8 : UnitNo).toNat]? = some 2 ∧ ready.sp.wr ≤ 2 :=
  ⟨by decide, twoCursors_inv, by decide, by decide⟩

theorem witness_CloseResult_first : ready.sp.constructed = true ∧ ready.sp.closed = false := by
  decide
theorem witness_CloseResult_again : { twoCursors with closed := true }.constructed = true ∧
    { twoCursors with closed := true }.closed = true := by decide

/-- A machine of the reset instance with its Splitter in use and channel 0 constructed by `CHINIT`,
whose next turn is `GET 0`. -/
def inUse : State :=
  ({ State.reset with sp := twoCursors, turns := [.word 0x1100#16 [] []] }).setChan 0#8
    (freshChannel resetParams 0#8 0 Channel.powerOn)

theorem freshChannel0_inv :
    (freshChannel resetParams 0#8 0 Channel.powerOn).Inv resetParams 0#8 where
  legal := by decide +kernel
  period := rfl
  repeats := rfl
  rotation := rfl
  warning := rfl
  table := rfl
  table_positive := by decide +kernel
  repeats_range := by decide +kernel
  weight := rfl
  delay := rfl
  delay_range := by decide +kernel
  history := by decide +kernel
  fec_cursor := Nat.zero_le _
  fec_buffering := fun h => absurd h (by simp [freshChannel])

theorem inUse_inv : inUse.Inv where
  splitter := fun _ => twoCursors_inv
  channels := by
    intro c h
    by_cases hc : c = 0#8
    · subst hc
      refine ⟨by decide, ?_⟩
      rw [show inUse.chan 0#8 = freshChannel resetParams 0#8 0 Channel.powerOn from
        State.setChan_chan_self _ _ _]
      exact freshChannel0_inv
    · rw [show inUse.chan c = State.reset.chan c from State.setChan_chan_ne _ _ _ _ hc,
        State.reset_chan] at h
      exact absurd h (by decide)
  agents :=
    { engines := by
        intro c i h
        rw [show inUse.engine c = State.reset.engine c from rfl, State.reset_engine] at h
        exact absurd h (by simp)
      held_constructed := fun _ h => absurd h (by simp [inUse, State.setChan, State.reset])
      held_legal := fun _ h => absurd h (by simp [inUse, State.setChan, State.reset]) }

theorem witness_InvariantKept : inUse.Inv ∧ ∃ t, step inUse = .next t := ⟨inUse_inv, _, rfl⟩

theorem witness_BlocksInPushOrder_step : ready.sp.constructed = true ∧ ready.sp.Inv ready.cfg ∧
    ready.sp.Records [[smp 0 0], [smp 1 0]] ∧ ∃ t, atomicStep (· ≠ .spinit) ready t :=
  ⟨by decide, twoCursors_inv, ⟨by decide, by decide +kernel⟩,
    after (exec .push ready), .inl ⟨.push, by decide, rfl⟩⟩
theorem witness_BlocksInPushOrder_get : ready.served 0#8 ∧ ready.sp.Inv ready.cfg ∧
    ready.sp.Records [[smp 0 0], [smp 1 0]] ∧
    ready.sp.cursor[(0#8 : UnitNo).toNat]? = some 1 ∧
    [[smp 0 0], [smp 1 0]][1]? = some [smp 1 0] :=
  ⟨by decide, twoCursors_inv, ⟨by decide, by decide +kernel⟩, by decide, by decide +kernel⟩

theorem witness_StatusIsSticky_step : ∃ t, step inUse = .next t := ⟨_, rfl⟩
theorem witness_StatusIsSticky_atomic : ∃ s t, atomicStep (· ≠ .spinit) s t ∧
    atomicStep (· ≠ .chinit 0#8) s t ∧ s.sp.closed = true ∧ s.sp.lagWarn = true :=
  ⟨{ ready with sp := { twoCursors with closed := true, lagWarn := true } }, _,
    .inl ⟨.shift 0#8, by decide, rfl⟩, .inl ⟨.shift 0#8, by decide, rfl⟩, rfl, rfl⟩

/-! ## Witnesses: the channel, the producer, the whole machine -/

theorem witness_LoadxResult_fits : ready.ready 0#8 ∧
    ∀ m, ready.cfg.blockMax = some m → ready.blkIn.length ≤ m :=
  ⟨by decide +kernel, fun _ h => no_limit h⟩
theorem witness_LoadxResult_long : State.ready { ready with
      cfg := { resetParams with blockMax := some 4 } } 0#8 ∧
    { resetParams with blockMax := some 4 }.blockMax = some 4 ∧
    4 < (List.replicate 5 (smp 1 0)).length := by decide +kernel

theorem witness_BlockIsChain : ready.ready 0#8 ∧
    ready.sp.cursor[(0#8 : UnitNo).toNat]? = some 1 ∧ 1 < ready.sp.wr ∧
    ready.sp.window[1 - ready.sp.base]? = some [smp 1 0] ∧
    (∃ r, processBlock ready.cfg 0#8 [smp 1 0] (ready.chan 0#8) = some r) ∧
    ready.sinkTakes 0#8 = true :=
  ⟨by decide +kernel, by decide, by decide, by decide +kernel,
    Option.isSome_iff_exists.1 (by decide +kernel), by decide +kernel⟩

theorem witness_BlockRefusedOrWaits_end : ready.ready 1#8 ∧
    ready.sp.cursor[(1#8 : UnitNo).toNat]? = some 2 ∧ ready.sp.wr ≤ 2 := by decide +kernel
theorem witness_BlockRefusedOrWaits_stuck :
    (stuckState.begin 0#8 [.drainTq]).ready 0#8 ∧
    ((stuckState.begin 0#8 [.drainTq]).engine 0#8).todo = .drainTq :: [] ∧
    ((stuckState.begin 0#8 [.drainTq]).chan 0#8).tq ≠ [] ∧
    bsyncChannel (stuckState.begin 0#8 [.drainTq]).cfg ((stuckState.begin 0#8 [.drainTq]).chan 0#8)
      = none :=
  ⟨stuckState_ready, by decide +kernel, by decide +kernel, stuckState_never_ends⟩
/-- One bit before a frame, and a sink that takes none. -/
def lastBit : State := ((buffering 575).setSinkReady 0#8 false).begin 0#8 [.drainBq]
theorem witness_BlockRefusedOrWaits_sink : lastBit.ready 0#8 ∧
    (lastBit.engine 0#8).todo = .drainBq :: [] ∧ (lastBit.chan 0#8).bq ≠ [] ∧
    (lastBit.chan 0#8).mode = .buffering ∧ (lastBit.chan 0#8).outCursor = 575 ∧
    lastBit.sinkTakes 0#8 = false := by decide +kernel

theorem witness_BlockSplitInvariance : [[smp 1 0], [smp 0 1]] ≠ [] ∧
    chan0.hist.length = chan0.hlen ∧ 2 ≤ chan0.hlen := by decide +kernel

theorem witness_RunResult_pass : ready.ready 0#8 ∧
    ready.sp.cursor[(0#8 : UnitNo).toNat]? = some 1 ∧ 1 < ready.sp.wr := by decide +kernel
theorem witness_RunResult_done :
    State.ready { ready with sp := { twoCursors with closed := true, closeIndex := 2 } } 1#8 ∧
    twoCursors.cursor[(1#8 : UnitNo).toNat]? = some 2 ∧ twoCursors.wr ≤ 2 ∧
    { twoCursors with closed := true, closeIndex := 2 }.closed = true ∧
    2 = { twoCursors with closed := true, closeIndex := 2 }.closeIndex := by decide +kernel
theorem witness_RunResult_wait : ready.ready 1#8 ∧
    ready.sp.cursor[(1#8 : UnitNo).toNat]? = some 2 ∧ ready.sp.wr ≤ 2 ∧
    (ready.sp.closed = false ∨ 2 ≠ ready.sp.closeIndex) := by decide +kernel

theorem witness_PumpReads_words : ready.sp.constructed = true ∧ ready.prod = ⟨none, false⟩ ∧
    ready.sp.closed = false ∧ [0x7F80#16].take ready.cfg.readMax ≠ [] := by decide +kernel
theorem witness_PumpReads_end : ready.sp.constructed = true ∧ ready.prod = ⟨none, false⟩ ∧
    ready.srcIn.take ready.cfg.readMax = [] ∧ ready.sp.closed = false := by decide +kernel
theorem witness_PumpReads_closed : closedWithWord.sp.constructed = true ∧
    closedWithWord.prod = ⟨none, false⟩ ∧ closedWithWord.sp.closed = true ∧
    closedWithWord.srcIn ≠ [] := by decide +kernel
theorem witness_PumpReads_closed_end : ready.prod = ⟨none, false⟩ ∧
    { twoCursors with closed := true }.closed = true ∧ ready.srcIn = [] := by decide +kernel
theorem witness_PumpReads_stopped : State.sp { ready with prod := ⟨none, true⟩ } = twoCursors ∧
    twoCursors.constructed = true ∧ State.prod { ready with prod := ⟨none, true⟩ } = ⟨none, true⟩ := by
  decide +kernel

/-- A producer that holds a block, on its turn. -/
def holding (sp : Splitter) : State :=
  { ready with turns := [.producer], prod := ⟨some [smp 1 0], false⟩, sp := sp }

theorem witness_PumpReads_holding : (holding twoCursors).sp.constructed = true ∧
    (holding twoCursors).prod.held ≠ none ∧ ∃ t, producerTurn (holding twoCursors) = .next t :=
  ⟨by decide +kernel, by decide +kernel, _, rfl⟩
theorem witness_ProducerPushes_common : (holding twoCursors).turns = .producer :: [] ∧
    (holding twoCursors).prod.held = some [smp 1 0] ∧ [smp 1 0] ≠ [] ∧
    ∀ m, (holding twoCursors).cfg.blockMax = some m → [smp 1 0].length ≤ m :=
  ⟨by decide +kernel, by decide +kernel, by decide +kernel, fun _ h => no_limit h⟩
theorem witness_ProducerPushes_closed :
    (holding { twoCursors with closed := true }).turns = .producer :: [] ∧
    (holding { twoCursors with closed := true }).prod.held = some [smp 1 0] ∧
    (holding { twoCursors with closed := true }).sp.closed = true := by decide +kernel
theorem witness_ProducerPushes_open : (holding twoCursors).sp.closed = false ∧
    (holding twoCursors).cfg.windowCap ≠ some (holding twoCursors).sp.window.length := by decide +kernel
theorem witness_ProducerPushes_full : (holding twoCursors).sp.closed = false ∧
    { resetParams with windowCap := some 1 }.windowCap = some (holding twoCursors).sp.window.length ∧
    { resetParams with windowCap := some 1 }.blockMax = none := by decide +kernel

theorem witness_IqConversionExact : 8 ≤ (⟨8, 7⟩ : Format).prec ∧ 7 ≤ (⟨8, 7⟩ : Format).emax := by
  decide

theorem witness_OtherChannelsUntouched : Instr.shift 0#8 ≠ .spinit ∧
    (∃ t, exec (.shift 0#8) ready = .next t) ∧ (Instr.shift 0#8).usesChannel = true ∧
    (Instr.shift 0#8).unit? ≠ some 1#8 := ⟨by decide, ⟨_, rfl⟩, by decide, by decide⟩

/-- Two machines that differ in channel 1 only. -/
def other : State := ready.setChan 1#8 { chan0 with nTotal := 7 }

theorem witness_ChannelSeesNoOther : (Instr.shift 0#8).unit? = some 0#8 ∧ ready.cfg = other.cfg ∧
    ready.sp = other.sp ∧ ready.chan 0#8 = other.chan 0#8 ∧ ready.engine 0#8 = other.engine 0#8 ∧
    ready.sinkTakes 0#8 = other.sinkTakes 0#8 ∧ ready.blkIn = other.blkIn ∧ ready.free = other.free ∧
    (∃ t, exec (.shift 0#8) ready = .next t) ∧ ∃ t, exec (.shift 0#8) other = .next t :=
  ⟨by decide, rfl, rfl, (State.setChan_chan_ne ready 1#8 0#8 _ (by decide)).symm, rfl, rfl, rfl, rfl,
    ⟨_, rfl⟩, _, rfl⟩

theorem witness_RefusalLeavesState : ∃ t, exec (.next 1#8) ready = .next t ∧
    t.rsp = .refused .nextBeyondWrite ∧ ready.rsp ≠ .refused .nextBeyondWrite :=
  ⟨after (exec (.next 1#8) ready), rfl, by decide +kernel, by decide⟩

theorem witness_ArithmeticRoundsOnce : binary32.legal = true ∧
    (Datum.fin false 3 1).toRat? = some ((3 : Rat) * 2 ^ (1 : Int)) ∧
    (Datum.fin true 1 0).toRat? = some (-(1 : Rat) * 2 ^ (0 : Int)) ∧
    (-(1 : Rat) * 2 ^ (0 : Int)) ≠ 0 :=
  ⟨by decide, by simp [Datum.toRat?], by simp [Datum.toRat?], by norm_num⟩

end Sys2Proof.Tests
end

section
/-!
PROOFS. What the arithmetic of Machine/Float.lean computes, in rational numbers: the number a datum
stands for, the scaling and rounding of a fraction, and that `roundQ` rounds once (spec R12, R17).
-/

namespace Sys2Proof

/-! ## The number a datum stands for -/

/-- `x` with the sign bit `neg`. -/
def signed (neg : Bool) (x : Rat) : Rat := if neg then -x else x

@[simp] theorem signed_false (x : Rat) : signed false x = x := rfl

@[simp] theorem signed_true (x : Rat) : signed true x = -x := rfl

@[simp] theorem signed_zero (neg : Bool) : signed neg 0 = 0 := by cases neg <;> simp

@[simp] theorem abs_signed (neg : Bool) (x : Rat) : |signed neg x| = |x| := by cases neg <;> simp

theorem signed_not (neg : Bool) (x : Rat) : signed (!neg) x = -signed neg x := by cases neg <;> simp

theorem signed_mul (s t : Bool) (x y : Rat) :
    signed s x * signed t y = signed (s != t) (x * y) := by
  cases s <;> cases t <;> simp

theorem signed_div (s t : Bool) (x y : Rat) :
    signed s x / signed t y = signed (s != t) (x / y) := by
  cases s <;> cases t <;> simp [neg_div, div_neg]

/-- A sign moves from one side of a distance to the other. -/
theorem abs_sub_signed (neg : Bool) (w x : Rat) : |w - signed neg x| = |signed neg w - x| := by
  cases neg
  · rfl
  · rw [signed_true, signed_true, ← abs_neg]
    ring_nf

theorem signed_signed (neg : Bool) (x : Rat) : signed neg (signed neg x) = x := by cases neg <;> simp

theorem Datum.toRat?_fin (s : Bool) (m : Nat) (e : Int) :
    (Datum.fin s m e).toRat? = some (signed s (m * 2 ^ e)) := by
  cases s <;> simp [Datum.toRat?]

/-- The data that stand for a number are the finite ones. -/
theorem Datum.toRat?_eq_some {x : Datum} {q : Rat} (h : x.toRat? = some q) :
    ∃ s m e, x = .fin s m e ∧ q = signed s (m * 2 ^ e) := by
  cases x with
  | nan => simp [Datum.toRat?] at h
  | inf s => simp [Datum.toRat?] at h
  | fin s m e =>
    rw [Datum.toRat?_fin, Option.some_inj] at h
    exact ⟨s, m, e, rfl, h.symm⟩

theorem Datum.isFinite_iff (x : Datum) : x.isFinite = true ↔ ∃ q, x.toRat? = some q := by
  cases x <;> simp [Datum.isFinite, Datum.toRat?]

theorem Datum.toRat?_neg {x : Datum} {q : Rat} (h : x.toRat? = some q) : x.neg.toRat? = some (-q) := by
  obtain ⟨s, m, e, rfl, rfl⟩ := Datum.toRat?_eq_some h
  rw [Datum.neg, Datum.toRat?_fin, signed_not]

theorem Datum.inFormat_neg (f : Format) (x : Datum) : x.neg.inFormat f = x.inFormat f := by
  cases x <;> rfl

theorem Datum.inFormat_fin (f : Format) (s : Bool) (m : Nat) (e : Int) :
    (Datum.fin s m e).inFormat f = true ↔
      m < 2 ^ f.prec ∧ f.etiny ≤ e ∧ e + f.prec ≤ (f.emax : Int) + 1 ∧
        (2 ^ (f.prec - 1) ≤ m ∨ e = f.etiny) := by
  simp only [Datum.inFormat, Bool.and_eq_true, Bool.or_eq_true, decide_eq_true_eq, and_assoc]

/-- A datum's number with a sign put before it is the number of a datum of the same format. -/
theorem Datum.exists_signed {f : Format} {y : Datum} {w : Rat} (neg : Bool) (hy : y.inFormat f = true)
    (hw : y.toRat? = some w) : ∃ z : Datum, z.inFormat f = true ∧ z.toRat? = some (signed neg w) := by
  cases neg with
  | false => exact ⟨y, hy, hw⟩
  | true => exact ⟨y.neg, by rw [Datum.inFormat_neg, hy], Datum.toRat?_neg hw⟩

theorem signedMant_value (s : Bool) (m : Nat) {e lo : Int} (h : lo ≤ e) :
    (signedMant s m e lo : Rat) * 2 ^ lo = signed s (m * 2 ^ e) := by
  have scale : (2 : Rat) ^ (e - lo).toNat * 2 ^ lo = 2 ^ e := by
    rw [← zpow_natCast, ← zpow_add₀ (by norm_num)]
    congr 1
    omega
  cases s <;> simp [signedMant, mul_assoc, scale]

/-- `x < y` is the order of the numbers (spec R17). -/
theorem Datum.lt_iff {x y : Datum} {p q : Rat} (hx : x.toRat? = some p) (hy : y.toRat? = some q) :
    x.lt y = true ↔ p < q := by
  obtain ⟨s, m, e, rfl, rfl⟩ := Datum.toRat?_eq_some hx
  obtain ⟨t, n, g, rfl, rfl⟩ := Datum.toRat?_eq_some hy
  rw [← signedMant_value s m (min_le_left e g), ← signedMant_value t n (min_le_right e g),
    mul_lt_mul_iff_of_pos_right (by positivity), Int.cast_lt, Datum.lt, decide_eq_true_eq]

/-- `floor(x)` is the floor of the number (spec R11). -/
theorem Datum.floor?_eq {x : Datum} {q : Rat} (h : x.toRat? = some q) : x.floor? = some ⌊q⌋ := by
  obtain ⟨s, m, e, rfl, rfl⟩ := Datum.toRat?_eq_some h
  have value : signed s (m * 2 ^ e) = ((if s then -(m : Int) else m : Int) : Rat) * 2 ^ e := by
    cases s <;> simp
  rw [value, Datum.floor?]
  generalize (if s then -(m : Int) else m : Int) = n
  obtain ⟨k, rfl | rfl⟩ := e.eq_nat_or_neg
  · rw [if_pos (Int.natCast_nonneg k), zpow_natCast, Int.toNat_natCast]
    congr 1
    exact_mod_cast (Int.floor_intCast (R := Rat) (n * 2 ^ k)).symm
  · rcases Nat.eq_zero_or_pos k with rfl | hk
    · simp
    · rw [if_neg (by omega), zpow_neg, zpow_natCast, neg_neg, Int.toNat_natCast, ← div_eq_mul_inv]
      congr 1
      exact_mod_cast (Rat.floor_intCast_div_natCast n (2 ^ k)).symm

/-- `ceil(x)` is the ceiling of the number (spec R11). -/
theorem Datum.ceil?_eq {x : Datum} {q : Rat} (h : x.toRat? = some q) : x.ceil? = some ⌈q⌉ := by
  rw [Datum.ceil?, Datum.floor?_eq (Datum.toRat?_neg h), Option.map_some, Int.floor_neg, neg_neg]

@[simp] theorem fpZero_toRat? (f : Format) : (fpZero f).toRat? = some 0 := by
  rw [fpZero, Datum.toRat?_fin]
  simp

/-- A finite value of the format (spec R9). -/
theorem Datum.isReal_iff (f : Format) (x : Datum) :
    x.isReal f = true ↔ x.inFormat f = true ∧ ∃ q, x.toRat? = some q := by
  rw [Datum.isReal, Bool.and_eq_true, Datum.isFinite_iff, and_comm]

/-- A positive finite value of the format (spec R9). -/
theorem Datum.isPositive_iff (f : Format) (x : Datum) :
    x.isPositive f = true ↔ x.inFormat f = true ∧ ∃ q, x.toRat? = some q ∧ 0 < q := by
  rw [Datum.isPositive, Bool.and_eq_true, Datum.isReal_iff]
  constructor
  · rintro ⟨⟨hf, q, hq⟩, hlt⟩
    exact ⟨hf, q, hq, (Datum.lt_iff (fpZero_toRat? f) hq).1 hlt⟩
  · rintro ⟨hf, q, hq, hpos⟩
    exact ⟨⟨hf, q, hq⟩, (Datum.lt_iff (fpZero_toRat? f) hq).2 hpos⟩

/-! ## Powers of two and the magnitude of a fraction -/

/-- An integer power of two as the fraction of the two natural powers the model scales by. -/
theorem two_zpow_eq_div (k : Int) : (2 : Rat) ^ k = 2 ^ k.toNat / 2 ^ (-k).toNat := by
  rw [← zpow_natCast, ← zpow_natCast, ← zpow_sub₀ (by norm_num)]
  congr 1
  omega

theorem ratioLog2_bounds {n d : Nat} (hn : 0 < n) (hd : 0 < d) :
    (2 : Rat) ^ ratioLog2 n d ≤ n / d ∧ (n : Rat) / d < 2 ^ (ratioLog2 n d + 1) := by
  have hd' : (0 : Rat) < d := by exact_mod_cast hd
  have n_low : (2 : Rat) ^ (n.log2 : Int) ≤ n := by
    rw [zpow_natCast]
    exact_mod_cast Nat.log2_self_le hn.ne'
  have n_high : (n : Rat) < 2 ^ ((n.log2 : Int) + 1) := by
    exact_mod_cast Nat.lt_log2_self (n := n)
  have d_low : (2 : Rat) ^ (d.log2 : Int) ≤ d := by
    rw [zpow_natCast]
    exact_mod_cast Nat.log2_self_le hd.ne'
  have d_high : (d : Rat) < 2 ^ ((d.log2 : Int) + 1) := by
    exact_mod_cast Nat.lt_log2_self (n := d)
  have compare (k : Int) : d * 2 ^ k.toNat ≤ n * 2 ^ (-k).toNat ↔ (2 : Rat) ^ k ≤ n / d := by
    rw [two_zpow_eq_div, div_le_div_iff₀ (by positivity) hd', mul_comm _ (d : Rat)]
    exact_mod_cast Iff.rfl
  have upper : (n : Rat) / d < 2 ^ ((n.log2 : Int) - d.log2 + 1) := by
    rw [div_lt_iff₀ hd']
    calc (n : Rat) < 2 ^ ((n.log2 : Int) + 1) := n_high
      _ = 2 ^ ((n.log2 : Int) - d.log2 + 1) * 2 ^ (d.log2 : Int) := by
        rw [← zpow_add₀ (by norm_num)]
        congr 1
        omega
      _ ≤ _ := by gcongr
  have lower : (2 : Rat) ^ ((n.log2 : Int) - d.log2 - 1) ≤ n / d := by
    rw [le_div_iff₀ hd']
    calc (2 : Rat) ^ ((n.log2 : Int) - d.log2 - 1) * d
        ≤ 2 ^ ((n.log2 : Int) - d.log2 - 1) * 2 ^ ((d.log2 : Int) + 1) := by gcongr
      _ = 2 ^ (n.log2 : Int) := by
        rw [← zpow_add₀ (by norm_num)]
        congr 1
        omega
      _ ≤ n := n_low
  simp only [ratioLog2, compare]
  split
  next h => exact ⟨h, upper⟩
  next h => exact ⟨lower, by simpa using h⟩

/-! ## Rounding to an integer -/

/-- `r` is the integer nearest to `x`, the even one of two. -/
structure NearestEven (x : Rat) (r : Nat) : Prop where
  near : |(r : Rat) - x| ≤ 1 / 2
  tie : |(r : Rat) - x| = 1 / 2 → r % 2 = 0

theorem roundDiv_nearestEven (n : Nat) {d : Nat} (hd : 0 < d) :
    NearestEven ((n : Rat) / d) (roundDiv n d) := by
  have hd' : (0 : Rat) < d := by exact_mod_cast hd
  have split_n : (n : Rat) / d = (n / d : Nat) + (n % d : Nat) / d := by
    rw [div_eq_iff hd'.ne', add_mul, div_mul_cancel₀ _ hd'.ne']
    exact_mod_cast (Nat.div_add_mod' n d).symm
  have rem_lt : ((n % d : Nat) : Rat) / d < 1 := by
    rw [div_lt_one hd']
    exact_mod_cast Nat.mod_lt n hd
  have rem_nonneg : (0 : Rat) ≤ (n % d : Nat) / d := by positivity
  have above : 2 * (n % d) > d ↔ (1 : Rat) / 2 < (n % d : Nat) / d := by
    rw [div_lt_div_iff₀ (by norm_num) hd', one_mul, mul_comm _ (2 : Rat)]
    exact_mod_cast Iff.rfl
  have halfway : 2 * (n % d) = d ↔ ((n % d : Nat) : Rat) / d = 1 / 2 := by
    rw [div_eq_div_iff hd'.ne' (by norm_num), one_mul, mul_comm _ (2 : Rat)]
    exact_mod_cast Iff.rfl
  rw [split_n, roundDiv]
  simp only [above, halfway]
  generalize ((n % d : Nat) : Rat) / d = t at *
  generalize n / d = k
  split
  next up =>
    have gap : |((k + 1 : Nat) : Rat) - (k + t)| = 1 - t := by
      push_cast
      rw [abs_of_nonneg] <;> linarith
    exact ⟨by linarith, fun h => by linarith⟩
  next notUp =>
    split
    next half =>
      subst half
      rcases Nat.mod_two_eq_zero_or_one k with even | odd
      · rw [even, add_zero]
        exact ⟨by norm_num, fun _ => even⟩
      · rw [odd]
        exact ⟨by push_cast; norm_num [add_sub_add_left_eq_sub], fun _ => by omega⟩
    next notHalf =>
      have gap : |(k : Rat) - (k + t)| = t := by
        rw [sub_add_cancel_left, abs_neg, abs_of_nonneg rem_nonneg]
      exact ⟨by linarith, fun h => absurd (gap ▸ h) notHalf⟩

section
variable {x : Rat} {r : Nat} (h : NearestEven x r)
include h

/-- Every other integer is at least as far, and as far only from an even one. -/
theorem NearestEven.le_dist {z : Int} (hz : (z : Rat) ≠ r) :
    |(r : Rat) - x| ≤ |(z : Rat) - x| ∧ (|(z : Rat) - x| = |(r : Rat) - x| → r % 2 = 0) := by
  have apart : (1 : Rat) ≤ |(z : Rat) - r| := by
    have : (1 : Int) ≤ |z - r| := Int.one_le_abs (sub_ne_zero.2 (by exact_mod_cast hz))
    exact_mod_cast this
  have detour : |(z : Rat) - r| ≤ |(z : Rat) - x| + |(r : Rat) - x| := by
    rw [abs_sub_comm (r : Rat) x]
    exact abs_sub_le _ _ _
  have near := h.near
  exact ⟨by linarith, fun heq => h.tie (by linarith)⟩

theorem NearestEven.le_of_lt {k : Nat} (hx : x < k) : r ≤ k := by
  have near := (abs_le.1 h.near).2
  have : (r : Rat) < (k + 1 : Nat) := by push_cast; linarith
  exact Nat.lt_succ_iff.1 (by exact_mod_cast this)

theorem NearestEven.le_of_le {k : Nat} (hx : (k : Rat) ≤ x) : k ≤ r := by
  have near := (abs_le.1 h.near).1
  have : (k : Rat) < (r + 1 : Nat) := by push_cast; linarith
  exact Nat.lt_succ_iff.1 (by exact_mod_cast this)

/-- A number below an even `k` is rounded up to it from half a unit below it on. -/
theorem NearestEven.eq_iff {k : Nat} (even : k % 2 = 0) (hx : x < k) :
    r = k ↔ (k : Rat) - 1 / 2 ≤ x := by
  obtain ⟨low, high⟩ := abs_le.1 h.near
  constructor
  · rintro rfl
    linarith
  · intro hge
    by_contra hne
    have below : r + 1 ≤ k := lt_of_le_of_ne (h.le_of_lt hx) hne
    have below' : (r : Rat) + 1 ≤ k := by exact_mod_cast below
    have reach : (k : Rat) ≤ r + 1 := by linarith
    have next : k = r + 1 := le_antisymm (by exact_mod_cast reach) below
    have : r % 2 = 0 := h.tie (by rw [abs_of_nonpos] <;> linarith)
    omega

end

/-! ## The quantum of a number and the values of a format -/

/-- `2^q` is the quantum of the format at the positive number `x`. -/
structure IsQuantum (f : Format) (x : Rat) (q : Int) : Prop where
  least : f.etiny ≤ q
  below : x < 2 ^ (q + f.prec)
  normal : q = f.etiny ∨ (2 : Rat) ^ (q + f.prec - 1) ≤ x

/-- The quantum that `roundQ` takes. -/
theorem isQuantum_max (f : Format) {x : Rat} {k : Int} (low : (2 : Rat) ^ k ≤ x)
    (high : x < 2 ^ (k + 1)) : IsQuantum f x (max (k + 1 - f.prec) f.etiny) where
  least := le_max_right _ _
  below := high.trans_le (zpow_le_zpow_right₀ (by norm_num) (by omega))
  normal := by
    rcases le_total (k + 1 - f.prec) f.etiny with h | h
    · exact .inl (max_eq_right h)
    · right
      rw [max_eq_left h]
      exact low.trans' (zpow_le_zpow_right₀ (by norm_num) (by omega))

theorem two_zpow_add_natCast (q : Int) (n : Nat) : (2 : Rat) ^ (q + n) = 2 ^ n * 2 ^ q := by
  rw [zpow_add₀ (by norm_num), zpow_natCast, mul_comm]

/-- The values of a format are multiples of the quantum or below the binade of the number. -/
theorem IsQuantum.multiple_or_below {f : Format} {x : Rat} {q : Int} (h : IsQuantum f x q)
    {y : Datum} {w : Rat} (hy : y.inFormat f = true) (hw : y.toRat? = some w) :
    (∃ z : Int, w = z * 2 ^ q) ∨ (w < 2 ^ (q + f.prec - 1) ∧ (2 : Rat) ^ (q + f.prec - 1) ≤ x) := by
  obtain ⟨s, m, e, rfl, rfl⟩ := Datum.toRat?_eq_some hw
  obtain ⟨hm, he, -, -⟩ := (Datum.inFormat_fin f s m e).1 hy
  rcases le_or_gt q e with hqe | hqe
  · exact .inl ⟨signedMant s m e q, (signedMant_value s m hqe).symm⟩
  · refine .inr ⟨?_, h.normal.resolve_left (by omega)⟩
    have hm' : (m : Rat) < 2 ^ f.prec := by exact_mod_cast hm
    calc signed s (m * 2 ^ e) ≤ |signed s (m * 2 ^ e)| := le_abs_self _
      _ = m * 2 ^ e := by rw [abs_signed, abs_of_nonneg (by positivity)]
      _ < 2 ^ f.prec * 2 ^ e := by gcongr
      _ = 2 ^ (e + f.prec) := (two_zpow_add_natCast e f.prec).symm
      _ ≤ _ := zpow_le_zpow_right₀ (by norm_num) (by omega)

section
variable {f : Format} {x : Rat} {q : Int} {r : Nat}

theorem IsQuantum.scaled_lt (h : IsQuantum f x q) : x / 2 ^ q < (2 ^ f.prec : Nat) := by
  rw [div_lt_iff₀ (by positivity)]
  push_cast
  rw [← two_zpow_add_natCast]
  exact h.below

theorem two_zpow_binade (hf : 1 ≤ f.prec) (q : Int) :
    (2 : Rat) ^ (q + f.prec - 1) = (2 ^ (f.prec - 1) : Nat) * 2 ^ q := by
  push_cast
  rw [← two_zpow_add_natCast]
  congr 1
  omega

/-- No value of the format is nearer to the number than its nearest multiple of the quantum, and one as
near there is only if that multiple is even. -/
theorem IsQuantum.le_dist (hf : 1 ≤ f.prec) (h : IsQuantum f x q) (hr : NearestEven (x / 2 ^ q) r)
    {y : Datum} {w : Rat} (hy : y.inFormat f = true) (hw : y.toRat? = some w) :
    |(r : Rat) * 2 ^ q - x| ≤ |w - x| ∧
      (w ≠ r * 2 ^ q → |w - x| = |(r : Rat) * 2 ^ q - x| → r % 2 = 0) := by
  have pos : (0 : Rat) < 2 ^ q := by positivity
  have scale (u : Rat) : |u * 2 ^ q - x| = |u - x / 2 ^ q| * 2 ^ q := by
    rw [← abs_of_pos pos, ← abs_mul, abs_of_pos pos, sub_mul, div_mul_cancel₀ _ pos.ne']
  have multiple (z : Int) : |(r : Rat) * 2 ^ q - x| ≤ |(z : Rat) * 2 ^ q - x| ∧
      ((z : Rat) * 2 ^ q ≠ r * 2 ^ q → |(z : Rat) * 2 ^ q - x| = |(r : Rat) * 2 ^ q - x| →
        r % 2 = 0) := by
    by_cases hz : (z : Rat) = r
    · rw [hz]
      exact ⟨le_rfl, fun hne => absurd rfl hne⟩
    · obtain ⟨le, tie⟩ := hr.le_dist hz
      rw [scale, scale]
      exact ⟨by gcongr, fun _ heq => tie (mul_right_cancel₀ pos.ne' heq)⟩
  rcases h.multiple_or_below hy hw with ⟨z, rfl⟩ | ⟨hlt, hle⟩
  · exact multiple z
  · have binade := (multiple (2 ^ (f.prec - 1) : Nat)).1
    rw [Int.cast_natCast, ← two_zpow_binade hf] at binade
    have farther : |(2 : Rat) ^ (q + f.prec - 1) - x| < |w - x| := by
      rw [abs_of_nonpos (by linarith), abs_of_neg (by linarith)]
      linarith
    exact ⟨by linarith, fun _ heq => by linarith⟩

/-- The rounded significand is at most the one that carries, and has all its bits above the least
exponent. -/
theorem IsQuantum.significand (hf : 1 ≤ f.prec) (h : IsQuantum f x q)
    (hr : NearestEven (x / 2 ^ q) r) : r ≤ 2 ^ f.prec ∧ (2 ^ (f.prec - 1) ≤ r ∨ q = f.etiny) := by
  refine ⟨hr.le_of_lt h.scaled_lt, h.normal.symm.imp_left fun hle => hr.le_of_le ?_⟩
  rwa [le_div_iff₀ (by positivity), ← two_zpow_binade hf]

/-- Rounding carries out of the significand from half a quantum below the next binade on. -/
theorem IsQuantum.carry_iff (hf : 1 ≤ f.prec) (h : IsQuantum f x q)
    (hr : NearestEven (x / 2 ^ q) r) :
    r = 2 ^ f.prec ↔ (2 : Rat) ^ (q + f.prec) - 2 ^ (q - 1) ≤ x := by
  have even : 2 ^ f.prec % 2 = 0 := Nat.mod_eq_zero_of_dvd (dvd_pow_self 2 (by omega))
  rw [hr.eq_iff even h.scaled_lt, le_div_iff₀ (by positivity), two_zpow_add_natCast,
    zpow_sub_one₀ (by norm_num)]
  push_cast
  rw [sub_mul, one_div, mul_comm (2⁻¹ : Rat)]

end

/-! ## Packing and the rounding of a fraction -/

theorem Format.legal_iff (f : Format) : f.legal = true ↔ 2 ≤ f.prec ∧ 1 ≤ f.emax := by
  simp [Format.legal]

/-- The rounded significand `m` at quantum `2^q` stands for a number too large for the format. -/
def packOverflows (f : Format) (m : Nat) (q : Int) : Prop :=
  (f.emax : Int) + 1 < q + f.prec ∨ (m = 2 ^ f.prec ∧ (f.emax : Int) < q + f.prec)

theorem packDatum_of_overflows {f : Format} (neg : Bool) {m : Nat} {q : Int}
    (h : packOverflows f m q) : packDatum f neg m q = .inf neg := by
  simp only [packDatum]
  rw [if_pos]
  rcases h with h | ⟨hm, h⟩
  · split <;> omega
  · rw [if_pos hm]
    omega

/-- A significand that does not overflow packs to a value of the format, of the same number and with
an even significand if its own was even. -/
theorem packDatum_of_not_overflows {f : Format} (neg : Bool) {m : Nat} {q : Int} (hp : 2 ≤ f.prec)
    (hq : f.etiny ≤ q) (hm : m ≤ 2 ^ f.prec) (full : 2 ^ (f.prec - 1) ≤ m ∨ q = f.etiny)
    (h : ¬ packOverflows f m q) :
    ∃ n e, packDatum f neg m q = .fin neg n e ∧ (Datum.fin neg n e).inFormat f = true ∧
      (n : Rat) * 2 ^ e = m * 2 ^ q ∧ (m % 2 = 0 → n % 2 = 0) := by
  obtain ⟨hmax, hcarry⟩ := not_or.1 h
  by_cases carry : m = 2 ^ f.prec
  · have hmax' : ¬ (f.emax : Int) < q + f.prec := fun hlt => hcarry ⟨carry, hlt⟩
    obtain ⟨p, hpp⟩ : ∃ p, f.prec = p + 1 := ⟨f.prec - 1, by omega⟩
    refine ⟨2 ^ (f.prec - 1), q + 1, ?_, ?_, ?_, fun _ => ?_⟩
    · simp only [packDatum, if_pos carry]
      rw [if_neg (by omega)]
    · exact (Datum.inFormat_fin _ _ _ _).2
        ⟨Nat.pow_lt_pow_right (by norm_num) (by omega), by omega, by omega, .inl le_rfl⟩
    · rw [carry, hpp, zpow_add_one₀ (by norm_num)]
      push_cast
      ring
    · exact Nat.mod_eq_zero_of_dvd (dvd_pow_self 2 (by omega))
  · refine ⟨m, q, ?_, ?_, rfl, id⟩
    · simp only [packDatum, if_neg carry, if_neg hmax]
    · exact (Datum.inFormat_fin _ _ _ _).2 ⟨lt_of_le_of_ne hm carry, hq, by omega, full⟩

theorem overflowAt_pos {f : Format} (hp : 1 ≤ f.prec) : 0 < overflowAt f := by
  rw [overflowAt, sub_pos]
  exact zpow_lt_zpow_right₀ (by norm_num) (by omega)

section
variable {f : Format} {x : Rat} {q : Int} {r : Nat}

/-- A number is rounded out of the format from `overflowAt` on. -/
theorem IsQuantum.overflows_iff (hf : f.legal = true) (h : IsQuantum f x q)
    (hr : NearestEven (x / 2 ^ q) r) : packOverflows f r q ↔ overflowAt f ≤ x := by
  obtain ⟨hp, he⟩ := f.legal_iff.1 hf
  have hp1 : 1 ≤ f.prec := by omega
  have carry := h.carry_iff hp1 hr
  rcases lt_trichotomy (q + f.prec) (f.emax + 1) with low | top | high
  · have small : x < overflowAt f := by
      refine h.below.trans_le (le_sub_iff_add_le.2 ?_)
      calc (2 : Rat) ^ (q + f.prec) + 2 ^ ((f.emax : Int) - f.prec)
          ≤ 2 ^ (f.emax : Int) + 2 ^ (f.emax : Int) :=
            add_le_add (zpow_le_zpow_right₀ (by norm_num) (by omega))
              (zpow_le_zpow_right₀ (by norm_num) (by omega))
        _ = 2 ^ ((f.emax : Int) + 1) := by rw [zpow_add_one₀ (by norm_num), mul_two]
    exact ⟨fun ho => by rcases ho with ho | ho <;> omega, fun hx => absurd hx small.not_ge⟩
  · have : q - 1 = f.emax - f.prec := by omega
    rw [top, this] at carry
    rw [packOverflows, overflowAt, ← carry]
    exact ⟨fun ho => ho.elim (fun hlt => by omega) And.left, fun hm => .inr ⟨hm, by omega⟩⟩
  · have normal := h.normal.resolve_left (by simp only [Format.etiny]; omega)
    refine ⟨fun _ => normal.trans' ?_, fun _ => .inl high⟩
    calc overflowAt f ≤ 2 ^ ((f.emax : Int) + 1) := sub_le_self _ (by positivity)
      _ ≤ _ := zpow_le_zpow_right₀ (by norm_num) (by omega)

/-- Packing the nearest multiple of the quantum rounds the number once. -/
theorem IsQuantum.packDatum_rounded (hf : f.legal = true) (h : IsQuantum f x q) (hx : 0 < x)
    (hr : NearestEven (x / 2 ^ q) r) (neg : Bool) :
    Rounded f (signed neg x) (packDatum f neg r q) := by
  obtain ⟨hp, -⟩ := f.legal_iff.1 hf
  have hp1 : 1 ≤ f.prec := by omega
  obtain ⟨hle, full⟩ := h.significand hp1 hr
  have abs_x : |signed neg x| = x := by rw [abs_signed, abs_of_pos hx]
  have overflows := h.overflows_iff hf hr
  by_cases ho : packOverflows f r q
  · have sign : neg = true ↔ signed neg x < 0 := by cases neg <;> simp [hx, hx.le]
    rw [packDatum_of_overflows neg ho]
    exact
      { representable := rfl
        not_nan := by simp
        overflow := fun s => by
          rw [abs_x, ← sign, and_iff_right (overflows.1 ho), Datum.inf.injEq]
          cases neg <;> cases s <;> decide
        nearest := fun v hv => by simp [Datum.toRat?] at hv
        tie_even := fun s m e v hfin => by simp at hfin }
  · obtain ⟨n, e, hpack, hform, hval, heven⟩ :=
      packDatum_of_not_overflows neg hp h.least hle full ho
    have value : (Datum.fin neg n e).toRat? = some (signed neg (r * 2 ^ q)) := by
      rw [Datum.toRat?_fin, hval]
    have dist : |signed neg (r * 2 ^ q) - signed neg x| = |(r : Rat) * 2 ^ q - x| := by
      rw [abs_sub_signed, signed_signed]
    rw [hpack]
    exact
      { representable := hform
        not_nan := by simp
        overflow := fun s => by
          rw [abs_x, ← overflows]
          exact ⟨fun hinf => by simp at hinf, fun hand => absurd hand.1 ho⟩
        nearest := fun v hv y w hy hw => by
          obtain rfl : signed neg (r * 2 ^ q) = v := Option.some_inj.1 (value ▸ hv)
          obtain ⟨z, hz, hzw⟩ := Datum.exists_signed neg hy hw
          rw [dist, abs_sub_signed]
          exact (h.le_dist hp1 hr hz hzw).1
        tie_even := fun s m g v hfin hv y w hy hw hne heq => by
          obtain rfl : signed neg (r * 2 ^ q) = v := Option.some_inj.1 (value ▸ hv)
          obtain ⟨rfl, rfl, rfl⟩ := Datum.fin.inj hfin
          obtain ⟨z, hz, hzw⟩ := Datum.exists_signed neg hy hw
          rw [dist, abs_sub_signed] at heq
          refine heven ((h.le_dist hp1 hr hz hzw).2 (fun hw' => hne ?_) heq)
          rw [← hw', signed_signed] }

end

/-- A zero of the format is the number 0 rounded. -/
theorem rounded_zero {f : Format} (hf : f.legal = true) (neg : Bool) :
    Rounded f 0 (.fin neg 0 f.etiny) := by
  obtain ⟨hp, he⟩ := f.legal_iff.1 hf
  have value : (Datum.fin neg 0 f.etiny).toRat? = some 0 := by
    rw [Datum.toRat?_fin]
    simp
  exact
    { representable := (Datum.inFormat_fin _ _ _ _).2
        ⟨by positivity, le_rfl, by simp only [Format.etiny]; omega, .inr rfl⟩
      not_nan := by simp
      overflow := fun s => by
        have := overflowAt_pos (f := f) (by omega)
        simp [this]
      nearest := fun v hv y w _ _ => by
        obtain rfl : 0 = v := Option.some_inj.1 (value ▸ hv)
        simp
      tie_even := fun s m e v hfin _ _ _ _ _ _ _ => by
        obtain ⟨-, rfl, -⟩ := Datum.fin.inj hfin
        rfl }

/-- `roundQ` rounds its exact fraction once (spec R12, R17). -/
theorem roundQ_rounded {f : Format} (hf : f.legal = true) (neg : Bool) (n : Nat) {d : Nat}
    (hd : 0 < d) (e : Int) : Rounded f (signed neg (n / d * 2 ^ e)) (roundQ f neg n d e) := by
  rcases Nat.eq_zero_or_pos n with rfl | hn
  · simpa [roundQ] using rounded_zero hf neg
  · obtain ⟨low, high⟩ := ratioLog2_bounds hn hd
    have pos : (0 : Rat) < n / d * 2 ^ e := by positivity
    have quantum : IsQuantum f (n / d * 2 ^ e) (max (ratioLog2 n d + e + 1 - f.prec) f.etiny) := by
      apply isQuantum_max
      · rw [zpow_add₀ (by norm_num)]
        gcongr
      · rw [add_right_comm, zpow_add₀ (by norm_num)]
        gcongr
    rw [roundQ, if_neg hn.ne']
    refine quantum.packDatum_rounded hf pos ?_ neg
    generalize max (ratioLog2 n d + e + 1 - f.prec) f.etiny = q
    convert roundDiv_nearestEven (n * 2 ^ (e - q).toNat) (d := d * 2 ^ (-(e - q)).toNat)
      (by positivity) using 1
    rw [mul_div_assoc, ← zpow_sub₀ (by norm_num), two_zpow_eq_div, div_mul_div_comm]
    simp only [Nat.cast_mul, Nat.cast_pow, Nat.cast_ofNat]

/-- `roundQ` of an integer's magnitude and sign rounds the integer times the power of two. -/
theorem roundQ_int_rounded {f : Format} (hf : f.legal = true) {neg : Bool} {i : Int}
    (hneg : i ≠ 0 → neg = decide (i < 0)) (e : Int) :
    Rounded f (i * 2 ^ e) (roundQ f neg i.natAbs 1 e) := by
  have value : (i : Rat) * 2 ^ e = signed neg ((i.natAbs : Nat) / (1 : Nat) * 2 ^ e) := by
    rcases lt_trichotomy i 0 with hi | rfl | hi
    · rw [hneg hi.ne, decide_eq_true hi, signed_true, Nat.cast_natAbs, abs_of_neg hi]
      push_cast
      ring
    · simp
    · rw [hneg hi.ne', decide_eq_false hi.not_gt, signed_false, Nat.cast_natAbs, abs_of_pos hi]
      simp
  rw [value]
  exact roundQ_rounded hf neg i.natAbs one_pos e

/-! ## The primitives -/

section
variable {f : Format} (hf : f.legal = true)
include hf

theorem ofInt_rounded (i : Int) : Rounded f i (ofInt f i) := by
  simpa [ofInt] using roundQ_int_rounded hf (i := i) (fun _ => rfl) 0

theorem ofNat_rounded (n : Nat) : Rounded f n (ofNat f n) := by
  simpa [ofNat] using roundQ_rounded hf false n one_pos 0

theorem keepWeight_rounded : Rounded f (4 / 5) (Machine.keepWeight f) := by
  simpa [Machine.keepWeight] using roundQ_rounded hf false 4 (d := 5) (by norm_num) 0

theorem pullWeight_rounded : Rounded f (1 / 5) (Machine.pullWeight f) := by
  simpa [Machine.pullWeight] using roundQ_rounded hf false 1 (d := 5) (by norm_num) 0

variable {x y : Datum} {p q : Rat} (hx : x.toRat? = some p) (hy : y.toRat? = some q)
include hx

theorem Datum.convert_rounded : Rounded f p (x.convert f) := by
  obtain ⟨s, m, e, rfl, rfl⟩ := Datum.toRat?_eq_some hx
  simpa [Datum.convert] using roundQ_rounded hf s m one_pos e

include hy

theorem fpAdd_rounded : Rounded f (p + q) (fpAdd f x y) := by
  obtain ⟨s, m, e, rfl, rfl⟩ := Datum.toRat?_eq_some hx
  obtain ⟨t, n, g, rfl, rfl⟩ := Datum.toRat?_eq_some hy
  rw [← signedMant_value s m (min_le_left e g), ← signedMant_value t n (min_le_right e g), ← add_mul,
    ← Int.cast_add]
  exact roundQ_int_rounded hf (fun hsum => if_neg hsum) (min e g)

theorem fpSub_rounded : Rounded f (p - q) (fpSub f x y) := by
  rw [sub_eq_add_neg, fpSub]
  exact fpAdd_rounded hf hx (Datum.toRat?_neg hy)

theorem fpMul_rounded : Rounded f (p * q) (fpMul f x y) := by
  obtain ⟨s, m, e, rfl, rfl⟩ := Datum.toRat?_eq_some hx
  obtain ⟨t, n, g, rfl, rfl⟩ := Datum.toRat?_eq_some hy
  have exact : (m : Rat) * 2 ^ e * (n * 2 ^ g) = (m * n : Nat) / (1 : Nat) * 2 ^ (e + g) := by
    rw [zpow_add₀ (by norm_num)]
    push_cast
    ring
  rw [signed_mul, exact]
  exact roundQ_rounded hf (s != t) (m * n) one_pos (e + g)

theorem fpDiv_rounded (hq : q ≠ 0) : Rounded f (p / q) (fpDiv f x y) := by
  obtain ⟨s, m, e, rfl, rfl⟩ := Datum.toRat?_eq_some hx
  obtain ⟨t, n, g, rfl, rfl⟩ := Datum.toRat?_eq_some hy
  have hn : n ≠ 0 := by
    rintro rfl
    simp at hq
  have exact : (m : Rat) * 2 ^ e / (n * 2 ^ g) = m / n * 2 ^ (e - g) := by
    rw [zpow_sub₀ (by norm_num), div_mul_div_comm]
  rw [signed_div, exact, fpDiv, if_neg hn]
  exact roundQ_rounded hf (s != t) m (Nat.pos_of_ne_zero hn) (e - g)

end

/-- Settles O59: every primitive is `roundQ` of the exact result, which rounds once. -/
theorem arithmeticRoundsOnce : Obligations.ArithmeticRoundsOnce := by
  intro f hf
  exact ⟨fun x y p q hx hy => ⟨fpAdd_rounded hf hx hy, fpSub_rounded hf hx hy,
    fpMul_rounded hf hx hy, fpDiv_rounded hf hx hy, Datum.convert_rounded hf hx,
    Datum.lt_iff hx hy⟩, ofNat_rounded hf, ofInt_rounded hf, keepWeight_rounded hf,
    pullWeight_rounded hf⟩

end Sys2Proof
end

section
/-!
PROOFS. The costs of the block decode as naturals: no addition of the Viterbi decoder wraps (spec R16,
R233, R236, R237).
-/

namespace Sys2Proof.Machine

/-- A sum of words is at most the sum of their numbers. -/
theorem toNat_add_le {a b : BitVec 32} {m n : Nat} (ha : a.toNat ≤ m) (hb : b.toNat ≤ n) :
    (a + b).toNat ≤ m + n := by
  rw [BitVec.toNat_add]
  exact (Nat.mod_le _ _).trans (Nat.add_le_add ha hb)

theorem byte_setWidth_le (x : Byte) : (x.setWidth 32).toNat ≤ 255 := by
  rw [BitVec.toNat_setWidth]
  exact (Nat.mod_le _ _).trans (Nat.le_of_lt_succ x.isLt)

/-- Two distances of a byte each (spec R233). -/
theorem branchCost_le (cfg : Params) (pair : Byte × Byte) (p u : Nat) :
    (branchCost cfg pair p u).toNat ≤ 510 :=
  toNat_add_le (byte_setWidth_le _) (byte_setWidth_le _)

section
variable (cfg : Params) (pair : Byte × Byte) (v : Viterbi) (msg : Vector Byte 576) (b : Nat)

/-- A survivor costs at most one branch more than the dearest old state (spec R237). -/
theorem survivor_cost_le {cost : Vector (BitVec 32) 8} {bound : Nat}
    (h : ∀ p : Fin 8, cost[p].toNat ≤ bound) (ns : Fin 8) :
    (survivor cfg cost pair ns).1.toNat ≤ bound + 510 := by
  simp only [survivor]
  split
  · exact toNat_add_le (h _) (branchCost_le ..)
  · exact toNat_add_le (h _) (branchCost_le ..)

/-- The costs after a pair are those of add-compare-select, or the old ones once all bytes are out. -/
theorem decodePair_cost :
    (decodePair cfg msg v b).cost = (addCompareSelect cfg (fetchPair cfg msg b) v).cost ∨
      (decodePair cfg msg v b).cost = v.cost := by
  rw [decodePair]
  split
  · exact .inl (commitWhile_cost_path ..).1
  · exact .inr rfl

theorem decodeUpTo_cost_le (ns : Fin 8) :
    (decodeUpTo cfg msg v b).cost[ns].toNat ≤ 0x7FFFFFFF + 510 * b := by
  induction b generalizing ns with
  | zero =>
    rw [decodeUpTo_zero, viterbiInit_cost_get]
    split <;> simp [largeCost]
  | succ b ih =>
    rw [decodeUpTo_succ]
    rcases decodePair_cost cfg (decodeUpTo cfg msg v b) msg b with h | h
    · rw [h, addCompareSelect_cost_get]
      exact (survivor_cost_le cfg _ ih ns).trans (by omega)
    · rw [h]
      exact (ih ns).trans (by omega)

end

/-- Settles O35, by induction on the pairs. -/
theorem costsDoNotOverflow : Obligations.CostsDoNotOverflow :=
  ⟨branchCost_le, fun cfg msg v b ns _ => decodeUpTo_cost_le cfg v msg b ns⟩

end Sys2Proof.Machine
end

section
/-!
PROOFS. The construction of a channel: which parameters are legal, and the channel of spec R48 that
`CHINIT` leaves (spec R9, R166, R300).
-/

namespace Sys2Proof.Machine

/-! ## The checks of the parameters (spec R9, R10) -/

theorem capLegal_iff (cap : Option Nat) : capLegal cap = true ↔ ∀ m, cap = some m → 1 ≤ m := by
  cases cap <;> simp [capLegal]

theorem biquadLegal_iff (f : Format) (b : Biquad) : biquadLegal f b = true ↔
    ∀ v ∈ [b.b0, b.b1, b.b2, b.a1, b.a2], v.inFormat f = true ∧ ∃ q, v.toRat? = some q := by
  simp only [biquadLegal, Bool.and_eq_true, Datum.isReal_iff, List.forall_mem_cons,
    List.not_mem_nil, false_imp_iff, implies_true, and_true, and_assoc]

theorem interleaveLegal_iff (t : Vector (BitVec 16) 16) :
    interleaveLegal t = true ↔ ∀ n, n < 16 → BitVec.ofNat 16 (2 * n) ∈ t.toList := by
  simp only [interleaveLegal, List.all_eq_true, List.mem_range, List.contains_iff_mem]

/-- The requested frequency is a finite value of the format only if it is presented. -/
theorem channelFreq_isReal_iff (cfg : Params) (c : UnitNo) (f : Format) :
    (channelFreq cfg c).isReal f = true ↔
      ∃ v q, cfg.freq[c.toNat]? = some v ∧ v.inFormat f = true ∧ v.toRat? = some q := by
  rw [Datum.isReal_iff, channelFreq, List.getD_eq_getElem?_getD]
  cases cfg.freq[c.toNat]? with
  | none => simp [Datum.toRat?]
  | some v => simp

theorem channelLegal_iff (cfg : Params) (c : UnitNo) : channelLegal cfg c = true ↔
    (2 ≤ cfg.fpS.prec ∧ 1 ≤ cfg.fpS.emax) ∧ (2 ≤ cfg.fpA.prec ∧ 1 ≤ cfg.fpA.emax) ∧
    (∀ v ∈ [cfg.sampleRate, cfg.off, cfg.bw], v.inFormat cfg.fpA = true ∧
      ∃ q, v.toRat? = some q ∧ 0 < q) ∧
    (∃ v q, cfg.freq[c.toNat]? = some v ∧ v.inFormat cfg.fpA = true ∧ v.toRat? = some q) ∧
    (∀ b ∈ cfg.sos.toList, ∀ v ∈ [b.b0, b.b1, b.b2, b.a1, b.a2],
      v.inFormat cfg.fpS = true ∧ ∃ q, v.toRat? = some q) ∧
    (∀ n, n < 16 → BitVec.ofNat 16 (2 * n) ∈ cfg.interleave.toList) ∧
    cfg.crcOk ≠ 0x00#8 ∧ ∀ m, cfg.tMax = some m → 1 ≤ m := by
  simp only [channelLegal, Bool.and_eq_true, Format.legal_iff, Datum.isPositive_iff,
    channelFreq_isReal_iff, List.all_eq_true, biquadLegal_iff, interleaveLegal_iff, capLegal_iff,
    decide_eq_true_eq, List.forall_mem_cons (a := cfg.sampleRate),
    List.forall_mem_cons (a := cfg.off), List.forall_mem_singleton]
  constructor
  · rintro ⟨⟨⟨⟨⟨⟨⟨⟨⟨hS, hA⟩, hrate⟩, hfreq⟩, hsos⟩, hoff⟩, hbw⟩, htable⟩, hcrc⟩, hcap⟩
    exact ⟨hS, hA, ⟨hrate, hoff, hbw⟩, hfreq, hsos, htable, hcrc, hcap⟩
  · rintro ⟨hS, hA, ⟨hrate, hoff, hbw⟩, hfreq, hsos, htable, hcrc, hcap⟩
    exact ⟨⟨⟨⟨⟨⟨⟨⟨⟨hS, hA⟩, hrate⟩, hfreq⟩, hsos⟩, hoff⟩, hbw⟩, htable⟩, hcrc⟩, hcap⟩

/-- With legal parameters the delay is a positive number. -/
theorem off_pos_of_legal {cfg : Params} {c : UnitNo} (h : channelLegal cfg c = true) :
    ∃ off, cfg.off.toRat? = some off ∧ 0 < off := by
  obtain ⟨-, -, positive, -⟩ := (channelLegal_iff cfg c).1 h
  exact (positive cfg.off (by simp)).2

/-! ## `CHINIT` (spec R300, R48) -/

/-- `ceil(OFF)` is the ceiling of the number `OFF` (spec R166). -/
theorem delayCeil_eq {cfg : Params} {off : Rat} (h : cfg.off.toRat? = some off) :
    delayCeil cfg = ⌈off⌉₊ := by
  rw [delayCeil, Datum.ceil?_eq h, Option.getD_some, Int.ceil_toNat]

section
variable {s : State} {c : UnitNo} (hs : s.served c)
include hs

theorem exec_chinit_legal (h : channelLegal s.cfg c = true) :
    exec (.chinit c) s = .next { s with
      ch := s.ch.set c.toNat (freshChannel s.cfg c s.free (s.chan c)) c.isLt
      status := s.status ++ (if (searchPeriod s.cfg (channelFreq s.cfg c)).best.isZero then []
        else [eventWord .cfgAdjust c])
      free := s.free + 1, rsp := .nothing } := by
  simp only [exec, execChinit, State.consumerRefusal_served hs, h, if_true]
  have warn : (freshChannel s.cfg c s.free (s.chan c)).cfgWarn
      = !(searchPeriod s.cfg (channelFreq s.cfg c)).best.isZero := rfl
  rw [warn]
  cases (searchPeriod s.cfg (channelFreq s.cfg c)).best.isZero
  · rfl
  · simp [State.answer, State.setChan, State.setFree]

theorem exec_chinit_illegal (h : channelLegal s.cfg c = false) :
    exec (.chinit c) s = .next (s.refuse .badConfig c) := by
  simp [exec, execChinit, State.consumerRefusal_served hs, h]

end

/-- Settles O10: `C` is the ceiling of `OFF`, and the channel of R48 is `freshChannel`. -/
theorem chinitConstructs : Obligations.ChinitConstructs := by
  intro s c hs
  refine ⟨channelLegal_iff s.cfg c, fun hlegal => ?_, exec_chinit_illegal hs⟩
  obtain ⟨off, hoff, hpos⟩ := off_pos_of_legal hlegal
  have hceil := delayCeil_eq hoff
  refine ⟨off, delayCeil s.cfg, hoff, hceil ▸ Nat.le_ceil off,
    hceil ▸ Nat.ceil_lt_add_one hpos.le, ?_⟩
  exact ⟨_, _, _, _, exec_chinit_legal hs hlegal⟩

end Sys2Proof.Machine
end

section
/-!
PROOFS. What an earlier block decode left in the working state does not reach the frame: two decodes
of one `msg` agree on everything but the bytes of `out` that are not committed yet, and in the end all
34 are committed (spec R35, R236, R238, R246).
-/

namespace Sys2Proof.Machine

/-- Two working states differ at most in the double buffer and in the bytes of `out` from `nout` on. -/
structure Viterbi.SameSoFar (v w : Viterbi) : Prop where
  cost : v.cost = w.cost
  path : v.path = w.path
  o : v.o = w.o
  nout : v.nout = w.nout
  crc : v.crc = w.crc
  out : ∀ i, i < v.nout → v.out[i]? = w.out[i]?

section
variable (cfg : Params) (msg : Vector Byte 576) (v w : Viterbi) (b : Nat)

/-- `Init()` writes all that is read before it is written again (spec R236). -/
theorem viterbiInit_sameSoFar : (viterbiInit v).SameSoFar (viterbiInit w) where
  cost := rfl
  path := rfl
  o := rfl
  nout := rfl
  crc := rfl
  out := fun _ hi => absurd hi (Nat.not_lt_zero _)

variable {v w}

theorem Viterbi.SameSoFar.addCompareSelect (h : v.SameSoFar w) (pair : Byte × Byte) :
    (addCompareSelect cfg pair v).SameSoFar (addCompareSelect cfg pair w) where
  cost := by simp only [Machine.addCompareSelect, h.cost]
  path := by simp only [Machine.addCompareSelect, h.cost, h.path]
  o := h.o
  nout := h.nout
  crc := h.crc
  out := h.out

/-- The byte committed is the same, at the same place. -/
theorem Viterbi.SameSoFar.commitByte (h : v.SameSoFar w) :
    (commitByte cfg b v).SameSoFar (commitByte cfg b w) where
  cost := h.cost
  path := h.path
  o := congrArg (· + 8) h.o
  nout := congrArg (· + 1) h.nout
  crc := by simp only [Machine.commitByte, h.cost, h.path, h.o, h.nout, h.crc]
  out := fun i hi => by
    have hi : i < v.nout ∨ v.nout = i := by
      rw [commitByte_nout] at hi
      omega
    simp only [Machine.commitByte, ← h.cost, ← h.path, ← h.o, ← h.nout,
      Vector.getElem?_setIfInBounds]
    rcases hi with hi | rfl
    · rw [if_neg hi.ne', if_neg hi.ne', h.out i hi]
    · simp only [if_true]

theorem Viterbi.SameSoFar.commitWhile (h : v.SameSoFar w) (n : Nat) :
    (commitWhile cfg b n v).SameSoFar (commitWhile cfg b n w) := by
  induction n generalizing v w with
  | zero => exact h
  | succ n ih =>
    simp only [Machine.commitWhile, ← h.nout, ← h.o]
    split
    · exact ih (h.commitByte cfg b)
    · exact h

theorem Viterbi.SameSoFar.decodePair (h : v.SameSoFar w) :
    (decodePair cfg msg v b).SameSoFar (decodePair cfg msg w b) := by
  simp only [Machine.decodePair, ← h.nout]
  split
  · exact (h.addCompareSelect cfg _).commitWhile cfg b _
  · exact h

variable (v w)

theorem decodeUpTo_sameSoFar :
    (decodeUpTo cfg msg v b).SameSoFar (decodeUpTo cfg msg w b) := by
  induction b with
  | zero => exact viterbiInit_sameSoFar v w
  | succ b ih =>
    rw [decodeUpTo_succ, decodeUpTo_succ]
    exact ih.decodePair cfg msg b

end

/-! ## All bytes are committed in the end (spec R238, R245) -/

/-- Each byte committed is eight bits taken, and no more than 34 are (spec R238, R240). -/
structure Viterbi.Counted (v : Viterbi) : Prop where
  bits : v.o = 8 * v.nout
  bytes : v.nout ≤ 34

section
variable (cfg : Params) (msg : Vector Byte 576) (b : Nat) {v : Viterbi}

theorem Viterbi.Counted.commitByte (h : v.Counted) (hlt : v.nout < 34) :
    (commitByte cfg b v).Counted where
  bits := by rw [commitByte_o, commitByte_nout, h.bits, Nat.mul_succ]
  bytes := by rw [commitByte_nout]; exact hlt

theorem Viterbi.Counted.commitWhile (h : v.Counted) (n : Nat) : (commitWhile cfg b n v).Counted := by
  induction n generalizing v with
  | zero => exact h
  | succ n ih =>
    rw [Machine.commitWhile]
    split
    next due =>
      rw [Bool.and_eq_true, decide_eq_true_eq] at due
      exact ih (h.commitByte cfg b due.1)
    next => exact h

theorem Viterbi.Counted.addCompareSelect (h : v.Counted) (pair : Byte × Byte) :
    (addCompareSelect cfg pair v).Counted := ⟨h.bits, h.bytes⟩

theorem Viterbi.Counted.decodePair (h : v.Counted) : (decodePair cfg msg v b).Counted := by
  rw [Machine.decodePair]
  split
  · exact (h.addCompareSelect cfg _).commitWhile cfg b _
  · exact h

theorem decodeUpTo_counted (v : Viterbi) : (decodeUpTo cfg msg v b).Counted := by
  induction b with
  | zero => exact ⟨rfl, Nat.zero_le _⟩
  | succ b ih =>
    rw [decodeUpTo_succ]
    exact ih.decodePair cfg msg b

/-- At the last pair a commit is due until all 34 bytes are out. -/
theorem Viterbi.Counted.commitWhile_last (h : v.Counted) (n : Nat) (hn : 34 ≤ v.nout + n) :
    (Machine.commitWhile cfg 287 n v).nout = 34 := by
  induction n generalizing v with
  | zero => exact le_antisymm h.bytes hn
  | succ n ih =>
    by_cases hlt : v.nout < 34
    · have due : (decide (v.nout < outLen) && commitDue 287 v.o) = true := by
        have hbits := h.bits
        rw [Bool.and_eq_true, commitDue, Bool.or_eq_true, Bool.and_eq_true]
        exact ⟨decide_eq_true hlt, .inr ⟨decide_eq_true rfl, decide_eq_true (by omega)⟩⟩
      rw [commitWhile_due _ _ _ _ due]
      exact ih (h.commitByte cfg 287 hlt) (by rw [commitByte_nout]; omega)
    · rw [commitWhile_none _ _ _ _ (by simp [outLen, hlt])]
      exact le_antisymm h.bytes (not_lt.1 hlt)

theorem decodeUpTo_all_nout (v : Viterbi) : (decodeUpTo cfg msg v 288).nout = 34 := by
  have before := decodeUpTo_counted cfg msg 287 v
  rw [decodeUpTo_succ, decodePair]
  split
  · exact (before.addCompareSelect cfg _).commitWhile_last cfg outLen (Nat.le_add_left _ _)
  next h => exact le_antisymm before.bytes (not_lt.1 h)

end

/-- After all 288 pairs the two working states hold the same bytes and the same CRC. -/
theorem decodePairs_out_crc (cfg : Params) (msg : Vector Byte 576) (v w : Viterbi) :
    (decodePairs cfg msg v).out = (decodePairs cfg msg w).out ∧
      (decodePairs cfg msg v).crc = (decodePairs cfg msg w).crc := by
  have same : (decodePairs cfg msg v).SameSoFar (decodePairs cfg msg w) :=
    decodeUpTo_sameSoFar cfg msg v w 288
  have all : (decodePairs cfg msg v).nout = 34 := decodeUpTo_all_nout cfg msg v
  refine ⟨Vector.ext fun i hi => ?_, same.crc⟩
  have h := same.out i (all ▸ hi)
  rwa [Vector.getElem?_eq_getElem hi, Vector.getElem?_eq_getElem hi, Option.some_inj] at h

/-- Settles O33: the frame is read off the committed bytes and the CRC. -/
theorem frameDependsOnMsgOnly : Obligations.FrameDependsOnMsgOnly := by
  intro cfg c msg v v'
  obtain ⟨out, crc⟩ := decodePairs_out_crc cfg msg v v'
  simp only [decodeBlock, finaliseOut, out, crc]

end Sys2Proof.Machine
end

section
/-!
PROOFS. What the Splitter's shared operations leave of the producer, and the producer's push in one form
(spec R308): the block it holds is given up and pushed, and the answer decides whether it goes on.
-/

namespace Sys2Proof.Machine

theorem State.pushBlock_prod (s : State) (blk : Block) : (s.pushBlock blk).prod = s.prod := by
  rcases s.pushBlock_cases blk with ⟨-, h⟩ | ⟨-, -, h⟩ | ⟨-, -, -, h⟩ | ⟨-, -, -, -, h⟩ |
    ⟨-, -, -, -, h⟩ <;> rw [h] <;> rfl

theorem State.pushBlock_constructed (s : State) (blk : Block) :
    (s.pushBlock blk).sp.constructed = s.sp.constructed := by
  rcases s.pushBlock_cases blk with ⟨-, h⟩ | ⟨-, -, h⟩ | ⟨-, -, -, h⟩ | ⟨-, -, -, -, h⟩ |
    ⟨-, -, -, -, h⟩ <;> rw [h] <;> rfl

theorem State.closeStream_prod (s : State) : s.closeStream.prod = s.prod := by
  rcases s.closeStream_cases with ⟨-, h⟩ | ⟨-, h⟩ <;> rw [h]
  rfl

theorem State.setProducer_eq_self {s : State} {p : Producer} (h : s.prod = p) :
    s.setProducer p = s := by
  rw [← h]
  rfl

/-- Everything the producer's push can be: nothing, or the push of the block it held, an answer, and
the producer stopped or not. -/
theorem State.pushHeld_eq (s : State) :
    s.pushHeld = s ∨
    ∃ blk stopped r, s.prod.held = some blk ∧
      s.pushHeld = (((s.setProducer { s.prod with held := none }).pushBlock blk).setProducer
        ⟨none, stopped⟩).answer r := by
  rcases pushHeld_cases s with ⟨-, h⟩ | ⟨blk, hb, ⟨-, h⟩ | ⟨-, h⟩ | ⟨-, -, h⟩⟩
  · exact .inl h
  · exact .inr ⟨blk, true, .stopped, hb, h⟩
  all_goals
    have kept := State.setProducer_eq_self
      ((s.setProducer { s.prod with held := none }).pushBlock_prod blk)
  · exact .inr ⟨blk, s.prod.stopped, .running, hb, 
      h.trans (congrArg (fun u => u.answer .running) kept.symm)⟩
  · exact .inr ⟨blk, s.prod.stopped, _, hb, h.trans kept.symm⟩

theorem State.pushHeld_constructed (s : State) :
    s.pushHeld.sp.constructed = s.sp.constructed := by
  rcases s.pushHeld_eq with h | ⟨blk, stopped, r, -, h⟩
  · rw [h]
  · rw [h]
    exact (s.setProducer _).pushBlock_constructed blk

end Sys2Proof.Machine
end

section
/-!
PROOFS. What an operation leaves alone (spec R20, R278, R314): the channel, the engine, the cursor and
the frames of every other unit, and for an operation that uses a channel the Splitter. One lemma for
each operation on the state, then one case for each operation of the hardware.
-/

namespace Sys2Proof.Machine

/-- Nothing of unit `d` differs between the two states. -/
structure State.SameUnit (d : UnitNo) (s t : State) : Prop where
  chan : t.chan d = s.chan d
  engine : t.engine d = s.engine d
  cursor : t.sp.cursor[d.toNat]? = s.sp.cursor[d.toNat]?
  frames : t.sink.filter (fun f => f.channelId = d) = s.sink.filter (fun f => f.channelId = d)

namespace State.SameUnit

theorem refl (d : UnitNo) (s : State) : s.SameUnit d s := ⟨rfl, rfl, rfl, rfl⟩

/-! ## The operations on the state -/

section
variable {s t : State} {c d : UnitNo} (h : s.SameUnit d t)
include h

theorem answer (r : Response) : s.SameUnit d (t.answer r) :=
  ⟨h.chan, h.engine, h.cursor, h.frames⟩

theorem raise (e : Event) (u : UnitNo) : s.SameUnit d (t.raise e u) :=
  ⟨h.chan, h.engine, h.cursor, h.frames⟩

theorem refuse (e : Event) (u : UnitNo) : s.SameUnit d (t.refuse e u) := (h.raise e u).answer _

theorem setProducer (p : Producer) : s.SameUnit d (t.setProducer p) :=
  ⟨h.chan, h.engine, h.cursor, h.frames⟩

theorem setSplitter {sp : Splitter} (hsp : sp.cursor[d.toNat]? = t.sp.cursor[d.toNat]?) :
    s.SameUnit d (t.setSplitter sp) :=
  ⟨h.chan, h.engine, hsp.trans h.cursor, h.frames⟩

theorem setChan (hd : d ≠ c) (k : Channel) : s.SameUnit d (t.setChan c k) :=
  ⟨(State.setChan_chan_ne t c d k hd).trans h.chan, h.engine, h.cursor, h.frames⟩

theorem setEngine (hd : d ≠ c) (e : Engine) : s.SameUnit d (t.setEngine c e) :=
  ⟨h.chan, (State.setEngine_engine_ne t c d e hd).trans h.engine, h.cursor, h.frames⟩

theorem begin (hd : d ≠ c) (ts : List Piece) : s.SameUnit d (t.begin c ts) := h.setEngine hd _

theorem wait (hd : d ≠ c) (i : Instr) : s.SameUnit d (t.wait c i) := h.begin hd _

theorem endEngine (hd : d ≠ c) : s.SameUnit d (t.endEngine c) := h.setEngine hd _

/-- Frames of another unit do not show (spec R117). -/
theorem send (hd : d ≠ c) {fs : List Frame} (hfs : ∀ f ∈ fs, f.channelId = c) :
    s.SameUnit d (t.send c fs) where
  chan := h.chan
  engine := h.engine
  cursor := h.cursor
  frames := by
    have none : fs.filter (fun f => f.channelId = d) = [] :=
      List.filter_eq_nil_iff.2 fun f hf => by simpa [hfs f hf] using hd.symm
    rw [State.send_sink, List.filter_append, none, List.append_nil, h.frames]

theorem finish (hd : d ≠ c) (i : Instr) (k : Channel) {fs : List Frame}
    (hfs : ∀ f ∈ fs, f.channelId = c) : s.SameUnit d (t.finish c i k fs) := by
  rcases t.finish_cases c i k fs with ⟨-, e⟩ | ⟨-, -, e⟩ <;> rw [e]
  · exact ((h.setChan hd k).send hd hfs).answer _
  · exact h.wait hd i

theorem advance (hd : d ≠ c) : s.SameUnit d (t.setSplitter (t.sp.advance c)) :=
  h.setSplitter (List.getElem?_set_ne (unit_toNat_ne c d hd))

/-! ## The producer's side, which belongs to no unit -/

theorem pushBlock (blk : Block) : s.SameUnit d (t.pushBlock blk) := by
  rcases t.pushBlock_cases blk with ⟨-, e⟩ | ⟨-, -, e⟩ | ⟨-, -, -, e⟩ | ⟨-, -, -, -, e⟩ |
    ⟨-, -, -, -, e⟩ <;> rw [e]
  · exact h.refuse _ _
  · exact h.refuse _ _
  · exact (h.raise _ _).answer _
  · exact h.refuse _ _
  · exact ⟨h.chan, h.engine, h.cursor, h.frames⟩

theorem closeStream : s.SameUnit d t.closeStream := by
  rcases t.closeStream_cases with ⟨-, e⟩ | ⟨-, e⟩ <;> rw [e]
  · exact h
  · exact (h.setSplitter (sp := t.sp.shut) rfl).raise _ _

theorem pushHeld : s.SameUnit d t.pushHeld := by
  rcases t.pushHeld_eq with e | ⟨blk, stopped, r, -, e⟩ <;> rw [e]
  · exact h
  · exact (((h.setProducer _).pushBlock blk).setProducer _).answer _

theorem pumpRead : s.SameUnit d t.pumpRead := by
  rcases pumpRead_cases t with ⟨-, e⟩ | ⟨-, -, e⟩ | ⟨-, -, -, e⟩ | ⟨-, -, -, e⟩ <;> rw [e]
  · exact h.answer _
  · rw [pumpClosed_eq]
    exact ⟨h.chan, h.engine, h.cursor, h.frames⟩
  · exact (h.closeStream.setProducer _).answer _
  · exact (h.setProducer _).answer _

end

end State.SameUnit

/-! ## The frames of a channel carry its number (spec R117) -/

section
variable (cfg : Params) (c : UnitNo)

theorem fecdecChannel_channelId (k : Channel) : (fecdecChannel cfg c k).2.channelId = c := by
  rw [fecdecChannel_eq]
  rfl

theorem bufferStep_channelId (v : Bool) (k : Channel) :
    ∀ f ∈ (bufferStep cfg c v k).2, f.channelId = c := by
  by_cases last : k.outCursor + 1 = 576
  · rw [bufferStep_last _ _ _ _ last]
    exact List.forall_mem_singleton.2 rfl
  · rw [bufferStep_early _ _ _ _ last]
    exact List.forall_mem_nil _

theorem takeBit_channelId (v : Bool) (k : Channel) :
    ∀ f ∈ (takeBit cfg c v k).2, f.channelId = c := by
  cases hm : k.mode with
  | syncing =>
    rw [takeBit_syncing _ _ _ _ hm]
    exact List.forall_mem_nil _
  | buffering =>
    rw [takeBit_buffering _ _ _ _ hm]
    exact bufferStep_channelId cfg c v k

theorem fecbitChannel_channelId (k : Channel) :
    ∀ f ∈ (fecbitChannel cfg c k).2, f.channelId = c := by
  cases hq : k.bq with
  | nil =>
    simp only [fecbitChannel, hq]
    exact List.forall_mem_nil _
  | cons v rest =>
    rw [fecbitChannel_cons _ _ _ _ hq]
    exact takeBit_channelId cfg c v _

end

/-! ## The operations -/

section
variable {i : Instr} {s t : State} {c d : UnitNo}

/-- A stage operation writes its own channel only. -/
theorem onChannel_sameUnit {f : Channel → Channel} (h : s.onChannel c f = .next t) (hd : d ≠ c) :
    s.SameUnit d t := by
  rcases onChannel_cases h with ⟨e, rfl⟩ | ⟨-, rfl⟩
  · exact (State.SameUnit.refl d s).refuse e c
  · exact ((State.SameUnit.refl d s).setChan hd _).answer _

theorem exec_sameUnit (hi : i ≠ .spinit) (h : exec i s = .next t) (hd : i.unit? ≠ some d) :
    s.SameUnit d t := by
  have same := State.SameUnit.refl d s
  have other : ∀ c, i.unit? = some c → d ≠ c := fun c hc hdc => hd (hdc ▸ hc)
  cases i with
  | spinit => exact absurd rfl hi
  | chinit c =>
    rcases chinit_cases h with ⟨e, rfl⟩ | ⟨-, -, rfl⟩
    · exact same.refuse e c
    · have set := same.setChan (other c rfl) (freshChannel s.cfg c s.free (s.chan c))
      exact ⟨set.chan, set.engine, set.cursor, set.frames⟩
  | push =>
    rcases push_cases h with rfl | ⟨-, rfl⟩
    · exact same.refuse _ _
    · exact same.pushBlock _
  | get c =>
    rcases get_cases h with ⟨e, rfl⟩ | ⟨-, -, rfl⟩ | ⟨-, -, -, rfl⟩ | ⟨-, -, -, rfl⟩
    · exact same.refuse e c
    · exact same.answer _
    · exact (same.endEngine (other c rfl)).answer _
    · exact same.wait (other c rfl) _
  | next c =>
    rcases next_cases h with ⟨e, rfl⟩ | ⟨-, -, rfl⟩
    · exact same.refuse e c
    · exact (same.advance (other c rfl)).answer _
  | close =>
    rcases close_cases h with rfl | ⟨-, rfl⟩
    · exact same.refuse _ _
    · exact same.closeStream.answer _
  | shift c => exact onChannel_sameUnit h (other c rfl)
  | lpf c => exact onChannel_sameUnit h (other c rfl)
  | disc c => exact onChannel_sameUnit h (other c rfl)
  | extr c => exact onChannel_sameUnit h (other c rfl)
  | bsync c =>
    rcases bsync_cases h with ⟨e, rfl⟩ | ⟨-, -, rfl⟩ | ⟨-, k, -, rfl⟩
    · exact same.refuse e c
    · exact same.wait (other c rfl) _
    · exact (same.setChan (other c rfl) k).answer _
  | fecbit c =>
    rcases fecbit_cases h with ⟨e, rfl⟩ | ⟨-, -, rfl⟩
    · exact same.refuse e c
    · exact same.finish (other c rfl) _ _ (fecbitChannel_channelId _ _ _)
  | fecdec c =>
    rcases fecdec_cases h with ⟨e, rfl⟩ | ⟨-, rfl⟩
    · exact same.refuse e c
    · exact same.finish (other c rfl) _ _
        (List.forall_mem_singleton.2 (fecdecChannel_channelId _ _ _))
  | loadx c =>
    rcases loadx_cases h with ⟨e, rfl⟩ | ⟨-, -, rfl⟩
    · exact same.refuse e c
    · exact (same.setChan (other c rfl) _).answer _
  | block c =>
    rcases block_cases h with ⟨e, rfl⟩ | ⟨-, -, rfl⟩
    · exact same.refuse e c
    · exact ((same.setChan (other c rfl) _).begin (other c rfl) _).answer _
  | run c =>
    rcases run_cases h with ⟨e, rfl⟩ | ⟨-, -, rfl⟩ | ⟨-, -, -, rfl⟩ | ⟨-, -, -, rfl⟩
    · exact same.refuse e c
    · exact (same.begin (other c rfl) _).answer _
    · exact (same.endEngine (other c rfl)).answer _
    · exact same.wait (other c rfl) _
  | pump =>
    rcases pump_cases h with rfl | ⟨-, rfl⟩
    · exact same.refuse _ _
    · exact same.pushHeld.pumpRead

theorem State.finish_sp (s : State) (c : UnitNo) (i : Instr) (k : Channel) (fs : List Frame) :
    (s.finish c i k fs).sp = s.sp := by
  rcases s.finish_cases c i k fs with ⟨-, e⟩ | ⟨-, -, e⟩ <;> rw [e] <;> rfl

theorem onChannel_sp {f : Channel → Channel} (h : s.onChannel c f = .next t) : t.sp = s.sp := by
  rcases onChannel_cases h with ⟨e, rfl⟩ | ⟨-, rfl⟩ <;> rfl

theorem exec_sp_of_usesChannel (hu : i.usesChannel = true) (h : exec i s = .next t) :
    t.sp = s.sp := by
  cases i with
  | shift c => exact onChannel_sp h
  | lpf c => exact onChannel_sp h
  | disc c => exact onChannel_sp h
  | extr c => exact onChannel_sp h
  | bsync c => rcases bsync_cases h with ⟨e, rfl⟩ | ⟨-, -, rfl⟩ | ⟨-, k, -, rfl⟩ <;> rfl
  | fecbit c =>
    rcases fecbit_cases h with ⟨e, rfl⟩ | ⟨-, -, rfl⟩
    · rfl
    · exact State.finish_sp ..
  | fecdec c =>
    rcases fecdec_cases h with ⟨e, rfl⟩ | ⟨-, rfl⟩
    · rfl
    · exact State.finish_sp ..
  | loadx c => rcases loadx_cases h with ⟨e, rfl⟩ | ⟨-, -, rfl⟩ <;> rfl
  | block c => rcases block_cases h with ⟨e, rfl⟩ | ⟨-, -, rfl⟩ <;> rfl
  | run c =>
    rcases run_cases h with ⟨e, rfl⟩ | ⟨-, -, rfl⟩ | ⟨-, -, -, rfl⟩ | ⟨-, -, -, rfl⟩ <;> rfl
  | spinit | chinit c | push | get c | next c | close | pump =>
    exact absurd hu (by simp [Instr.usesChannel])

end

/-- Settles O56, by cases on the operation and its outcome. -/
theorem otherChannelsUntouched : Obligations.OtherChannelsUntouched := by
  intro i s t hi h
  refine ⟨fun hu => exec_sp_of_usesChannel hu h, fun d hd => ?_⟩
  obtain ⟨chan, engine, cursor, frames⟩ := exec_sameUnit hi h hd
  exact ⟨chan, engine, cursor, frames⟩

end Sys2Proof.Machine
end

section
/-!
PROOFS. The operations on the Splitter keep its invariants (spec R37, R38, R75, R270 to R283).
-/

namespace Sys2Proof.Machine

section
variable {cfg : Params} {sp : Splitter} {c : UnitNo}

theorem one_le_n_of_splitterLegal (h : splitterLegal cfg = true) : 1 ≤ cfg.n := by
  simp only [splitterLegal, Bool.and_eq_true, decide_eq_true_eq] at h
  obtain ⟨⟨⟨⟨⟨⟨least, -⟩, -⟩, -⟩, -⟩, -⟩, -⟩ := h
  exact least

/-- With a legal `N` there is a cursor, at 0. -/
theorem Splitter.fresh_inv (h : splitterLegal cfg = true) (n : Nat) :
    (Splitter.fresh cfg n).Inv cfg where
  legal := h
  consumers := List.length_replicate
  base_attained := List.mem_replicate.2 ⟨Nat.one_le_iff_ne_zero.1 (one_le_n_of_splitterLegal h), rfl⟩
  between := fun k hk => by
    rw [List.eq_of_mem_replicate hk]
    exact ⟨le_rfl, le_rfl⟩
  write_position := rfl
  close_position := fun hc => absurd hc Bool.false_ne_true
  blocks := List.forall_mem_nil _
  capacity := fun m _ => Nat.zero_le m

/-- A window that is not full has room for one more block (spec R283). -/
theorem Splitter.Inv.append (h : sp.Inv cfg) {blk : Block} (hblk : blk ≠ [])
    (hopen : sp.closed = false) (hroom : windowFull cfg sp.window = false) :
    (sp.append cfg blk).Inv cfg where
  legal := h.legal
  consumers := h.consumers
  base_attained := h.base_attained
  between := fun k hk => ⟨(h.between k hk).1, Nat.le_succ_of_le (h.between k hk).2⟩
  write_position := by
    simp only [Splitter.append, h.write_position, List.length_append, List.length_singleton,
      Nat.add_assoc]
  close_position := fun hc => absurd (hopen.symm.trans hc) Bool.false_ne_true
  blocks := List.forall_mem_append.2 ⟨h.blocks, List.forall_mem_singleton.2 hblk⟩
  capacity := fun m hm => by
    have room : sp.window.length ≠ m := fun e =>
      Bool.eq_false_iff.1 hroom ((windowFull_iff cfg sp.window).2 (e ▸ hm))
    simpa [Splitter.append] using lt_of_le_of_ne (h.capacity m hm) room

theorem Splitter.Inv.shut (h : sp.Inv cfg) : sp.shut.Inv cfg :=
  { h with close_position := fun _ => rfl }

/-! ## A consumer moves on (spec R275) -/

/-- The Splitter with the cursor of consumer `c` moved and the window not yet shortened. -/
def Splitter.moved (sp : Splitter) (c : UnitNo) : Splitter :=
  { sp with cursor := sp.cursor.set c.toNat (sp.cursorOf c + 1) }

theorem Splitter.cursorOf_mem (hc : c.toNat < sp.cursor.length) : sp.cursorOf c ∈ sp.cursor := by
  rw [Splitter.cursorOf, List.getD_eq_getElem _ _ hc]
  exact List.getElem_mem hc

section
variable (h : sp.Inv cfg) (hc : c.toNat < cfg.n)
include h hc

theorem Splitter.Inv.moved_minCursor : (sp.moved c).minCursor ∈ (sp.moved c).cursor ∧
    ∀ k ∈ (sp.moved c).cursor, (sp.moved c).minCursor ≤ k := by
  refine Splitter.minCursor_spec fun none => ?_
  have len : (sp.moved c).cursor.length = cfg.n := List.length_set.trans h.consumers
  rw [none, List.length_nil] at len
  omega

variable (ha : sp.avail c = true)
include ha

/-- The cursor moves by one from before the write position, so it stays in range (spec R276). -/
theorem Splitter.Inv.moved_between : ∀ k ∈ (sp.moved c).cursor, sp.base ≤ k ∧ k ≤ sp.wr := by
  intro k hk
  rcases List.mem_or_eq_of_mem_set hk with old | rfl
  · exact h.between k old
  · have low := (h.between _ (Splitter.cursorOf_mem (h.consumers ▸ hc))).1
    have high : sp.cursorOf c < sp.wr := of_decide_eq_true ha
    omega

/-- `base` becomes the least cursor, and the blocks below it leave the window. -/
theorem Splitter.Inv.advance_eq : sp.advance c = { sp.moved c with
    base := (sp.moved c).minCursor
    window := sp.window.drop ((sp.moved c).minCursor - sp.base) } := by
  obtain ⟨low, high⟩ := h.moved_between hc ha _ (h.moved_minCursor hc).1
  have evicted := evict_eq (sp.moved c).minCursor sp.window sp.base (h.write_position ▸ high)
  rw [max_eq_right low] at evicted
  simp only [Splitter.moved] at evicted ⊢
  simp only [Splitter.advance, evicted]

theorem Splitter.Inv.advance : (sp.advance c).Inv cfg := by
  obtain ⟨least_mem, least⟩ := h.moved_minCursor hc
  have range := h.moved_between hc ha
  rw [h.advance_eq hc ha]
  exact
    { legal := h.legal
      consumers := List.length_set.trans h.consumers
      base_attained := least_mem
      between := fun k hk => ⟨least k hk, (range k hk).2⟩
      write_position := by
        have bounds := range _ least_mem
        have total := h.write_position
        simp only [List.length_drop, Splitter.moved] at bounds ⊢
        omega
      close_position := h.close_position
      blocks := fun b hb => h.blocks b (List.mem_of_mem_drop hb)
      capacity := fun m hm => by
        rw [List.length_drop]
        exact (Nat.sub_le _ _).trans (h.capacity m hm) }

end

end

end Sys2Proof.Machine
end

section
/-!
PROOFS. Construction gives a channel its invariants, and the stages keep them (spec R21, R25, R34,
R131, R166, R300).
-/

namespace Sys2Proof.Machine

/-! ## The search for the table length (spec R131) -/

/-- A table of at least one entry, and a repeat count of at most `R_MAX`. -/
structure OscSearch.InRange (st : OscSearch) : Prop where
  length : 1 ≤ st.tLen
  repeats : 1 ≤ st.rep ∧ st.rep ≤ 9

theorem candidateLength_pos {f : Format} {sr a : Datum} {r t : Nat}
    (h : candidateLength f sr a r = some t) : 1 ≤ t := by
  rw [candidateLength] at h
  split at h
  · exact absurd h (by simp)
  · split at h
    next pos =>
      obtain rfl := Option.some_inj.1 h
      omega
    · exact absurd h (by simp)

theorem OscSearch.InRange.searchStep {cfg : Params} {a : Datum} {st : OscSearch} {r : Nat}
    (h : st.InRange) (hr : 1 ≤ r ∧ r ≤ 9) : (searchStep cfg a st r).InRange := by
  cases hc : candidateLength cfg.fpA cfg.sampleRate a r with
  | none => simpa only [Machine.searchStep, hc] using h
  | some t =>
    simp only [Machine.searchStep, hc]
    split
    · exact h
    · split
      · exact ⟨candidateLength_pos hc, hr⟩
      · exact h

theorem searchPeriod_inRange (cfg : Params) (freq : Datum) : (searchPeriod cfg freq).InRange := by
  have start : ∀ best found, (OscSearch.mk 1 1 best found).InRange := fun _ _ =>
    ⟨le_rfl, le_rfl, Nat.le_add_left 1 8⟩
  rw [searchPeriod]
  split
  · exact start _ _
  · dsimp only
    split
    · refine List.foldlRecOn _ _ (start _ _) fun st hst k hk => hst.searchStep ?_
      have := List.mem_range.1 hk
      rw [repeatMax] at this
      omega
    · exact start _ _

/-! ## Construction (spec R300) -/

/-- With legal parameters the delay is at least one sample (spec R165, R166). -/
theorem two_le_historyLength {cfg : Params} {c : UnitNo} (h : channelLegal cfg c = true) :
    2 ≤ historyLength cfg := by
  obtain ⟨off, hoff, hpos⟩ := off_pos_of_legal h
  rw [historyLength, delayCeil_eq hoff]
  exact Nat.succ_le_succ (Nat.ceil_pos.2 hpos)

section
variable {cfg : Params} {c : UnitNo} {k : Channel}

theorem freshChannel_inv (h : channelLegal cfg c = true) (n : Nat) (old : Channel) :
    (freshChannel cfg c n old).Inv cfg c where
  legal := h
  period := rfl
  repeats := rfl
  rotation := rfl
  warning := rfl
  table := rfl
  table_positive := (searchPeriod_inRange cfg (channelFreq cfg c)).length
  repeats_range := (searchPeriod_inRange cfg (channelFreq cfg c)).repeats
  weight := rfl
  delay := rfl
  delay_range := two_le_historyLength h
  history := List.length_replicate
  fec_cursor := Nat.zero_le _
  fec_buffering := fun _ => Nat.succ_pos 575

/-! ## The stages -/

namespace Channel.Inv
variable (h : k.Inv cfg c)
include h

theorem shift : (shiftChannel cfg k).Inv cfg c := { h with }

theorem lpf : (filterChannel cfg k).Inv cfg c := { h with }

/-- The history keeps its length (spec R170). -/
theorem disc : (discChannel cfg k).Inv cfg c :=
  { h with history := newHistory_length k.hist k.x k.hlen h.history }

theorem extr : (extrChannel k).Inv cfg c := { h with }

theorem setX (x : Block) : { k with x := x }.Inv cfg c := { h with }

theorem setTotal (n : Nat) : { k with nTotal := n }.Inv cfg c := { h with }

theorem setBq (bq : List Bool) : { k with bq := bq }.Inv cfg c := { h with }

theorem setWk (wk : Viterbi) : { k with wk := wk }.Inv cfg c := { h with }

theorem bsync {k' : Channel} (hk : bsyncChannel cfg k = some k') : k'.Inv cfg c := by
  rcases bsyncChannel_cases cfg k with ⟨-, e⟩ | ⟨_, _, -, -, e⟩ | ⟨t, rest, a, bits, -, -, e⟩
  · exact Option.some_inj.1 (e.symm.trans hk) ▸ h
  · exact absurd (e.symm.trans hk) (by simp)
  · exact Option.some_inj.1 (e.symm.trans hk) ▸ { h with }

theorem fecdec : (fecdecChannel cfg c k).1.Inv cfg c := by
  rw [fecdecChannel_eq]
  exact h.setWk _

/-- A match starts the buffering at cursor 0 (spec R223). -/
theorem syncStep (v : Bool) : (syncStep v k).Inv cfg c := by
  rcases syncStep_cases v k with ⟨-, e⟩ | ⟨-, e⟩ <;> rw [e]
  · exact { h with fec_cursor := Nat.zero_le _, fec_buffering := fun _ => Nat.succ_pos 575 }
  · exact { h with }

/-- The bit that completes the block ends the buffering, and every earlier one leaves room for the
next (spec R225, R226). -/
theorem bufferStep (v : Bool) (hm : k.mode = .buffering) : (bufferStep cfg c v k).1.Inv cfg c := by
  have room := h.fec_buffering hm
  by_cases last : k.outCursor + 1 = 576
  · rw [bufferStep_last _ _ _ _ last]
    exact { h with fec_cursor := le_rfl, fec_buffering := fun hb => absurd hb (by simp) }
  · rw [bufferStep_early _ _ _ _ last]
    have room' : k.outCursor + 1 < 576 := lt_of_le_of_ne room last
    exact { h with fec_cursor := room'.le, fec_buffering := fun _ => room' }

theorem takeBit (v : Bool) : (takeBit cfg c v k).1.Inv cfg c := by
  cases hm : k.mode with
  | syncing =>
    rw [takeBit_syncing _ _ _ _ hm]
    exact h.syncStep v
  | buffering =>
    rw [takeBit_buffering _ _ _ _ hm]
    exact h.bufferStep v hm

theorem fecbit : (fecbitChannel cfg c k).1.Inv cfg c := by
  cases hq : k.bq with
  | nil => simpa only [fecbitChannel, hq] using h
  | cons v rest =>
    rw [fecbitChannel_cons _ _ _ _ hq]
    exact (h.setBq rest).takeBit v

end Channel.Inv

end

end Sys2Proof.Machine
end

section
/-!
PROOFS. Every step keeps the invariants of the machine. One lemma for each operation on the state, one
case for each operation of the hardware, and then the turns of the agents (spec R37, R38, R86).
-/

namespace Sys2Proof.Machine

namespace State.Inv

/-! ## The operations on the state -/

/-- The invariants speak of the parameters, the Splitter, the channels and the agents only. -/
theorem congr {s t : State} (h : s.Inv) (hcfg : t.cfg = s.cfg) (hsp : t.sp = s.sp)
    (hch : t.ch = s.ch) (heng : t.eng = s.eng) (hprod : t.prod = s.prod) : t.Inv := by
  cases s
  cases t
  subst hcfg hsp hch heng hprod
  exact ⟨h.splitter, h.channels, h.agents.engines, h.agents.held_constructed, h.agents.held_legal⟩

section
variable {s : State} {c : UnitNo} (h : s.Inv)
include h

theorem answer (r : Response) : (s.answer r).Inv := h.congr rfl rfl rfl rfl rfl

theorem raise (e : Event) (u : UnitNo) : (s.raise e u).Inv := h.congr rfl rfl rfl rfl rfl

theorem refuse (e : Event) (u : UnitNo) : (s.refuse e u).Inv := (h.raise e u).answer _

theorem send (fs : List Frame) : (s.send c fs).Inv := h.congr rfl rfl rfl rfl rfl

theorem setTurns (ts : List Turn) : (s.setTurns ts).Inv := h.congr rfl rfl rfl rfl rfl

theorem present (blk : Block) (rd : List Word16) : (s.present blk rd).Inv :=
  h.congr rfl rfl rfl rfl rfl

theorem setSinkReady (b : Bool) : (s.setSinkReady c b).Inv := h.congr rfl rfl rfl rfl rfl

theorem setSplitter {sp : Splitter} (hc : s.sp.constructed = true) (hsp : sp.Inv s.cfg)
    (hkept : sp.constructed = s.sp.constructed) : (s.setSplitter sp).Inv where
  splitter := fun _ => hsp
  channels := fun d hd =>
    have ⟨served, inv⟩ := h.channels d hd
    ⟨⟨hkept.trans hc, served.2⟩, inv⟩
  agents := ⟨h.agents.engines, fun _ _ => hkept.trans hc, h.agents.held_legal⟩

theorem setChan {k : Channel} (hk : k.constructed = true → s.served c ∧ k.Inv s.cfg c) :
    (s.setChan c k).Inv where
  splitter := h.splitter
  channels := fun d hd => by
    by_cases hdc : d = c
    · subst hdc
      rw [State.setChan_chan_self] at hd ⊢
      exact hk hd
    · rw [State.setChan_chan_ne _ _ _ _ hdc] at hd ⊢
      exact h.channels d hd
  agents := ⟨h.agents.engines, h.agents.held_constructed, h.agents.held_legal⟩

theorem setEngine {e : Engine} (he : ∀ i, .op i ∈ e.todo → i.unit? = some c) :
    (s.setEngine c e).Inv where
  splitter := h.splitter
  channels := h.channels
  agents :=
    { engines := fun d i hi => by
        by_cases hdc : d = c
        · subst hdc
          rw [State.setEngine_engine_self] at hi
          exact he i hi
        · rw [State.setEngine_engine_ne _ _ _ _ hdc] at hi
          exact h.agents.engines d i hi
      held_constructed := h.agents.held_constructed
      held_legal := h.agents.held_legal }

theorem setProducer {p : Producer} (hp : ∀ b, p.held = some b →
      s.sp.constructed = true ∧ b ≠ [] ∧ b.length ≤ s.cfg.readMax) : (s.setProducer p).Inv where
  splitter := h.splitter
  channels := h.channels
  agents := ⟨h.agents.engines, fun b hb => (hp b hb).1, fun b hb => (hp b hb).2⟩

/-- A producer that gives up what it holds. -/
theorem release (stopped : Bool) : (s.setProducer ⟨none, stopped⟩).Inv :=
  h.setProducer fun _ hb => absurd hb (by simp)

/-- A producer that stops keeps what it holds. -/
theorem stop : (s.setProducer { s.prod with stopped := true }).Inv :=
  h.setProducer fun b hb => ⟨h.agents.held_constructed b hb, h.agents.held_legal b hb⟩

theorem begin {ts : List Piece} (hts : ∀ i, .op i ∈ ts → i.unit? = some c) :
    (s.begin c ts).Inv :=
  h.setEngine fun i hi => (List.mem_append.1 hi).elim (hts i) (h.agents.engines c i)

theorem wait {i : Instr} (hi : i.unit? = some c) : (s.wait c i).Inv :=
  h.begin fun _ hj => by
    obtain rfl := Piece.op.inj (List.mem_singleton.1 hj)
    exact hi

theorem enqueue {i : Instr} (hi : i.unit? = some c) : (s.enqueue c i).Inv :=
  h.setEngine fun j hj => (List.mem_append.1 hj).elim (h.agents.engines c j) fun hj => by
    obtain rfl := Piece.op.inj (List.mem_singleton.1 hj)
    exact hi

theorem endEngine : (s.endEngine c).Inv := h.setEngine (h.agents.engines c)

/-- The engine takes the next piece off its list. -/
theorem pop {k : Piece} {rest : List Piece} (hk : (s.engine c).todo = k :: rest) :
    (s.setEngine c { s.engine c with todo := rest }).Inv :=
  h.setEngine fun i hi => h.agents.engines c i (hk ▸ List.mem_cons_of_mem k hi)

theorem finish (hs : s.served c) {i : Instr} (hi : i.unit? = some c) {k : Channel}
    (hk : k.Inv s.cfg c) (fs : List Frame) : (s.finish c i k fs).Inv := by
  rcases s.finish_cases c i k fs with ⟨-, e⟩ | ⟨-, -, e⟩ <;> rw [e]
  · exact ((h.setChan fun _ => ⟨hs, hk⟩).send fs).answer _
  · exact h.wait hi

theorem chan (hr : s.ready c) : (s.chan c).Inv s.cfg c := (h.channels c hr.2).2

/-- The last piece of a `BLOCK`, which checks nothing: a channel that is not constructed stays so. -/
theorem advanceTotal (len : Nat) : (s.advanceTotal c len).Inv := by
  refine State.Inv.answer (h.setChan fun hk => ?_) _
  have ⟨served, inv⟩ := h.channels c hk
  exact ⟨served, inv.setTotal _⟩

/-! ## The Splitter's operations and the producer -/

theorem pushBlock (hc : s.sp.constructed = true) (blk : Block) : (s.pushBlock blk).Inv := by
  rcases s.pushBlock_cases blk with ⟨-, e⟩ | ⟨-, -, e⟩ | ⟨-, -, -, e⟩ | ⟨-, -, -, -, e⟩ |
    ⟨hblk, -, hopen, hroom, e⟩ <;> rw [e]
  · exact h.refuse _ _
  · exact h.refuse _ _
  · exact (h.raise _ _).answer _
  · exact h.refuse _ _
  · have appended := (h.splitter hc).append hblk hopen hroom
    exact (h.setSplitter hc appended rfl).congr rfl rfl rfl rfl rfl

theorem closeStream (hc : s.sp.constructed = true) : s.closeStream.Inv := by
  rcases s.closeStream_cases with ⟨-, e⟩ | ⟨-, e⟩ <;> rw [e]
  · exact h
  · exact (h.setSplitter hc (h.splitter hc).shut rfl).raise _ _

/-- What the producer holds was read for a constructed Splitter. -/
theorem pushHeld : s.pushHeld.Inv := by
  rcases s.pushHeld_eq with e | ⟨blk, stopped, r, hb, e⟩ <;> rw [e]
  · exact h
  · have pushed := (h.release s.prod.stopped).pushBlock (h.agents.held_constructed blk hb) blk
    exact (pushed.release stopped).answer r

/-- A read of at least one word is a block that is not empty and not longer than `READ_MAX` (spec
R301). -/
theorem pumpRead (hc : s.sp.constructed = true) : s.pumpRead.Inv := by
  rcases pumpRead_cases s with ⟨-, e⟩ | ⟨-, -, e⟩ | ⟨-, -, -, e⟩ | ⟨-, -, hread, e⟩ <;> rw [e]
  · exact h.answer _
  · rw [pumpClosed_eq]
    exact h.stop.congr rfl rfl rfl rfl rfl
  · have stopped := (h.closeStream hc).stop
    rw [State.closeStream_prod] at stopped
    exact stopped.answer _
  · refine State.Inv.answer (h.setProducer fun b hb => ?_) _
    obtain rfl := Option.some_inj.1 hb
    refine ⟨hc, by simpa using hread, ?_⟩
    rw [List.length_map]
    exact List.length_take_le _ _

end

end State.Inv

/-! ## The operations -/

section
variable {i : Instr} {s t : State} {c : UnitNo}

theorem spinit_inv (hs : s.Inv) (h : exec .spinit s = .next t) : t.Inv := by
  rcases spinit_cases h with ⟨legal, rfl⟩ | ⟨-, rfl⟩
  · exact
      { splitter := fun _ => Splitter.fresh_inv legal s.free
        channels := fun d hd =>
          have ⟨served, inv⟩ := hs.channels d hd
          ⟨⟨rfl, served.2⟩, inv⟩
        agents :=
          { engines := fun d i hi => by
              simp only [State.engine, Vector.getElem_replicate] at hi
              exact absurd hi List.not_mem_nil
            held_constructed := fun _ _ => rfl
            held_legal := fun _ hb => absurd hb (by simp) } }
  · exact hs.refuse _ _

/-- A stage that keeps the invariants of its channel keeps those of the machine. -/
theorem onChannel_inv {f : Channel → Channel} (hs : s.Inv)
    (hf : (s.chan c).Inv s.cfg c → (f (s.chan c)).Inv s.cfg c) (h : s.onChannel c f = .next t) :
    t.Inv := by
  rcases onChannel_cases h with ⟨e, rfl⟩ | ⟨ready, rfl⟩
  · exact hs.refuse e c
  · exact (hs.setChan fun _ => ⟨ready.1, hf (hs.chan ready)⟩).answer _

theorem blockPieces_unit {len : Nat} (hi : .op i ∈ blockPieces c len) : i.unit? = some c := by
  simp only [blockPieces, List.mem_cons, Piece.op.injEq, List.not_mem_nil, reduceCtorEq,
    or_false] at hi
  rcases hi with rfl | rfl | rfl | rfl <;> rfl

theorem passPieces_unit (hi : .op i ∈ passPieces c) : i.unit? = some c := by
  simp only [passPieces, List.mem_cons, Piece.op.injEq, List.not_mem_nil, or_false] at hi
  rcases hi with rfl | rfl | rfl <;> rfl

theorem exec_inv (hs : s.Inv) (h : exec i s = .next t) : t.Inv := by
  cases i with
  | spinit => exact spinit_inv hs h
  | chinit c =>
    rcases chinit_cases h with ⟨e, rfl⟩ | ⟨served, legal, rfl⟩
    · exact hs.refuse e c
    · have fresh := freshChannel_inv legal s.free (s.chan c)
      exact (hs.setChan fun _ => ⟨served, fresh⟩).congr rfl rfl rfl rfl rfl
  | push =>
    rcases push_cases h with rfl | ⟨constructed, rfl⟩
    · exact hs.refuse _ _
    · exact hs.pushBlock constructed _
  | get c =>
    rcases get_cases h with ⟨e, rfl⟩ | ⟨-, -, rfl⟩ | ⟨-, -, -, rfl⟩ | ⟨-, -, -, rfl⟩
    · exact hs.refuse e c
    · exact hs.answer _
    · exact hs.endEngine.answer _
    · exact hs.wait rfl
  | next c =>
    rcases next_cases h with ⟨e, rfl⟩ | ⟨served, avail, rfl⟩
    · exact hs.refuse e c
    · have moved := (hs.splitter served.1).advance served.2 avail
      exact (hs.setSplitter served.1 moved rfl).answer _
  | close =>
    rcases close_cases h with rfl | ⟨constructed, rfl⟩
    · exact hs.refuse _ _
    · exact (hs.closeStream constructed).answer _
  | shift c => exact onChannel_inv hs Channel.Inv.shift h
  | lpf c => exact onChannel_inv hs Channel.Inv.lpf h
  | disc c => exact onChannel_inv hs Channel.Inv.disc h
  | extr c => exact onChannel_inv hs Channel.Inv.extr h
  | bsync c =>
    rcases bsync_cases h with ⟨e, rfl⟩ | ⟨-, -, rfl⟩ | ⟨ready, k, hk, rfl⟩
    · exact hs.refuse e c
    · exact hs.wait rfl
    · exact (hs.setChan fun _ => ⟨ready.1, (hs.chan ready).bsync hk⟩).answer _
  | fecbit c =>
    rcases fecbit_cases h with ⟨e, rfl⟩ | ⟨ready, -, rfl⟩
    · exact hs.refuse e c
    · exact hs.finish ready.1 rfl (hs.chan ready).fecbit _
  | fecdec c =>
    rcases fecdec_cases h with ⟨e, rfl⟩ | ⟨ready, rfl⟩
    · exact hs.refuse e c
    · exact hs.finish ready.1 rfl (hs.chan ready).fecdec _
  | loadx c =>
    rcases loadx_cases h with ⟨e, rfl⟩ | ⟨ready, -, rfl⟩
    · exact hs.refuse e c
    · exact (hs.setChan fun _ => ⟨ready.1, (hs.chan ready).setX _⟩).answer _
  | block c =>
    rcases block_cases h with ⟨e, rfl⟩ | ⟨ready, -, rfl⟩
    · exact hs.refuse e c
    · have copied := hs.setChan fun _ => ⟨ready.1, (hs.chan ready).setX (s.sp.blockAt c)⟩
      exact (copied.begin fun _ => blockPieces_unit).answer _
  | run c =>
    rcases run_cases h with ⟨e, rfl⟩ | ⟨-, -, rfl⟩ | ⟨-, -, -, rfl⟩ | ⟨-, -, -, rfl⟩
    · exact hs.refuse e c
    · exact (hs.begin fun _ => passPieces_unit).answer _
    · exact hs.endEngine.answer _
    · exact hs.wait rfl
  | pump =>
    rcases pump_cases h with rfl | ⟨constructed, rfl⟩
    · exact hs.refuse _ _
    · exact hs.pushHeld.pumpRead (s.pushHeld_constructed.trans constructed)

/-! ## The turns of the agents (spec R86) -/

theorem runPiece_inv {k : Piece} (hs : s.Inv) (h : runPiece c k s = .next t) : t.Inv := by
  rcases runPiece_cases h with ⟨i, -, h⟩ | ⟨-, -, rfl⟩ | ⟨-, -, h⟩ | ⟨-, -, rfl⟩ | ⟨-, -, h⟩ |
    ⟨len, -, rfl⟩
  · exact exec_inv hs h
  · exact hs
  · exact exec_inv (hs.begin fun _ hi => absurd hi (by simp)) h
  · exact hs
  · exact exec_inv (hs.begin fun _ hi => absurd hi (by simp)) h
  · exact hs.advanceTotal len

theorem engineTurn_inv (hs : s.Inv) (h : engineTurn c s = .next t) : t.Inv := by
  rcases engineTurn_cases c s with ⟨-, e⟩ | ⟨k, rest, hk, e⟩ <;> rw [e] at h
  · obtain rfl := Host.Outcome.next.inj h
    exact hs
  · exact runPiece_inv (hs.pop hk) h

theorem offer_inv (hs : s.Inv) (h : offer i s = .next t) : t.Inv := by
  rcases offer_cases i s with ⟨c, -, -, e⟩ | ⟨c, hc, -, e⟩ | ⟨-, e⟩ | ⟨-, -, e⟩ <;> rw [e] at h
  · exact exec_inv hs h
  · obtain rfl := Host.Outcome.next.inj h
    exact hs.enqueue (Instr.unit_of_engine hc)
  · exact exec_inv hs.pushHeld h
  · exact exec_inv hs h

theorem runWord_inv {w : Word16} (hs : s.Inv) (h : runWord w s = .next t) : t.Inv := by
  rw [runWord] at h
  cases hw : decodeWord w with
  | ok i =>
    rw [hw] at h
    exact offer_inv hs h
  | badOp u =>
    rw [hw] at h
    obtain rfl := Host.Outcome.next.inj h
    exact hs.refuse _ _
  | badUnit u =>
    rw [hw] at h
    obtain rfl := Host.Outcome.next.inj h
    exact hs.refuse _ _

theorem takeTurn_inv {u : Turn} (hs : s.Inv) (h : takeTurn u s = .next t) : t.Inv := by
  cases u with
  | word w blk rd => exact runWord_inv (hs.present blk rd) h
  | engine c => exact engineTurn_inv hs h
  | producer =>
    obtain rfl := Host.Outcome.next.inj h
    exact hs.pushHeld
  | stop => exact exec_inv (i := .close) hs h
  | sink c ready =>
    obtain rfl := Host.Outcome.next.inj h
    exact hs.setSinkReady ready

end

/-- Settles O44, by cases on the turn, the operation and its outcome. -/
theorem invariantKept : Obligations.InvariantKept := by
  intro s t hs h
  rw [step] at h
  split at h
  · obtain rfl := Host.Outcome.next.inj h
    exact hs
  · exact takeTurn_inv (hs.setTurns _) h

end Sys2Proof.Machine
end

section
/-!
PROOFS. Which operation a turn of the schedule runs (spec R86, R101, R104): the word of an operation is
decoded to it, and the turn is the operation on the state the schedule has moved on from.
-/

namespace Sys2Proof.Machine

/-! ## The word of an operation -/

theorem decodeWord_encode (i : Instr) : decodeWord (encode i) = .ok i := by
  obtain ⟨op, unit⟩ := Laws.UnitField.fields i
  unfold decodeWord
  rw [op, unit]
  cases i <;> rfl

@[simp] theorem runWord_encode (i : Instr) (s : State) : runWord (encode i) s = offer i s := by
  simp only [runWord, decodeWord_encode]

/-! ## The offer of an operation (spec R86, R87) -/

section
variable {i : Instr} {s : State} {c : UnitNo}

theorem offer_idle (hi : i.engine? = some c) (ht : (s.engine c).todo = []) :
    offer i s = exec i s := by
  simp only [offer, hi, ht, List.isEmpty_nil, if_true]

theorem offer_busy (hi : i.engine? = some c) (ht : (s.engine c).todo ≠ []) :
    offer i s = .next (s.enqueue c i) := by
  simp only [offer, hi, List.isEmpty_iff, ht, if_false]

theorem offer_push : offer .push s = exec .push s.pushHeld := rfl

theorem State.pushHeld_of_holds_none (h : s.prod.held = none) : s.pushHeld = s := by
  simp only [State.pushHeld, h]

/-- An operation of no engine is carried out, a `PUSH` when the producer holds no block. -/
theorem offer_no_engine (hi : i.engine? = none) (hp : i = .push → s.prod.held = none) :
    offer i s = exec i s := by
  by_cases push : i = .push
  · subst push
    rw [offer_push, State.pushHeld_of_holds_none (hp rfl)]
  · simp only [offer, hi, push, if_false]

/-! ## The agent with nothing pending -/

@[simp] theorem State.idleFor_turns (s : State) (i : Instr) : (s.idleFor i).turns = s.turns := by
  unfold State.idleFor
  split <;> split <;> rfl

@[simp] theorem State.idleFor_blkIn (s : State) (i : Instr) : (s.idleFor i).blkIn = s.blkIn := by
  unfold State.idleFor
  split <;> split <;> rfl

@[simp] theorem State.idleFor_srcIn (s : State) (i : Instr) : (s.idleFor i).srcIn = s.srcIn := by
  unfold State.idleFor
  split <;> split <;> rfl

theorem State.idleFor_todo (s : State) (hi : i.engine? = some c) :
    ((s.idleFor i).engine c).todo = [] := by
  by_cases ht : (s.engine c).todo = []
  · simp only [State.idleFor, hi, ht, List.isEmpty_nil, if_true]
  · simp only [State.idleFor, hi, List.isEmpty_iff, ht, if_false, State.setEngine_engine_self]

theorem State.idleFor_push_held (s : State) : (s.idleFor .push).prod.held = none := by
  by_cases hb : s.prod.held = none <;> simp [State.idleFor, Instr.engine?, hb]

/-- Clearing what is pending leaves an agent with nothing pending as it is. -/
theorem State.idleFor_eq_self (ht : ∀ c, i.engine? = some c → (s.engine c).todo = [])
    (hp : i = .push ∨ i = .pump → s.prod.held = none) : s.idleFor i = s := by
  unfold State.idleFor
  cases hi : i.engine? with
  | some c => simp only [ht c hi, List.isEmpty_nil, if_true]
  | none => exact if_neg fun ⟨producer, holds⟩ => holds (hp producer)

theorem offer_idleFor (s : State) (i : Instr) : offer i (s.idleFor i) = exec i (s.idleFor i) := by
  cases hi : i.engine? with
  | some c => exact offer_idle hi (s.idleFor_todo hi)
  | none =>
    refine offer_no_engine hi fun push => ?_
    subst push
    exact s.idleFor_push_held

/-! ## The step -/

theorem step_turn {u : Turn} {rest : List Turn} (h : s.turns = u :: rest) :
    step s = takeTurn u (s.setTurns rest) := by
  simp only [step, h]

theorem step_word {blk : Block} {rd : List Word16} {rest : List Turn}
    (h : s.turns = .word (encode i) blk rd :: rest) :
    step s = offer i ((s.setTurns rest).present blk rd) := by
  rw [step_turn h]
  exact runWord_encode i _

theorem State.withFetchWord_encode (s : State) (i : Instr) :
    s.withFetchWord 16 (encode i).toNat
      = (s.idleFor i).setTurns (.word (encode i) s.blkIn s.srcIn :: s.turns) := by
  have word : BitVec.ofNat 16 ((encode i).toNat % 2 ^ 16) = encode i := by
    rw [Nat.mod_eq_of_lt (encode i).isLt, BitVec.ofNat_toNat, BitVec.setWidth_eq]
  simp only [State.withFetchWord, word, decodeWord_encode]

/-- A schedule moved past the word that was put before it, the data on the ports as they were. -/
theorem State.setTurns_present_self (s : State) (ts : List Turn) :
    ((s.setTurns ts).setTurns s.turns).present s.blkIn s.srcIn = s := rfl

theorem step_withFetchWord (s : State) (i : Instr) :
    step (s.withFetchWord 16 (encode i).toNat) = exec i (s.idleFor i) := by
  rw [State.withFetchWord_encode, step_word (State.setTurns_turns _ _), ← offer_idleFor]
  have same := (s.idleFor i).setTurns_present_self (.word (encode i) s.blkIn s.srcIn :: s.turns)
  rw [State.idleFor_turns, State.idleFor_blkIn, State.idleFor_srcIn] at same
  rw [same]

end

/-- Settles O4, by the offer of each kind of operation. -/
theorem stepRunsWord : Obligations.StepRunsWord := by
  refine ⟨fun s i blk rd rest hturns => ?_, fun s i =>
    ⟨step_withFetchWord s i, State.idleFor_eq_self⟩⟩
  rw [step_word hturns]
  refine ⟨fun c hi ht => offer_idle hi ht, fun c hi ht => offer_busy hi ht,
    fun hi hp => offer_no_engine hi hp, fun push t ht => ?_⟩
  subst push
  obtain rfl := Host.Outcome.next.inj ht
  exact offer_push

/-! ## The turns that offer no word (spec R304 to R311, R340) -/

section
variable {s : State} {c : UnitNo}

theorem runPiece_drainTq_empty (h : (s.chan c).tq = []) : runPiece c .drainTq s = .next s := by
  simp only [runPiece, h, List.isEmpty_nil, if_true]

theorem runPiece_drainBq_empty (h : (s.chan c).bq = []) : runPiece c .drainBq s = .next s := by
  simp only [runPiece, h, List.isEmpty_nil, if_true]

theorem engineTurn_idle (h : (s.engine c).todo = []) : engineTurn c s = .next s := by
  simp only [engineTurn, h]

theorem engineTurn_piece {k : Piece} {more : List Piece} (h : (s.engine c).todo = k :: more) :
    engineTurn c s = runPiece c k (s.setEngine c { s.engine c with todo := more }) := by
  simp only [engineTurn, h]

end

/-- Settles O6, by cases on the turn, and for an engine's turn on the piece. -/
theorem agentTurns : Obligations.AgentTurns := by
  intro s rest c
  refine ⟨fun hturns => ?_, fun hturns hheld => ?_, step_turn, fun b => step_turn,
    fun hturns => by simp only [step, hturns]⟩
  · have turn : step s = engineTurn c (s.setTurns rest) := step_turn hturns
    rw [turn]
    refine ⟨fun k more hk => ?_, fun idle => engineTurn_idle idle⟩
    have piece := engineTurn_piece (s := s.setTurns rest) hk
    refine ⟨?_, ?_, ?_, ?_, ?_, ?_⟩
    · rintro i rfl
      exact piece
    · rintro rfl empty
      exact piece.trans (runPiece_drainTq_empty empty)
    · rintro rfl more
      exact engineTurn_drainTq hk more
    · rintro rfl empty
      exact piece.trans (runPiece_drainBq_empty empty)
    · rintro rfl more
      exact engineTurn_drainBq hk more
    · rintro len rfl
      exact piece
  · rw [step_turn hturns]
    exact congrArg Host.Outcome.next (State.pushHeld_of_holds_none hheld)

end Sys2Proof.Machine
end

section
/-!
PROOFS. The shifter's samples (spec R71, R136) and the places of the de-interleave (spec R73, R235).
-/

namespace Sys2Proof.Machine

/-! ## The shifter -/

/-- Sample `i` of the shifted buffer: the sample times the phasor at its global index. -/
theorem shiftSamples_getElem? (f : Format) (k : Channel) (g i : Nat) (xs : List Cplx) :
    (shiftSamples f k g xs)[i]? = xs[i]?.map fun z => cmul f z (oscAt k (g + i)) := by
  induction xs generalizing g i with
  | nil => rfl
  | cons z zs ih =>
    cases i with
    | zero => rfl
    | succ i =>
      rw [shiftSamples, List.getElem?_cons_succ, List.getElem?_cons_succ, ih, Nat.add_right_comm,
        Nat.add_assoc]

theorem oscAt_eq {k : Channel} {g : Nat} {w : Cplx} (h : k.osc[g % k.tLen]? = some w) :
    oscAt k g = w := by
  simp only [oscAt, List.getD_eq_getElem?_getD, h, Option.getD_some]

/-- Settles O14, by what the shifter gives at each index. -/
theorem shiftResult : Obligations.ShiftResult := by
  refine ⟨fun c => rfl, fun s c ready => ⟨(shiftChannel s.cfg (s.chan c)).x, exec_shift_ready ready,
    shiftSamples_length _ _ _ _, fun i z w hz hw => ?_⟩⟩
  rw [shiftChannel_x, shiftSamples_getElem?, hz, Option.map_some, oscAt_eq hw]

/-! ## The de-interleave -/

/-- The even numbers 0..30, as entries of the table. -/
def evenPlaces : List (BitVec 16) := (List.range 16).map fun k => BitVec.ofNat 16 (2 * k)

theorem evenPlaces_range : ∀ e ∈ evenPlaces, e.toNat % 2 = 0 ∧ e.toNat < 32 := by
  intro e he
  obtain ⟨k, hk, rfl⟩ := List.mem_map.1 he
  have bound := List.mem_range.1 hk
  rw [BitVec.toNat_ofNat]
  omega

/-- Sixteen entries among which sixteen different numbers occur are these numbers in some order. -/
theorem interleave_perm {t : Vector (BitVec 16) 16} (h : interleaveLegal t = true) :
    evenPlaces.Perm t.toList := by
  have occurs : evenPlaces ⊆ t.toList := by
    intro e he
    obtain ⟨k, hk, rfl⟩ := List.mem_map.1 he
    exact List.contains_iff_mem.1 (List.all_eq_true.1 h k hk)
  exact (List.subperm_of_subset (by decide) occurs).perm_of_length_le (by simp [evenPlaces])

section
variable {t : Vector (BitVec 16) 16} (h : interleaveLegal t = true) (q : Fin 16)
include h

theorem interleave_range : t[q].toNat % 2 = 0 ∧ t[q].toNat < 32 :=
  have entry : t[q] ∈ t.toList := Vector.mem_toList_iff.2 (Vector.getElem_mem q.isLt)
  evenPlaces_range _ ((interleave_perm h).mem_iff.2 entry)

theorem interleave_injective {q' : Fin 16} (hq : t[q'] = t[q]) : q' = q := by
  have nodup : t.toList.Nodup := (interleave_perm h).nodup_iff.1 (by decide)
  refine Fin.ext ((nodup.getElem_inj_iff (hi := by simp) (hj := by simp)).1 ?_)
  simpa using hq

end

/-- The place of pair `b` in its group of sixteen pairs. -/
def pairSlot (b : Nat) : Fin 16 := ⟨b % 16, Nat.mod_lt b (by decide)⟩

@[simp] theorem pairSlot_val (b : Nat) : (pairSlot b).val = b % 16 := rfl

/-- The two fields of the index of pair `b`: its group of sixteen pairs, and its place in the group. -/
theorem pair_index_fields : ∀ b, b < 288 →
    (BitVec.ofNat 16 (2 * b) &&& ~~~0x1E#16).toNat = 2 ^ 5 * (b / 16) ∧
    ((BitVec.ofNat 16 (2 * b) &&& 0x1E#16) >>> 1).toNat = b % 16 := by
  decide +kernel

theorem deinterleave_pair (cfg : Params) {b : Nat} (hb : b < 288)
    (h : interleaveLegal cfg.interleave = true) :
    deinterleave cfg (BitVec.ofNat 16 (2 * b))
      = 32 * (b / 16) + cfg.interleave[pairSlot b].toNat := by
  obtain ⟨group, place⟩ := pair_index_fields b hb
  have entry : cfg.interleave.getD (b % 16) 0#16 = cfg.interleave[pairSlot b] := by
    simp [Vector.getD, Array.getD, Nat.mod_lt]
  rw [deinterleave, BitVec.toNat_or, group, place, entry]
  exact (Nat.two_pow_add_eq_or_of_lt (interleave_range h (pairSlot b)).2 _).symm

/-- Settles O39: the places in a group are the entries of the table, even and all different. -/
theorem deinterleavePermutes : Obligations.DeinterleavePermutes := by
  intro cfg legal b hb
  have range := interleave_range legal (pairSlot b)
  rw [deinterleave_pair cfg hb legal]
  refine ⟨by omega, by omega, by omega, fun b' hb' same => ?_⟩
  have range' := interleave_range legal (pairSlot b')
  rw [deinterleave_pair cfg hb' legal] at same
  have entry : cfg.interleave[pairSlot b'] = cfg.interleave[pairSlot b] :=
    BitVec.eq_of_toNat_eq (by omega)
  have slot := congrArg Fin.val (interleave_injective legal _ entry)
  simp only [pairSlot_val] at slot
  omega

end Sys2Proof.Machine
end

section
/-!
PROOFS. The order of the blocks (spec R37, R75, R91, R278): what each step of an agent does to the
window as a tail of the blocks pushed since construction.
-/

namespace Sys2Proof.Machine

/-! ## The Splitter's operations on the list of blocks pushed -/

/-- From `sp` to `sp'` the window stays a tail of the blocks pushed, of which there is at most one
more, and no block comes back. -/
def Splitter.KeepsOrder (sp sp' : Splitter) : Prop :=
  sp.base ≤ sp'.base ∧ ∀ pushed, sp.Records pushed →
    sp'.Records pushed ∨ ∃ b, b ≠ [] ∧ sp'.Records (pushed ++ [b])

section
variable {cfg : Params} {sp : Splitter} {c : UnitNo}

theorem Splitter.KeepsOrder.refl (sp : Splitter) : sp.KeepsOrder sp :=
  ⟨le_rfl, fun _ records => .inl records⟩

theorem Splitter.KeepsOrder.of_eq {sp' : Splitter} (h : sp' = sp) : sp.KeepsOrder sp' := by
  rw [h]
  exact .refl sp

/-- Closing the stream touches no block (spec R280). -/
theorem Splitter.KeepsOrder.shut {sp' : Splitter} (h : sp.KeepsOrder sp') :
    sp.KeepsOrder sp'.shut := by
  obtain ⟨rises, keeps⟩ := h
  refine ⟨rises, fun pushed records => (keeps pushed records).imp ?_ ?_⟩
  · exact fun kept => ⟨kept.count, kept.window⟩
  · exact fun ⟨b, hb, grown⟩ => ⟨b, hb, grown.count, grown.window⟩

theorem Splitter.Records.append {pushed : List Block} (h : sp.Records pushed) (hsp : sp.Inv cfg)
    (blk : Block) : (sp.append cfg blk).Records (pushed ++ [blk]) where
  count := by
    rw [List.length_append, h.count]
    rfl
  window := by
    have inside : sp.base ≤ pushed.length := by
      rw [h.count, hsp.write_position]
      exact Nat.le_add_right _ _
    simp only [Splitter.append, h.window, List.drop_append_of_le_length inside]

theorem Splitter.keepsOrder_append (hsp : sp.Inv cfg) {blk : Block} (hblk : blk ≠ []) :
    sp.KeepsOrder (sp.append cfg blk) :=
  ⟨le_rfl, fun _ records => .inr ⟨blk, hblk, records.append hsp blk⟩⟩

/-- The blocks that leave the window are its first ones (spec R277). -/
theorem Splitter.keepsOrder_advance (hsp : sp.Inv cfg) (hc : c.toNat < cfg.n)
    (ha : sp.avail c = true) : sp.KeepsOrder (sp.advance c) := by
  have rises : sp.base ≤ (sp.moved c).minCursor :=
    (hsp.moved_between hc ha _ (hsp.moved_minCursor hc).1).1
  rw [hsp.advance_eq hc ha]
  refine ⟨rises, fun pushed records => .inl ⟨records.count, ?_⟩⟩
  rw [records.window, List.drop_drop, Nat.add_sub_cancel' rises]

end

/-! ## The operations on the state -/

section
variable {s t : State} {c : UnitNo} {i : Instr}

theorem State.pushBlock_keepsOrder (hs : s.sp.Inv s.cfg) (blk : Block) :
    s.sp.KeepsOrder (s.pushBlock blk).sp := by
  rcases s.pushBlock_cases blk with ⟨-, e⟩ | ⟨-, -, e⟩ | ⟨-, -, -, e⟩ | ⟨-, -, -, -, e⟩ |
    ⟨hblk, -, -, -, e⟩ <;> rw [e]
  case inr.inr.inr.inr => exact Splitter.keepsOrder_append hs hblk
  all_goals exact .refl s.sp

theorem State.closeStream_keepsOrder (s : State) : s.sp.KeepsOrder s.closeStream.sp := by
  rcases s.closeStream_cases with ⟨-, e⟩ | ⟨-, e⟩ <;> rw [e]
  · exact .refl s.sp
  · exact (Splitter.KeepsOrder.refl s.sp).shut

theorem State.pushHeld_keepsOrder (hs : s.sp.Inv s.cfg) : s.sp.KeepsOrder s.pushHeld.sp := by
  rcases s.pushHeld_eq with e | ⟨blk, stopped, r, -, e⟩ <;> rw [e]
  · exact .refl s.sp
  · exact State.pushBlock_keepsOrder (s := s.setProducer { s.prod with held := none }) hs blk

/-- The read of a `PUMP` leaves the Splitter as it is or closes the stream: it pushes nothing. -/
theorem State.pumpRead_sp (s : State) : s.pumpRead.sp = s.sp ∨ s.pumpRead.sp = s.sp.shut := by
  rcases pumpRead_cases s with ⟨-, e⟩ | ⟨-, -, e⟩ | ⟨-, hopen, -, e⟩ | ⟨-, -, -, e⟩ <;> rw [e]
  · exact .inl rfl
  · rw [pumpClosed_eq]
    exact .inl rfl
  · rcases s.closeStream_cases with ⟨closed, -⟩ | ⟨-, e'⟩
    · exact absurd (hopen.symm.trans closed) Bool.false_ne_true
    · rw [e']
      exact .inr rfl
  · exact .inl rfl

theorem State.pumpRead_keepsOrder {sp : Splitter} (h : sp.KeepsOrder s.sp) :
    sp.KeepsOrder s.pumpRead.sp := by
  rcases s.pumpRead_sp with e | e <;> rw [e]
  · exact h
  · exact h.shut

/-! ## The steps of the agents -/

theorem exec_keepsOrder (hs : s.sp.Inv s.cfg) (hi : i ≠ .spinit) (h : exec i s = .next t) :
    s.sp.KeepsOrder t.sp := by
  cases i with
  | spinit => exact absurd rfl hi
  | chinit c => rcases chinit_cases h with ⟨e, rfl⟩ | ⟨-, -, rfl⟩ <;> exact .refl s.sp
  | push =>
    rcases push_cases h with rfl | ⟨-, rfl⟩
    · exact .refl s.sp
    · exact State.pushBlock_keepsOrder hs _
  | get c =>
    rcases get_cases h with ⟨e, rfl⟩ | ⟨-, -, rfl⟩ | ⟨-, -, -, rfl⟩ | ⟨-, -, -, rfl⟩ <;>
      exact .refl s.sp
  | next c =>
    rcases next_cases h with ⟨e, rfl⟩ | ⟨served, avail, rfl⟩
    · exact .refl s.sp
    · exact Splitter.keepsOrder_advance hs served.2 avail
  | close =>
    rcases close_cases h with rfl | ⟨-, rfl⟩
    · exact .refl s.sp
    · exact s.closeStream_keepsOrder
  | pump =>
    rcases pump_cases h with rfl | ⟨-, rfl⟩
    · exact .refl s.sp
    · exact State.pumpRead_keepsOrder (State.pushHeld_keepsOrder hs)
  | shift c | lpf c | disc c | extr c | bsync c | fecbit c | fecdec c | loadx c | block c | run c =>
    exact .of_eq (exec_sp_of_usesChannel rfl h)

/-- A piece that is no operation leaves the Splitter alone. -/
theorem runPiece_sp {k : Piece} (hk : ∀ i, k ≠ .op i) (h : runPiece c k s = .next t) :
    t.sp = s.sp := by
  rcases runPiece_cases h with ⟨i, op, -⟩ | ⟨-, -, rfl⟩ | ⟨-, -, h⟩ | ⟨-, -, rfl⟩ | ⟨-, -, h⟩ |
    ⟨len, -, rfl⟩
  · exact absurd op (hk i)
  · rfl
  · exact (exec_sp_of_usesChannel rfl h).trans (State.begin_sp ..)
  · rfl
  · exact (exec_sp_of_usesChannel rfl h).trans (State.begin_sp ..)
  · rfl

theorem atomicStep_keepsOrder (hs : s.sp.Inv s.cfg) (h : atomicStep (· ≠ .spinit) s t) :
    s.sp.KeepsOrder t.sp := by
  rcases h with ⟨i, hi, h⟩ | h | ⟨c, k, hk, h⟩
  · exact exec_keepsOrder hs hi h
  · obtain rfl := Host.Outcome.next.inj h
    exact State.pushHeld_keepsOrder hs
  · exact .of_eq (runPiece_sp hk h)

/-! ## What a consumer reads -/

/-- `GET c` answers the block pushed at the consumer's cursor (spec R75, R273). -/
theorem exec_get_pushed {pushed : List Block} {k : Nat} {b : Block} (served : s.served c)
    (hs : s.sp.Inv s.cfg) (records : s.sp.Records pushed)
    (hk : s.sp.cursor[c.toNat]? = some k) (hb : pushed[k]? = some b) :
    exec (.get c) s = .next { s with rsp := .block b } := by
  have above : s.sp.base ≤ k := (hs.between k (List.mem_of_getElem? hk)).1
  have below : k < s.sp.wr := records.count ▸ (List.getElem?_eq_some_iff.1 hb).1
  have held : s.sp.window[k - s.sp.base]? = some b := by
    rw [records.window, List.getElem?_drop, Nat.add_sub_cancel' above, hb]
  have avail : s.sp.avail c = true := (Splitter.avail_eq hk).trans (decide_eq_true below)
  simp only [exec, execGet, State.consumerRefusal_served served, avail, if_true,
    Splitter.blockAt_eq hk held]
  rfl

end

/-- Settles O46, by cases on the agent's step. -/
theorem blocksInPushOrder : Obligations.BlocksInPushOrder := by
  refine ⟨fun s t pushed _ hs records h => ?_, fun s c pushed k b => exec_get_pushed⟩
  obtain ⟨rises, keeps⟩ := atomicStep_keepsOrder hs h
  exact ⟨rises, keeps pushed records⟩

end Sys2Proof.Machine
end

section
/-!
PROOFS. The buffer stages on a buffer cut in two (spec R138, R154, R171, R189): each stage on the two
pieces, one after the other, gives what it gives on the whole.
-/

namespace Sys2Proof.Machine

/-! ## The buffer stages on a buffer cut in two -/

/-- The shifter reads nothing of the channel but the oscillator's table (spec R71). -/
theorem shiftSamples_congr {f : Format} {k k' : Channel} (hosc : k'.osc = k.osc)
    (hlen : k'.tLen = k.tLen) (g : Nat) (xs : List Cplx) :
    shiftSamples f k' g xs = shiftSamples f k g xs := by
  induction xs generalizing g with
  | nil => rfl
  | cons z zs ih => simp only [shiftSamples, ih, oscAt, hosc, hlen]

theorem shiftSamples_append (f : Format) (k : Channel) (g : Nat) (xs ys : List Cplx) :
    shiftSamples f k g (xs ++ ys)
      = shiftSamples f k g xs ++ shiftSamples f k (g + xs.length) ys := by
  induction xs generalizing g with
  | nil => rfl
  | cons z zs ih =>
    simp only [List.cons_append, shiftSamples, ih, List.length_cons, Nat.add_right_comm g,
      Nat.add_assoc]

theorem filterSamples_append (f : Format) (sos : Vector Biquad 3) (zi : Vector Zi 3)
    (xs ys : List Cplx) :
    filterSamples f sos zi (xs ++ ys)
      = ((filterSamples f sos zi xs).1
          ++ (filterSamples f sos (filterSamples f sos zi xs).2 ys).1,
        (filterSamples f sos (filterSamples f sos zi xs).2 ys).2) := by
  induction xs generalizing zi with
  | nil => rfl
  | cons u us ih => simp only [List.cons_append, filterSamples, ih]

theorem transitionsOf_append (g : Nat) (last : Bool) (xs ys : List Cplx) :
    transitionsOf g last (xs ++ ys)
      = ((transitionsOf g last xs).1
          ++ (transitionsOf (g + xs.length) (transitionsOf g last xs).2 ys).1,
        (transitionsOf (g + xs.length) (transitionsOf g last xs).2 ys).2) := by
  induction xs generalizing g last with
  | nil => rfl
  | cons z zs ih =>
    simp only [List.cons_append, transitionsOf, ih, List.length_cons, Nat.add_assoc,
      Nat.add_comm 1]
    split <;> rfl

/-! ## The discriminator on a buffer cut in two -/

section
variable {hist : List Cplx} {hlen : Nat} (hh : hist.length = hlen)
include hh

/-- History and buffer are one sequence, the buffer's first sample at index `hlen` (spec R72). -/
theorem sampleAt_eq (xs : List Cplx) {p : Int} {n : Nat} (hp : p + hlen = n) :
    sampleAt hist xs hlen p = (hist ++ xs).getD n ⟨.nan, .nan⟩ := by
  unfold sampleAt
  split
  · have place : n = hist.length + p.toNat := by omega
    rw [place, List.getD_append_right _ _ _ _ (Nat.le_add_right _ _), Nat.add_sub_cancel_left]
  · have place : (hlen + p).toNat = n := by omega
    rw [place, List.getD_append _ _ _ _ (by omega)]

/-- The blend for sample `i` is that of entries `i + 1` and `i + 2` of history and buffer (spec R166). -/
theorem interpolate_eq (f : Format) (fs : Datum) (xs : List Cplx) (i : Nat) :
    interpolate f fs hist xs hlen i
      = cadd f (cscale f (fpSub f (ofNat f 1) fs) ((hist ++ xs).getD (i + 1) ⟨.nan, .nan⟩))
          (cscale f fs ((hist ++ xs).getD (i + 2) ⟨.nan, .nan⟩)) := by
  simp only [interpolate]
  rw [sampleAt_eq hh xs (n := i + 1) (by omega), sampleAt_eq hh xs (n := i + 2) (by omega)]

variable (xs ys : List Cplx)

/-- History and second piece are the end of history, first piece and second piece. -/
theorem newHistory_append_eq :
    newHistory hist xs hlen ++ ys = (hist ++ (xs ++ ys)).drop xs.length := by
  rw [newHistory_eq _ _ _ hh, ← List.append_assoc]
  exact (List.drop_append_of_le_length (by simp)).symm

theorem newHistory_append :
    newHistory hist (xs ++ ys) hlen = newHistory (newHistory hist xs hlen) ys hlen := by
  rw [newHistory_eq _ _ _ hh, newHistory_eq _ _ _ (newHistory_length _ _ _ hh),
    newHistory_append_eq hh, List.drop_drop, List.length_append]

/-- A sample of the first piece: the second piece lies after all that its blend reads. -/
theorem interpolate_append_left (h2 : 2 ≤ hlen) (f : Format) (fs : Datum) {i : Nat}
    (hi : i < xs.length) :
    interpolate f fs hist (xs ++ ys) hlen i = interpolate f fs hist xs hlen i := by
  rw [interpolate_eq hh, interpolate_eq hh, ← List.append_assoc,
    List.getD_append _ _ _ (i + 1) (by rw [List.length_append]; omega),
    List.getD_append _ _ _ (i + 2) (by rw [List.length_append]; omega)]

/-- A sample of the second piece: the new history holds all that its blend reads before the piece. -/
theorem interpolate_append_right (f : Format) (fs : Datum) (i : Nat) :
    interpolate f fs hist (xs ++ ys) hlen (xs.length + i)
      = interpolate f fs (newHistory hist xs hlen) ys hlen i := by
  rw [interpolate_eq hh, interpolate_eq (newHistory_length _ _ _ hh), newHistory_append_eq hh]
  simp only [List.getD_eq_getElem?_getD, List.getElem?_drop, Nat.add_assoc]

theorem discriminate_append (h2 : 2 ≤ hlen) (f : Format) (fs : Datum) :
    discriminate f fs hist (xs ++ ys) hlen
      = discriminate f fs hist xs hlen ++ discriminate f fs (newHistory hist xs hlen) ys hlen := by
  simp only [discriminate, List.length_append, List.range_add, List.map_append, List.map_map]
  congr 1
  · refine List.map_congr_left fun i hi => ?_
    have inside := List.mem_range.1 hi
    rw [interpolate_append_left hh xs ys h2 f fs inside, List.getD_append _ _ _ _ inside]
  · refine List.map_congr_left fun i _ => ?_
    simp only [Function.comp_apply]
    rw [interpolate_append_right hh xs ys,
      List.getD_append_right _ _ _ _ (Nat.le_add_right _ _), Nat.add_sub_cancel_left]

end

end Sys2Proof.Machine
end

section
/-!
PROOFS. The two loops of a BLOCK as functions of the whole queue (spec R304): the transitions through the
clock, the decided bits through the FEC decoder, each on a queue cut in two.
-/

namespace Sys2Proof.Machine

/-! ## The queue of transitions (spec R201, R304) -/

/-- The transitions of a queue through the clock, in order: the accumulator they leave and the bits they
decide; `none` when the clock is stuck on one of them. -/
def clockEvents (cfg : Params) : Datum → List Transition → Option (Datum × List Bool)
  | a, [] => some (a, [])
  | a, t :: ts =>
    (clockEvent cfg a t).bind fun r => (clockEvents cfg r.1 ts).map fun q => (q.1, r.2 ++ q.2)

theorem clockEvents_append (cfg : Params) (a : Datum) (ts us : List Transition) :
    clockEvents cfg a (ts ++ us)
      = (clockEvents cfg a ts).bind fun r =>
          (clockEvents cfg r.1 us).map fun q => (q.1, r.2 ++ q.2) := by
  induction ts generalizing a with
  | nil => simp [clockEvents]
  | cons t ts ih =>
    simp only [List.cons_append, clockEvents, ih]
    cases clockEvent cfg a t with
    | none => rfl
    | some r =>
      cases hq : clockEvents cfg r.1 ts with
      | none => simp [hq]
      | some q => simp [hq, Function.comp_def]

/-- The channel once the transitions of its queue have left the accumulator `a` and decided `bits`. -/
def Channel.clocked (k : Channel) (a : Datum) (bits : List Bool) : Channel :=
  { k with tq := [], alignment := a, bq := k.bq ++ bits }

/-- The loop over `tq` takes the whole queue through the clock. -/
theorem drainTransitions_all (cfg : Params) {n : Nat} {k : Channel} (hn : k.tq.length = n) :
    drainTransitions cfg n k
      = (clockEvents cfg k.alignment k.tq).map fun r => k.clocked r.1 r.2 := by
  induction n generalizing k with
  | zero =>
    have empty : k.tq = [] := List.length_eq_zero_iff.1 hn
    have same : k.clocked k.alignment [] = k := by rw [Channel.clocked, List.append_nil, ← empty]
    rw [drainTransitions, empty, clockEvents, Option.map_some, same]
  | succ n ih =>
    rcases bsyncChannel_cases cfg k with ⟨hq, -⟩ | ⟨t, rest, hq, hc, hb⟩ | ⟨t, rest, a, bits, hq, hc, hb⟩
    · exact absurd hn (by simp [hq])
    · simp only [drainTransitions, hb, hq, clockEvents, hc, Option.bind_none, Option.map_none]
    · have left : rest.length = n := by simpa [hq] using hn
      simp only [drainTransitions, hb, hq, clockEvents, hc, Option.bind_some, Option.map_map]
      rw [ih left]
      simp only [Channel.clocked, Function.comp_def, List.append_assoc]

/-! ## The queue of decided bits (spec R221, R304) -/

/-- The decided bits through the FEC decoder, in order: the channel they leave and the frames. -/
def takeBits (cfg : Params) (c : UnitNo) : List Bool → Channel → Channel × List Frame
  | [], k => (k, [])
  | v :: vs, k =>
    let r := takeBit cfg c v k
    let rest := takeBits cfg c vs r.1
    (rest.1, r.2 ++ rest.2)

/-- The channel `k` with the FEC decoder of `e` (spec R31 to R35). -/
def Channel.withFec (k e : Channel) : Channel :=
  { k with
    mode := e.mode, syncReg := e.syncReg, msg := e.msg, outCursor := e.outCursor, wk := e.wk }

section
variable (k e : Channel)

@[simp] theorem Channel.withFec_mode : (k.withFec e).mode = e.mode := rfl

@[simp] theorem Channel.withFec_bq : (k.withFec e).bq = k.bq := rfl

@[simp] theorem Channel.withFec_withFec (e' : Channel) : k.withFec (e.withFec e') = k.withFec e' := rfl

end

section
variable (cfg : Params) (c : UnitNo)

/-- One bit reads and writes the FEC decoder only. -/
theorem takeBit_withFec (v : Bool) (k e : Channel) :
    takeBit cfg c v (k.withFec e)
      = (k.withFec (takeBit cfg c v e).1, (takeBit cfg c v e).2) := by
  cases hm : e.mode with
  | syncing =>
    rw [takeBit_syncing _ _ _ _ hm, takeBit_syncing _ _ _ _ ((k.withFec_mode e).trans hm)]
    by_cases hit : (e.syncReg <<< 1 ||| (if v then 1#34 else 0#34)) = syncPattern
    · simp only [syncStep, Channel.withFec, hit, if_true]
    · simp only [syncStep, Channel.withFec, hit, if_false]
  | buffering =>
    rw [takeBit_buffering _ _ _ _ hm, takeBit_buffering _ _ _ _ ((k.withFec_mode e).trans hm)]
    by_cases last : e.outCursor + 1 = 576
    · rw [bufferStep_last _ _ _ e last, bufferStep_last _ _ _ (k.withFec e) last]
      rfl
    · rw [bufferStep_early _ _ _ e last, bufferStep_early _ _ _ (k.withFec e) last]
      rfl

theorem takeBits_withFec (vs : List Bool) (k e : Channel) :
    takeBits cfg c vs (k.withFec e)
      = (k.withFec (takeBits cfg c vs e).1, (takeBits cfg c vs e).2) := by
  induction vs generalizing e with
  | nil => rfl
  | cons v vs ih => simp only [takeBits, takeBit_withFec, ih]

theorem takeBits_append (vs ws : List Bool) (k : Channel) :
    takeBits cfg c (vs ++ ws) k
      = ((takeBits cfg c ws (takeBits cfg c vs k).1).1,
        (takeBits cfg c vs k).2 ++ (takeBits cfg c ws (takeBits cfg c vs k).1).2) := by
  induction vs generalizing k with
  | nil => rfl
  | cons v vs ih => simp only [List.cons_append, takeBits, ih, List.append_assoc]

/-- The loop over `bq` empties the queue through the FEC decoder, which is that of `e`. -/
theorem drainBits_all {n : Nat} {k e : Channel} (hn : k.bq.length = n) (hk : k.withFec e = k) :
    drainBits cfg c n k
      = ({ k with bq := [] }.withFec (takeBits cfg c k.bq e).1, (takeBits cfg c k.bq e).2) := by
  induction n generalizing k e with
  | zero =>
    have empty : k.bq = [] := List.length_eq_zero_iff.1 hn
    have same : { k with bq := [] }.withFec e = k := by
      rw [← empty]
      exact hk
    rw [drainBits, empty, takeBits, same]
  | succ n ih =>
    obtain ⟨v, rest, hq⟩ := List.exists_cons_of_length_eq_add_one hn
    have first : takeBit cfg c v { k with bq := rest }
        = ({ k with bq := rest }.withFec (takeBit cfg c v e).1, (takeBit cfg c v e).2) := by
      rw [← takeBit_withFec, ← hk]
      rfl
    have left : ({ k with bq := rest }.withFec (takeBit cfg c v e).1).bq.length = n := by
      rw [Channel.withFec_bq]
      simpa [hq] using hn
    rw [drainBits_succ, fecbitChannel_cons cfg c v k hq, first,
      ih left (Channel.withFec_withFec _ _ _), Channel.withFec_bq, hq]
    rfl

end

end Sys2Proof.Machine
end

section
/-!
PROOFS. A stream cut into blocks (spec R83, R306, R315): one block through the chain, one block cut in
two, and then any list of blocks.
-/

namespace Sys2Proof.Machine

/-! ## One block -/

/-- The block shifted and filtered: its samples, and the filter state they leave. -/
def filtered (cfg : Params) (k : Channel) (blk : Block) : List Cplx × Vector Zi 3 :=
  filterSamples cfg.fpS cfg.sos k.zi (shiftSamples cfg.fpS k k.nTotal blk)

/-- The block after the first three stages. -/
def discriminated (cfg : Params) (k : Channel) (blk : Block) : List Cplx :=
  discriminate cfg.fpS (k.frac.convert cfg.fpS) k.hist (filtered cfg k blk).1 k.hlen

/-- The transitions of the block, and its last boolean. -/
def extracted (cfg : Params) (k : Channel) (blk : Block) : List Transition × Bool :=
  transitionsOf k.nTotal k.prevBit (discriminated cfg k blk)

/-- The channel with `len` more samples in its count (spec R305). -/
def Channel.addTotal (k : Channel) (len : Nat) : Channel := { k with nTotal := k.nTotal + len }

/-- The channel after a block: the stages' own state moved on, the queues empty, the accumulator `a` and
the FEC decoder of `e`. -/
def Channel.resume (cfg : Params) (blk : Block) (k : Channel) (a : Datum) (e : Channel) : Channel :=
  ({ frontEnd cfg blk k with tq := [], bq := [], alignment := a }.withFec e).addTotal blk.length

section
variable (cfg : Params) (c : UnitNo) (k : Channel) (blk : Block)

theorem frontEnd_eq : frontEnd cfg blk k = { k with
    x := discriminated cfg k blk
    staging := k.hist
    zi := (filtered cfg k blk).2
    hist := newHistory k.hist (filtered cfg k blk).1 k.hlen
    tq := k.tq ++ (extracted cfg k blk).1
    prevBit := (extracted cfg k blk).2 } := by
  have shifted : shiftSamples cfg.fpS { k with x := blk } k.nTotal blk
      = shiftSamples cfg.fpS k k.nTotal blk := by
    apply shiftSamples_congr <;> rfl
  simp only [frontEnd, extrChannel, discChannel, filterChannel, shiftChannel, extracted,
    discriminated, filtered, shifted]

@[simp] theorem filtered_length : (filtered cfg k blk).1.length = blk.length :=
  (filterSamples_length _ _ _ _).trans (shiftSamples_length _ _ _ _)

@[simp] theorem discriminated_length : (discriminated cfg k blk).length = blk.length :=
  (discriminate_length _ _ _ _ _).trans (filtered_length cfg k blk)

/-- The front end and the clock leave the FEC decoder alone. -/
theorem frontEnd_clocked_withFec (a : Datum) (bits : List Bool) :
    ((frontEnd cfg blk k).clocked a bits).withFec k = (frontEnd cfg blk k).clocked a bits := rfl

theorem processBlock_drains :
    processBlock cfg c blk k
      = (drainTransitions cfg (frontEnd cfg blk k).tq.length (frontEnd cfg blk k)).map fun k2 =>
          ((drainBits cfg c k2.bq.length k2).1.addTotal blk.length,
            (drainBits cfg c k2.bq.length k2).2) := rfl

/-- One block through the chain: all queued transitions through the clock, then all queued bits through
the FEC decoder. -/
theorem processBlock_eq :
    processBlock cfg c blk k
      = (clockEvents cfg k.alignment (k.tq ++ (extracted cfg k blk).1)).map fun r =>
          (k.resume cfg blk r.1 (takeBits cfg c (k.bq ++ r.2) k).1,
            (takeBits cfg c (k.bq ++ r.2) k).2) := by
  have queue : (frontEnd cfg blk k).tq = k.tq ++ (extracted cfg k blk).1 := by rw [frontEnd_eq]
  rw [processBlock_drains, drainTransitions_all cfg rfl, Option.map_map, queue]
  refine Option.map_congr fun r _ => ?_
  have bits := drainBits_all cfg c rfl (frontEnd_clocked_withFec cfg k blk r.1 r.2)
  have waiting : ((frontEnd cfg blk k).clocked r.1 r.2).bq = k.bq ++ r.2 := rfl
  rw [Function.comp_apply, bits, waiting]
  rfl

variable {cfg c k blk} in
theorem processBlock_of_clockEvents {r : Datum × List Bool}
    (hc : clockEvents cfg k.alignment (k.tq ++ (extracted cfg k blk).1) = some r) :
    processBlock cfg c blk k = some (k.resume cfg blk r.1 (takeBits cfg c (k.bq ++ r.2) k).1,
      (takeBits cfg c (k.bq ++ r.2) k).2) := by
  rw [processBlock_eq, hc, Option.map_some]

end

/-! ## One block cut in two -/

/-- The stages of `k'` stand where the block left those of `k`. -/
structure Channel.Follows (cfg : Params) (blk : Block) (k k' : Channel) : Prop where
  constructed : k'.constructed = k.constructed
  osc : k'.osc = k.osc
  rep : k'.rep = k.rep
  sgn : k'.sgn = k.sgn
  cfgWarn : k'.cfgWarn = k.cfgWarn
  tLen : k'.tLen = k.tLen
  frac : k'.frac = k.frac
  hlen : k'.hlen = k.hlen
  zi : k'.zi = (filtered cfg k blk).2
  hist : k'.hist = newHistory k.hist (filtered cfg k blk).1 k.hlen
  prevBit : k'.prevBit = (extracted cfg k blk).2
  nTotal : k'.nTotal = k.nTotal + blk.length

theorem Channel.resume_follows (cfg : Params) (blk : Block) (k : Channel) (a : Datum) (e : Channel) :
    Channel.Follows cfg blk k (k.resume cfg blk a e) := by
  rw [Channel.resume, frontEnd_eq]
  constructor <;> rfl

section
variable {cfg : Params} {k k' : Channel} {b₁ : Block} (h : Channel.Follows cfg b₁ k k') (b₂ : Block)
include h

theorem Channel.Follows.filtered_append :
    filtered cfg k (b₁ ++ b₂)
      = ((filtered cfg k b₁).1 ++ (filtered cfg k' b₂).1, (filtered cfg k' b₂).2) := by
  have second : filtered cfg k' b₂ = filterSamples cfg.fpS cfg.sos (filtered cfg k b₁).2
      (shiftSamples cfg.fpS k (k.nTotal + b₁.length) b₂) := by
    rw [filtered, h.zi, h.nTotal, shiftSamples_congr h.osc h.tLen]
  rw [second, filtered, shiftSamples_append, filterSamples_append]
  rfl

variable (hh : k.hist.length = k.hlen)
include hh

theorem Channel.Follows.hist_length : k'.hist.length = k'.hlen := by
  rw [h.hist, h.hlen, newHistory_length _ _ _ hh]

theorem Channel.Follows.hist_append :
    newHistory k.hist ((filtered cfg k b₁).1 ++ (filtered cfg k' b₂).1) k.hlen
      = newHistory k'.hist (filtered cfg k' b₂).1 k.hlen := by
  rw [h.hist]
  exact newHistory_append hh _ _

variable (h2 : 2 ≤ k.hlen)
include h2

theorem Channel.Follows.discriminated_append :
    discriminated cfg k (b₁ ++ b₂) = discriminated cfg k b₁ ++ discriminated cfg k' b₂ := by
  simp only [discriminated, h.filtered_append, h.hist, h.hlen, h.frac]
  exact discriminate_append hh _ _ h2 _ _

theorem Channel.Follows.extracted_append :
    extracted cfg k (b₁ ++ b₂)
      = ((extracted cfg k b₁).1 ++ (extracted cfg k' b₂).1, (extracted cfg k' b₂).2) := by
  have second : extracted cfg k' b₂ = transitionsOf (k.nTotal + (discriminated cfg k b₁).length)
      (extracted cfg k b₁).2 (discriminated cfg k' b₂) := by
    rw [extracted, h.prevBit, h.nTotal, discriminated_length]
  rw [second, extracted, h.discriminated_append b₂ hh h2, transitionsOf_append]
  rfl

theorem Channel.Follows.resume_carried (a : Datum) (e : Channel) :
    (k'.resume cfg b₂ a e).carried = (k.resume cfg (b₁ ++ b₂) a e).carried := by
  simp only [Channel.resume, Channel.addTotal, frontEnd_eq, Channel.withFec, Channel.carried,
    h.filtered_append b₂, h.hist_append b₂ hh, h.extracted_append b₂ hh h2, h.constructed, h.tLen, h.rep, h.sgn,
    h.osc, h.cfgWarn, h.frac, h.hlen, h.nTotal, List.length_append, Nat.add_assoc]

end

/-- The next block finds the queues empty, the accumulator at `a` and the FEC decoder as that of `e`. -/
theorem processBlock_resume (cfg : Params) (c : UnitNo) (b₁ b₂ : Block) (k e : Channel) (a : Datum) :
    processBlock cfg c b₂ (k.resume cfg b₁ a e)
      = (clockEvents cfg a (extracted cfg (k.resume cfg b₁ a e) b₂).1).map fun q =>
          ((k.resume cfg b₁ a e).resume cfg b₂ q.1 (takeBits cfg c q.2 e).1,
            (takeBits cfg c q.2 e).2) := by
  rw [processBlock_eq]
  refine Option.map_congr fun q _ => ?_
  have bits : takeBits cfg c ((k.resume cfg b₁ a e).bq ++ q.2) (k.resume cfg b₁ a e)
      = ((k.resume cfg b₁ a e).withFec (takeBits cfg c q.2 e).1, (takeBits cfg c q.2 e).2) :=
    takeBits_withFec cfg c q.2 (k.resume cfg b₁ a e) e
  rw [bits]
  rfl

theorem processBlock_append (cfg : Params) (c : UnitNo) {k : Channel}
    (hh : k.hist.length = k.hlen) (h2 : 2 ≤ k.hlen) (b₁ b₂ : Block) :
    ((processBlock cfg c b₁ k).bind fun r =>
        (processBlock cfg c b₂ r.1).map fun q => (q.1.carried, r.2 ++ q.2))
      = (processBlock cfg c (b₁ ++ b₂) k).map fun q => (q.1.carried, q.2) := by
  have follows := Channel.resume_follows cfg b₁ k
  cases hc : clockEvents cfg k.alignment (k.tq ++ (extracted cfg k b₁).1) with
  | none =>
    rw [processBlock_eq, hc, processBlock_eq, (follows k.alignment k).extracted_append b₂ hh h2,
      ← List.append_assoc, clockEvents_append, hc]
    rfl
  | some r =>
    have next := follows r.1 (takeBits cfg c (k.bq ++ r.2) k).1
    rw [processBlock_of_clockEvents hc, Option.bind_some, processBlock_resume, processBlock_eq,
      next.extracted_append b₂ hh h2, ← List.append_assoc, clockEvents_append, hc]
    simp only [Option.bind_some, Option.map_map, Function.comp_def, next.resume_carried b₂ hh h2,
      ← List.append_assoc, takeBits_append cfg c (k.bq ++ r.2)]

/-! ## A list of blocks -/

theorem processBlock_hist (cfg : Params) (c : UnitNo) {k : Channel} (hh : k.hist.length = k.hlen)
    {blk : Block} {r : Channel × List Frame} (h : processBlock cfg c blk k = some r) :
    r.1.hist.length = r.1.hlen ∧ r.1.hlen = k.hlen := by
  rw [processBlock_eq, Option.map_eq_some_iff] at h
  obtain ⟨a, -, rfl⟩ := h
  have follows := Channel.resume_follows cfg blk k a.1 (takeBits cfg c (k.bq ++ a.2) k).1
  exact ⟨follows.hist_length hh, follows.hlen⟩

/-- Settles O51, by induction on the list: the first block and all samples of the others are one block
cut in two. -/
theorem blockSplitInvariance : Obligations.BlockSplitInvariance := by
  intro cfg c k bs nonempty hh h2
  induction bs generalizing k with
  | nil => exact absurd rfl nonempty
  | cons b rest ih =>
    cases rest with
    | nil => simp [processBlocks]
    | cons b' rest =>
      rw [List.flatten_cons, ← processBlock_append cfg c hh h2, processBlocks, Option.map_bind]
      refine Option.bind_congr fun r hr => ?_
      obtain ⟨length, hlen⟩ := processBlock_hist cfg c hh hr
      have later := ih r.1 (List.cons_ne_nil _ _) length (hlen ▸ h2)
      have sent := congrArg (Option.map fun q => (q.1, r.2 ++ q.2)) later
      simpa only [Option.map_map, Function.comp_def] using sent

end Sys2Proof.Machine
end

section
/-!
PROOFS. Decoder and encoder (spec R101 to R106): a word is its two fields, the decoder's answer is one
of three, and the numbers of the fields are the quotient and the remainder by 256.
-/

namespace Sys2Proof.Machine

/-! ## The two fields of a word (spec R101) -/

theorem wordOp_toNat (w : Word16) : (wordOp w).toNat = w.toNat / 256 := by
  have bound : w.toNat / 256 < 256 := by omega
  rw [wordOp, BitVec.extractLsb'_toNat, Nat.shiftRight_eq_div_pow]
  exact Nat.mod_eq_of_lt bound

theorem wordUnit_toNat (w : Word16) : (wordUnit w).toNat = w.toNat % 256 :=
  BitVec.extractLsb'_toNat 0 8 w

theorem wordOfBytes_fields (w : Word16) : wordOfBytes (wordOp w) (wordUnit w) = w :=
  BitVec.extractLsb'_append_extractLsb'_eq_extractLsb' rfl |>.trans BitVec.extractLsb'_eq_self

/-- A word is that of an operation when its fields are. -/
theorem eq_encode_of_fields {w : Word16} {i : Instr} (op : wordOp w = i.opCode)
    (unit : wordUnit w = i.unitField) : w = encode i := by
  rw [encode, ← op, ← unit, wordOfBytes_fields]

@[simp] theorem decodeBytes_wordBytes (w : Word16) :
    decodeBytes (wordBytes w) = some (decodeWord w, []) := by
  rw [wordBytes, decodeBytes, wordOfBytes_fields]

theorem decodeTableWord_encode (i : Instr) : decodeTableWord 16 (encode i).toNat = some i := by
  rw [decodeTableWord, Nat.mod_eq_of_lt (encode i).isLt, BitVec.ofNat_toNat, BitVec.setWidth_eq,
    decodeBytes_wordBytes, decodeWord_encode]

/-! ## The codes of the table (spec R104) -/

/-- The codes of the seventeen operations. -/
def tableCodes : List Byte :=
  [0x01, 0x02, 0x10, 0x11, 0x12, 0x13, 0x20, 0x21, 0x22, 0x23, 0x24, 0x25, 0x26, 0x27, 0x28, 0x29,
    0x30]

/-- The codes of the operations whose word must have the unit 0. -/
def unitlessCodes : List Byte := [0x01, 0x10, 0x13, 0x30]

theorem opCode_mem (i : Instr) : i.opCode ∈ tableCodes := by
  cases i <;> simp [Instr.opCode, tableCodes]

theorem unitField_of_unitless {i : Instr} (h : i.opCode ∈ unitlessCodes) :
    i.unitField = 0#8 := by
  cases i
  case spinit | push | close | pump => rfl
  all_goals simp [Instr.opCode, unitlessCodes] at h

/-- A code is in a list of codes when its number is in the list of their numbers. -/
theorem toNat_mem_map_iff {b : Byte} {codes : List Byte} :
    b.toNat ∈ codes.map BitVec.toNat ↔ b ∈ codes :=
  List.mem_map_of_injective fun _ _ => BitVec.eq_of_toNat_eq

theorem unitlessCodes_subset : unitlessCodes ⊆ tableCodes := by
  decide

/-! ## What a word means (spec R103, R105) -/

/-- The meaning of a word in the terms of the encoder and the table's codes. -/
inductive WordMeaning (w : Word16) : Decoded → Prop
  | ok {i : Instr} (word : w = encode i) : WordMeaning w (.ok i)
  | badOp (op : wordOp w ∉ tableCodes) : WordMeaning w (.badOp (wordUnit w))
  | badUnit (op : wordOp w ∈ unitlessCodes) (unit : wordUnit w ≠ 0#8) :
      WordMeaning w (.badUnit (wordUnit w))

theorem withoutUnit_meaning {w : Word16} {i : Instr} (op : wordOp w = i.opCode)
    (unitless : i.opCode ∈ unitlessCodes) : WordMeaning w (withoutUnit i (wordUnit w)) := by
  by_cases unit : wordUnit w = 0#8
  · rw [withoutUnit, if_pos unit]
    exact .ok (eq_encode_of_fields op (unit.trans (unitField_of_unitless unitless).symm))
  · rw [withoutUnit, if_neg unit]
    exact .badUnit (op ▸ unitless) unit

/-- The decoder gives every word its meaning, by cases on the code. -/
theorem decodeWord_meaning (w : Word16) : WordMeaning w (decodeWord w) := by
  unfold decodeWord
  split
  case h_1 op | h_3 op | h_6 op | h_17 op => exact withoutUnit_meaning op (by decide)
  case h_18 => exact .badOp (by simp_all [tableCodes])
  all_goals exact .ok (eq_encode_of_fields ‹_› rfl)

theorem wordOp_encode_mem (i : Instr) : wordOp (encode i) ∈ tableCodes := by
  rw [(Laws.UnitField.fields i).1]
  exact opCode_mem i

theorem wordUnit_encode_of_unitless {i : Instr} (h : wordOp (encode i) ∈ unitlessCodes) :
    wordUnit (encode i) = 0#8 := by
  rw [(Laws.UnitField.fields i).1] at h
  rw [(Laws.UnitField.fields i).2]
  exact unitField_of_unitless h

section
variable {w : Word16} {d : Decoded} (h : WordMeaning w d)
include h

theorem WordMeaning.eq_badOp (op : wordOp w ∉ tableCodes) : d = .badOp (wordUnit w) := by
  cases h with
  | ok word => exact absurd (word ▸ wordOp_encode_mem _) op
  | badOp => rfl
  | badUnit unitless => exact absurd (unitlessCodes_subset unitless) op

theorem WordMeaning.eq_badUnit (op : wordOp w ∈ unitlessCodes) (unit : wordUnit w ≠ 0#8) :
    d = .badUnit (wordUnit w) := by
  cases h with
  | ok word =>
    subst word
    exact absurd (wordUnit_encode_of_unitless op) unit
  | badOp unknown => exact absurd (unitlessCodes_subset op) unknown
  | badUnit => rfl

end

/-- The meaning is the decoder's answer: the three kinds exclude each other. -/
theorem decodeWord_eq_iff (w : Word16) (d : Decoded) : decodeWord w = d ↔ WordMeaning w d := by
  refine ⟨fun h => h ▸ decodeWord_meaning w, fun h => ?_⟩
  cases h with
  | ok word => rw [word, decodeWord_encode]
  | badOp op => exact (decodeWord_meaning w).eq_badOp op
  | badUnit op unit => exact (decodeWord_meaning w).eq_badUnit op unit

theorem decodeWord_eq_ok_iff (w : Word16) (i : Instr) : decodeWord w = .ok i ↔ w = encode i :=
  (decodeWord_eq_iff w _).trans ⟨fun | .ok word => word, .ok⟩

theorem decodeWord_eq_badOp_iff (w : Word16) (u : UnitNo) :
    decodeWord w = .badOp u ↔ wordOp w ∉ tableCodes ∧ u = wordUnit w :=
  (decodeWord_eq_iff w _).trans ⟨fun | .badOp op => ⟨op, rfl⟩, fun ⟨op, unit⟩ => unit ▸ .badOp op⟩

theorem decodeWord_eq_badUnit_iff (w : Word16) (u : UnitNo) :
    decodeWord w = .badUnit u ↔ wordOp w ∈ unitlessCodes ∧ u ≠ 0#8 ∧ u = wordUnit w :=
  (decodeWord_eq_iff w _).trans ⟨fun | .badUnit op unit => ⟨op, unit, rfl⟩,
    fun ⟨op, nonzero, unit⟩ => by subst unit; exact .badUnit op nonzero⟩

/-- Settles O1: the decoder's meaning of a word, and the encoder's word as two bytes. -/
theorem decodeEncodeAgree : Obligations.DecodeEncodeAgree := by
  refine ⟨decodeWord_eq_ok_iff, fun i rest => ⟨?_, decodeTableWord_encode i⟩⟩
  have word : decodeWord (wordOfBytes i.opCode i.unitField) = .ok i := decodeWord_encode i
  rw [decodeBytes, word]

/-- Settles O3, from the meanings by the numbers of the two fields. -/
theorem reservedWords : Obligations.ReservedWords := by
  intro w u
  have unit : u = wordUnit w ↔ u.toNat = w.toNat % 256 := by
    rw [← wordUnit_toNat, BitVec.toNat_inj]
  have nonzero : u ≠ 0#8 ↔ u.toNat ≠ 0 := (BitVec.toNat_inj (y := 0#8)).not.symm
  rw [decodeWord_eq_badOp_iff, decodeWord_eq_badUnit_iff, unit, nonzero, ← toNat_mem_map_iff,
    ← toNat_mem_map_iff, wordOp_toNat]
  exact ⟨Iff.rfl, Iff.rfl⟩

/-- Settles O2: each word is the one the encoder writes for the operation. -/
theorem sampleWords : Obligations.SampleWords := by
  simp only [Obligations.SampleWords, decodeWord_eq_ok_iff]
  decide

end Sys2Proof.Machine
end

section
/-!
PROOFS. Refusals (spec R338, R342): a request that is refused leaves one event word and its answer, and
nothing else. How each operation ends is said once, in the terms of the response.
-/

namespace Sys2Proof.Machine

/-! ## The event word (spec R118) -/

theorem eventWord_code (e : Event) (u : UnitNo) : (eventWord e u).extractLsb' 0 8 = e.code :=
  Laws.UnitField.wordUnit_wordOfBytes u e.code

theorem eventWord_unit (e : Event) (u : UnitNo) : (eventWord e u).extractLsb' 8 8 = u :=
  Laws.UnitField.wordOp_wordOfBytes u e.code

/-! ## A word that names no operation (spec R103) -/

theorem runWord_badOp {w : Word16} {u : UnitNo} (h : decodeWord w = .badOp u) (s : State) :
    runWord w s = .next (s.refuse .badOp u) := by
  simp only [runWord, h]

theorem runWord_badUnit {w : Word16} {u : UnitNo} (h : decodeWord w = .badUnit u) (s : State) :
    runWord w s = .next (s.refuse .badUnit u) := by
  simp only [runWord, h]

/-- Settles O5: the turn presents its data, and the word is refused. -/
theorem refusedWordStep : Obligations.RefusedWordStep := by
  intro s w blk rd rest u hturns
  have turn : step s = runWord w ((s.setTurns rest).present blk rd) := step_turn hturns
  rw [turn]
  exact ⟨fun h => runWord_badOp h _, fun h => runWord_badUnit h _⟩

/-! ## How an operation ends -/

/-- The response is that of a refused request. -/
def Response.isRefusal : Response → Bool
  | .refused _ => true
  | .nothing | .pushed _ | .block _ | .terminator | .running | .stopped => false

/-- An operation from `s` ends in a refusal, or with another answer, or it waits and answers nothing. -/
inductive State.Ends (s : State) : State → Prop
  | refused (e : Event) (u : UnitNo) : s.Ends (s.refuse e u)
  | answered {t : State} (answer : t.rsp.isRefusal = false) : s.Ends t
  | waiting {t : State} (silent : t.rsp = s.rsp) : s.Ends t

/-- A refusal that is new is the whole difference between the two states. -/
theorem State.Ends.eq_refuse {s t : State} {e : Event} (h : s.Ends t) (now : t.rsp = .refused e)
    (before : s.rsp ≠ .refused e) : ∃ u, t = s.refuse e u := by
  cases h with
  | refused e' u =>
    obtain rfl : e' = e := Response.refused.inj now
    exact ⟨u, rfl⟩
  | answered answer =>
    rw [now] at answer
    exact absurd answer Bool.noConfusion
  | waiting silent => exact absurd (silent.symm.trans now) before

theorem State.finish_ends (s : State) (c : UnitNo) (i : Instr) (k : Channel) (fs : List Frame) :
    s.Ends (s.finish c i k fs) := by
  rcases s.finish_cases c i k fs with ⟨-, h⟩ | ⟨-, -, h⟩ <;> rw [h]
  · exact .answered rfl
  · exact .waiting rfl

theorem State.pushBlock_ends (s : State) (blk : Block) : s.Ends (s.pushBlock blk) := by
  rcases s.pushBlock_cases blk with ⟨-, h⟩ | ⟨-, -, h⟩ | ⟨-, -, -, h⟩ | ⟨-, -, -, -, h⟩ |
    ⟨-, -, -, -, h⟩ <;> rw [h]
  · exact .refused _ _
  · exact .refused _ _
  · exact .answered rfl
  · exact .refused _ _
  · exact .answered rfl

/-- The read of a `PUMP` is never refused. -/
theorem State.pumpRead_answers (s : State) : s.pumpRead.rsp.isRefusal = false := by
  rcases pumpRead_cases s with ⟨-, h⟩ | ⟨-, -, h⟩ | ⟨-, -, -, h⟩ | ⟨-, -, -, h⟩ <;> rw [h]
  · rfl
  · rw [pumpClosed_eq]
    rfl
  · rfl
  · rfl

section
variable {s t : State} {c : UnitNo}

theorem onChannel_ends {f : Channel → Channel} (h : s.onChannel c f = .next t) : s.Ends t := by
  rcases onChannel_cases h with ⟨e, rfl⟩ | ⟨-, rfl⟩
  · exact .refused e c
  · exact .answered rfl

theorem exec_ends {i : Instr} (h : exec i s = .next t) : s.Ends t := by
  cases i with
  | spinit =>
    rcases spinit_cases h with ⟨-, rfl⟩ | ⟨-, rfl⟩
    · exact .answered rfl
    · exact .refused _ _
  | chinit c =>
    rcases chinit_cases h with ⟨e, rfl⟩ | ⟨-, -, rfl⟩
    · exact .refused e c
    · exact .answered rfl
  | push =>
    rcases push_cases h with rfl | ⟨-, rfl⟩
    · exact .refused _ _
    · exact s.pushBlock_ends s.blkIn
  | get c =>
    rcases get_cases h with ⟨e, rfl⟩ | ⟨-, -, rfl⟩ | ⟨-, -, -, rfl⟩ | ⟨-, -, -, rfl⟩
    · exact .refused e c
    · exact .answered rfl
    · exact .answered rfl
    · exact .waiting rfl
  | next c =>
    rcases next_cases h with ⟨e, rfl⟩ | ⟨-, -, rfl⟩
    · exact .refused e c
    · exact .answered rfl
  | close =>
    rcases close_cases h with rfl | ⟨-, rfl⟩
    · exact .refused _ _
    · exact .answered rfl
  | shift c => exact onChannel_ends h
  | lpf c => exact onChannel_ends h
  | disc c => exact onChannel_ends h
  | extr c => exact onChannel_ends h
  | bsync c =>
    rcases bsync_cases h with ⟨e, rfl⟩ | ⟨-, -, rfl⟩ | ⟨-, k, -, rfl⟩
    · exact .refused e c
    · exact .waiting rfl
    · exact .answered rfl
  | fecbit c =>
    rcases fecbit_cases h with ⟨e, rfl⟩ | ⟨-, -, rfl⟩
    · exact .refused e c
    · exact s.finish_ends c _ _ _
  | fecdec c =>
    rcases fecdec_cases h with ⟨e, rfl⟩ | ⟨-, rfl⟩
    · exact .refused e c
    · exact s.finish_ends c _ _ _
  | loadx c =>
    rcases loadx_cases h with ⟨e, rfl⟩ | ⟨-, -, rfl⟩
    · exact .refused e c
    · exact .answered rfl
  | block c =>
    rcases block_cases h with ⟨e, rfl⟩ | ⟨-, -, rfl⟩
    · exact .refused e c
    · exact .answered rfl
  | run c =>
    rcases run_cases h with ⟨e, rfl⟩ | ⟨-, -, rfl⟩ | ⟨-, -, -, rfl⟩ | ⟨-, -, -, rfl⟩
    · exact .refused e c
    · exact .answered rfl
    · exact .answered rfl
    · exact .waiting rfl
  | pump =>
    rcases pump_cases h with rfl | ⟨-, rfl⟩
    · exact .refused _ _
    · exact .answered s.pushHeld.pumpRead_answers

end

/-- Settles O58, by the ways an operation can end. -/
theorem refusalLeavesState : Obligations.RefusalLeavesState :=
  ⟨fun e u => ⟨eventWord_code e u, eventWord_unit e u⟩, rfl,
    fun _ _ _ _ h now before => (exec_ends h).eq_refuse now before⟩

end Sys2Proof.Machine
end

section
/-!
PROOFS. `PUMP` (spec R301, R308, R310, R337): the push of the block held comes first, then the read, in
one equation for each state of the producer and the stream.
-/

namespace Sys2Proof.Machine

section
variable {s : State}

theorem exec_pump_constructed (h : s.sp.constructed = true) :
    exec .pump s = .next s.pushHeld.pumpRead := by
  simp only [exec, execPump, State.splitterRefusal_constructed h, State.guarded_none]

/-- The push leaves the producer with nothing. -/
theorem State.pushHeld_held (s : State) : s.pushHeld.prod.held = none := by
  rcases pushHeld_cases s with ⟨hb, h⟩ | ⟨blk, -, ⟨-, h⟩ | ⟨-, h⟩ | ⟨-, -, h⟩⟩ <;> rw [h]
  · exact hb
  · rfl
  · rw [State.answer_prod, State.pushBlock_prod, State.setProducer_prod]
  · rw [State.pushBlock_prod, State.setProducer_prod]

theorem State.pushHeld_idem (s : State) : s.pushHeld.pushHeld = s.pushHeld :=
  State.pushHeld_of_holds_none s.pushHeld_held

/-- A `PUMP` over a block still held is the producer's push and a `PUMP` after it (spec R86). -/
theorem exec_pump_pushHeld (h : s.sp.constructed = true) :
    exec .pump s = exec .pump s.pushHeld := by
  rw [exec_pump_constructed h, exec_pump_constructed (s.pushHeld_constructed.trans h),
    State.pushHeld_idem]

theorem exec_pump_holds_none (h : s.sp.constructed = true) (hb : s.prod.held = none) :
    exec .pump s = .next s.pumpRead := by
  rw [exec_pump_constructed h, State.pushHeld_of_holds_none hb]

/-! ## The read -/

theorem State.pumpRead_stopped (h : s.prod.stopped = true) : s.pumpRead = s.answer .stopped := by
  simp only [State.pumpRead, h, if_true]

theorem State.pumpRead_closed (h : s.prod.stopped = false) (hc : s.sp.closed = true) :
    s.pumpRead = s.pumpClosed := by
  simp only [State.pumpRead, h, hc, Bool.false_eq_true, if_false, if_true]

theorem State.pumpRead_words (h : s.prod.stopped = false) (hc : s.sp.closed = false)
    (hr : s.readWords ≠ []) :
    s.pumpRead = (s.setProducer { s.prod with
      held := some (s.readWords.map (iqSample s.cfg.fpS)) }).answer .nothing := by
  simp only [State.pumpRead, h, hc, List.isEmpty_iff, hr, Bool.false_eq_true, if_false]

theorem State.closeStream_open (h : s.sp.closed = false) :
    s.closeStream = (s.setSplitter s.sp.shut).raise .eos 0 := by
  simp only [State.closeStream, h, Bool.false_eq_true, if_false]

theorem State.pumpRead_end (h : s.prod.stopped = false) (hc : s.sp.closed = false)
    (hr : s.readWords = []) :
    s.pumpRead = (((s.setSplitter s.sp.shut).raise .eos 0).setProducer
      { s.prod with stopped := true }).answer .stopped := by
  simp only [State.pumpRead, h, hc, hr, List.isEmpty_nil, Bool.false_eq_true, if_false, if_true,
    State.closeStream_open hc]

end

/-- Settles O53, by the state of the producer, of the stream and of the source. -/
theorem pumpReads : Obligations.PumpReads := by
  intro s constructed
  have reads {stopped : Bool} (hp : s.prod = ⟨none, stopped⟩) :
      exec .pump s = .next s.pumpRead ∧ s.prod.stopped = stopped :=
    ⟨exec_pump_holds_none constructed (congrArg Producer.held hp), congrArg Producer.stopped hp⟩
  refine ⟨fun hp isOpen => ?_, fun hp closed => ?_, fun hp => ?_, fun t _ ht => ?_⟩
  · obtain ⟨pump, running⟩ := reads hp
    rw [pump]
    refine ⟨fun words => ?_, fun noWords => ?_⟩
    · rw [State.pumpRead_words running isOpen words, hp]
      rfl
    · rw [State.pumpRead_end running isOpen noWords, hp]
      rfl
  · obtain ⟨pump, running⟩ := reads hp
    rw [pump, State.pumpRead_closed running closed, pumpClosed_eq, hp]
    refine ⟨fun noWords => ?_, fun words => ?_⟩
    · rw [if_pos noWords, List.append_nil]
    · rw [if_neg words]
      rfl
  · obtain ⟨pump, stopped⟩ := reads hp
    rw [pump, State.pumpRead_stopped stopped]
    rfl
  · obtain rfl := Host.Outcome.next.inj ht
    exact exec_pump_pushHeld constructed

end Sys2Proof.Machine
end

section
/-!
PROOFS. The shifter, the filter and the extractor on a stream cut into blocks (spec R138, R154, R189):
the two-piece rules of a stage, taken block by block.
-/

namespace Sys2Proof.Machine

theorem shiftBlocks_eq (f : Format) (k : Channel) (g : Nat) (bs : List Block) :
    shiftBlocks f k g bs = shiftSamples f k g bs.flatten := by
  induction bs generalizing g with
  | nil => rfl
  | cons b bs ih => rw [shiftBlocks, ih, List.flatten_cons, shiftSamples_append]

theorem filterBlocks_eq (f : Format) (sos : Vector Biquad 3) (zi : Vector Zi 3) (bs : List Block) :
    filterBlocks f sos zi bs = filterSamples f sos zi bs.flatten := by
  induction bs generalizing zi with
  | nil => rfl
  | cons b bs ih => rw [filterBlocks, ih, List.flatten_cons, filterSamples_append]

theorem transitionsOfBlocks_eq (g : Nat) (last : Bool) (bs : List Block) :
    transitionsOfBlocks g last bs = transitionsOf g last bs.flatten := by
  induction bs generalizing g last with
  | nil => rfl
  | cons b bs ih => rw [transitionsOfBlocks, ih, List.flatten_cons, transitionsOf_append]

/-- Settles O15, by induction on the blocks, stage by stage. -/
theorem stagesContinue : Obligations.StagesContinue :=
  ⟨shiftBlocks_eq, filterBlocks_eq, transitionsOfBlocks_eq⟩

end Sys2Proof.Machine
end

section
/-!
PROOFS. The search for the table length (spec R131, R132): the order of the data, and what the search
knows after each repeat count.
-/

namespace Sys2Proof

/-! ## The order of the data (spec R17) -/

/-- The place of a datum in the order of the numbers and the two infinities; a NaN has none. -/
def Datum.place? : Datum → Option (WithBot (WithTop Rat))
  | .nan => none
  | .inf true => some ⊥
  | .inf false => some ⊤
  | .fin s m e => some ((signed s (m * 2 ^ e) : WithTop Rat) : WithBot (WithTop Rat))

theorem Datum.place?_eq_none_iff (x : Datum) : x.place? = none ↔ x = .nan := by
  rcases x with _ | ⟨_ | _⟩ | _ <;> simp [Datum.place?]

/-- `x < y` is the order of the places, and false where there is none. -/
theorem Datum.lt_iff_place (x y : Datum) :
    x.lt y = true ↔ ∃ p q, x.place? = some p ∧ y.place? = some q ∧ p < q := by
  have finite (s t : Bool) (m n : Nat) (e g : Int) := Datum.lt_iff (Datum.toRat?_fin s m e)
    (Datum.toRat?_fin t n g)
  have below_top (q : Rat) : ((q : WithTop Rat) : WithBot (WithTop Rat)) < ⊤ :=
    WithBot.coe_lt_coe.2 (WithTop.coe_lt_top q)
  rcases x with _ | ⟨_ | _⟩ | ⟨s, m, e⟩ <;> rcases y with _ | ⟨_ | _⟩ | ⟨t, n, g⟩
  case fin.fin =>
    rw [finite]
    simp [Datum.place?]
  all_goals simp [Datum.lt, Datum.place?, below_top]

theorem Datum.lt_asymm {x y : Datum} (h : x.lt y = true) : y.lt x = false := by
  obtain ⟨p, q, hp, hq, lt⟩ := (Datum.lt_iff_place x y).1 h
  refine Bool.eq_false_iff.2 fun h' => ?_
  obtain ⟨q', p', hq', hp', lt'⟩ := (Datum.lt_iff_place y x).1 h'
  obtain rfl := Option.some_inj.1 (hp.symm.trans hp')
  obtain rfl := Option.some_inj.1 (hq.symm.trans hq')
  exact lt.asymm lt'

/-- A datum that is not below `y` is above all that is, or a NaN. -/
theorem Datum.nan_or_lt_of_not_lt {x y z : Datum} (h : x.lt y = true) (hz : z.lt y = false) :
    z = .nan ∨ x.lt z = true := by
  obtain ⟨p, q, hp, hq, lt⟩ := (Datum.lt_iff_place x y).1 h
  cases hr : z.place? with
  | none => exact .inl (z.place?_eq_none_iff.1 hr)
  | some r =>
    have le : q ≤ r := not_lt.1 fun lt' =>
      Bool.eq_false_iff.1 hz ((Datum.lt_iff_place z y).2 ⟨r, q, hr, hq, lt'⟩)
    exact .inr ((Datum.lt_iff_place x z).2 ⟨p, r, hp, hr, lt.trans_le le⟩)

@[simp] theorem Datum.lt_self (x : Datum) : x.lt x = false :=
  Bool.eq_false_iff.2 fun h => Bool.eq_false_iff.1 (Datum.lt_asymm h) h

/-- A datum that is a NaN or above `y` is not below it. -/
theorem Datum.not_lt_of_nan_or_lt {y z : Datum} (h : z = .nan ∨ y.lt z = true) : z.lt y = false := by
  rcases h with rfl | h
  · rfl
  · exact Datum.lt_asymm h

end Sys2Proof

namespace Sys2Proof.Machine

/-! ## One repeat count -/

section
variable {cfg : Params} {a : Datum} {r t : Nat} {e : Datum}

theorem not_exceedsTMax_iff {tMax : Option Nat} :
    exceedsTMax tMax t = false ↔ ∀ m, tMax = some m → t ≤ m := by
  cases tMax <;> simp [exceedsTMax]

/-- A candidate is a table of at least one entry within `T_MAX`. -/
theorem searchCandidate_eq_some_iff : searchCandidate cfg a r = some (t, e) ↔
    candidateLength cfg.fpA cfg.sampleRate a r = some t ∧ exceedsTMax cfg.tMax t = false ∧
      residualError cfg.fpA cfg.sampleRate a r t = e := by
  rw [searchCandidate]
  cases candidateLength cfg.fpA cfg.sampleRate a r with
  | none => simp
  | some t' =>
    cases h : exceedsTMax cfg.tMax t' with
    | false =>
      simp only [h, Bool.false_eq_true, if_false, Option.some_inj, Prod.mk.injEq]
      constructor
      · rintro ⟨rfl, rfl⟩
        exact ⟨rfl, h, rfl⟩
      · rintro ⟨rfl, -, rfl⟩
        exact ⟨rfl, rfl⟩
    | true =>
      simp only [h, if_true, Option.some_inj, reduceCtorEq, false_iff]
      rintro ⟨rfl, fits, -⟩
      exact absurd (h.symm.trans fits) (by decide)

theorem searchStep_of_none (h : searchCandidate cfg a r = none) (st : OscSearch) :
    searchStep cfg a st r = st := by
  cases hc : candidateLength cfg.fpA cfg.sampleRate a r with
  | none => simp only [searchStep, hc]
  | some t =>
    have long : exceedsTMax cfg.tMax t = true := by simpa [searchCandidate, hc] using h
    simp only [searchStep, hc, long, if_true]

theorem searchStep_of_some (h : searchCandidate cfg a r = some (t, e)) (st : OscSearch) :
    searchStep cfg a st r = if e.lt st.best then ⟨t, r, e, true⟩ else st := by
  obtain ⟨length, fits, error⟩ := searchCandidate_eq_some_iff.1 h
  simp only [searchStep, length, fits, error, Bool.false_eq_true, if_false]

end

/-! ## The repeat counts up to `n` -/

/-- What the search knows after the repeat counts `1` to `n`: it holds the candidate of the least error
below infinity, the first one of that error, or none of them has such an error. -/
structure OscSearch.BestUpTo (cfg : Params) (a : Datum) (n : Nat) (st : OscSearch) : Prop where
  least : ∀ r t e, 1 ≤ r → r ≤ n → searchCandidate cfg a r = some (t, e) → e.lt st.best = false
  first : ∀ r t e, 1 ≤ r → r < st.rep → searchCandidate cfg a r = some (t, e) →
    e = .nan ∨ st.best.lt e = true
  held : st.found = true →
    1 ≤ st.rep ∧ st.rep ≤ n ∧ searchCandidate cfg a st.rep = some (st.tLen, st.best)
  none_held : st.found = false → st.best = .inf false

section
variable {cfg : Params} {a : Datum} {n : Nat} {st : OscSearch}

theorem OscSearch.bestUpTo_zero (cfg : Params) (a : Datum) :
    OscSearch.BestUpTo cfg a 0 ⟨1, 1, .inf false, false⟩ where
  least := fun r t e h1 h0 => by omega
  first := fun r t e h1 (h0 : r < 1) => by omega
  held := by simp
  none_held := fun _ => rfl

/-- A repeat count whose candidate is no better leaves the search as it is. -/
theorem OscSearch.BestUpTo.keep (h : st.BestUpTo cfg a n)
    (worse : ∀ t e, searchCandidate cfg a (n + 1) = some (t, e) → e.lt st.best = false) :
    st.BestUpTo cfg a (n + 1) where
  least := fun r t e h1 hn hr => by
    rcases Nat.lt_succ_iff_lt_or_eq.1 (Nat.lt_succ_of_le hn) with hlt | rfl
    · exact h.least r t e h1 (Nat.lt_succ_iff.1 hlt) hr
    · exact worse t e hr
  first := h.first
  held := fun found => by
    obtain ⟨one, le, candidate⟩ := h.held found
    exact ⟨one, Nat.le_succ_of_le le, candidate⟩
  none_held := h.none_held

/-- A better candidate takes the place of the one held: all before it are NaN or have a greater error. -/
theorem OscSearch.BestUpTo.improve (h : st.BestUpTo cfg a n) {t : Nat} {e : Datum}
    (candidate : searchCandidate cfg a (n + 1) = some (t, e)) (better : e.lt st.best = true) :
    OscSearch.BestUpTo cfg a (n + 1) ⟨t, n + 1, e, true⟩ := by
  have before : ∀ r t' e', 1 ≤ r → r < n + 1 → searchCandidate cfg a r = some (t', e') →
      e' = .nan ∨ e.lt e' = true := fun r t' e' h1 hn hr =>
    Datum.nan_or_lt_of_not_lt better (h.least r t' e' h1 (Nat.lt_succ_iff.1 hn) hr)
  exact
    { least := fun r t' e' h1 hn hr => by
        rcases Nat.lt_succ_iff_lt_or_eq.1 (Nat.lt_succ_of_le hn) with hlt | rfl
        · exact Datum.not_lt_of_nan_or_lt (before r t' e' h1 hlt hr)
        · obtain ⟨-, rfl⟩ := Prod.mk.inj (Option.some_inj.1 (candidate.symm.trans hr))
          exact Datum.lt_self e
      first := before
      held := fun _ => ⟨Nat.le_add_left 1 n, le_rfl, candidate⟩
      none_held := by simp }

theorem OscSearch.BestUpTo.searchStep (h : st.BestUpTo cfg a n) :
    (searchStep cfg a st (n + 1)).BestUpTo cfg a (n + 1) := by
  cases hc : searchCandidate cfg a (n + 1) with
  | none =>
    rw [searchStep_of_none hc]
    exact h.keep fun t e hr => by simp [hc] at hr
  | some te =>
    obtain ⟨t, e⟩ := te
    rw [searchStep_of_some hc]
    split
    next better => exact h.improve hc better
    next worse =>
      refine h.keep fun t' e' hr => ?_
      obtain ⟨-, rfl⟩ := Prod.mk.inj (Option.some_inj.1 (hc.symm.trans hr))
      exact Bool.eq_false_iff.2 worse

end

/-- The search over the repeat counts `1` to `n`. -/
def searchUpTo (cfg : Params) (a : Datum) (n : Nat) : OscSearch :=
  (List.range n).foldl (fun st k => searchStep cfg a st (k + 1)) ⟨1, 1, .inf false, false⟩

theorem searchUpTo_best (cfg : Params) (a : Datum) (n : Nat) :
    (searchUpTo cfg a n).BestUpTo cfg a n := by
  induction n with
  | zero => exact OscSearch.bestUpTo_zero cfg a
  | succ n ih =>
    rw [searchUpTo, List.range_succ, List.foldl_append]
    exact ih.searchStep

/-! ## The result -/

section
variable {cfg : Params} {freq : Datum}

theorem searchPeriod_zero (h : freq.abs.isZero = true) :
    searchPeriod cfg freq = ⟨1, 1, fpZero cfg.fpA, true⟩ := by
  simp only [searchPeriod, h, if_true]

theorem searchPeriod_nonzero (h : freq.abs.isZero = false) : searchPeriod cfg freq =
    if (searchUpTo cfg freq.abs 9).found then searchUpTo cfg freq.abs 9
    else ⟨1, 1, freq.abs, false⟩ := by
  simp only [searchPeriod, h, Bool.false_eq_true, if_false]
  rfl

/-- A result that is found is the search's own. -/
theorem searchPeriod_found (h : freq.abs.isZero = false) (found : (searchPeriod cfg freq).found = true) :
    searchPeriod cfg freq = searchUpTo cfg freq.abs 9 := by
  rw [searchPeriod_nonzero h] at found ⊢
  split at found
  next own => rw [if_pos own]
  next => simp at found

/-- A result that is not found is the fall-back, and the search has found none. -/
theorem searchPeriod_not_found (h : freq.abs.isZero = false)
    (found : (searchPeriod cfg freq).found = false) :
    searchPeriod cfg freq = ⟨1, 1, freq.abs, false⟩ ∧ (searchUpTo cfg freq.abs 9).found = false := by
  rw [searchPeriod_nonzero h] at found ⊢
  split at found
  next own => simp [own] at found
  next noneFound => exact ⟨if_neg noneFound, Bool.eq_false_iff.2 noneFound⟩

end

/-- Settles O12: after the last repeat count the search holds the best candidate of them all. -/
theorem searchIsBest : Obligations.SearchIsBest := by
  intro cfg freq
  have best := searchUpTo_best cfg freq.abs 9
  refine ⟨fun zero => ?_, fun nonzero found => ?_, fun nonzero notFound => ?_⟩
  · rw [searchPeriod_zero zero]
    exact ⟨rfl, rfl, rfl⟩
  · have result := searchPeriod_found nonzero found
    rw [result] at found ⊢
    obtain ⟨one, nine, candidate⟩ := best.held found
    obtain ⟨length, fits, -⟩ := searchCandidate_eq_some_iff.1 candidate
    exact ⟨one, nine, candidateLength_pos length, not_exceedsTMax_iff.1 fits, candidate,
      fun r t e h1 h9 hr => ⟨best.least r t e h1 h9 hr, fun before => best.first r t e h1 before hr⟩⟩
  · obtain ⟨fallback, noneFound⟩ := searchPeriod_not_found nonzero notFound
    rw [fallback]
    exact ⟨rfl, rfl, rfl, fun r t e h1 h9 hr => best.none_held noneFound ▸ best.least r t e h1 h9 hr⟩

end Sys2Proof.Machine
end

section
/-!
PROOFS. The oscillator's table (spec R134, R135, R139, R141): how far rounding moves a number up to 3/2,
the exact entries, and how near every entry is to the true phasor.
-/

namespace Sys2Proof

/-! ## Rounding a representable number, and a number up to 3/2 -/

section
variable {f : Format}

/-- A multiple of a quantum by less than `2^prec` is a number of the format: a short significand is
doubled, and the exponent lowered, until it is full or the exponent the least one. -/
theorem Format.exists_datum (hp : 1 ≤ f.prec) {m : Nat} {e : Int} (hm : m < 2 ^ f.prec) (he : f.etiny ≤ e)
    (hmax : e + f.prec ≤ (f.emax : Int) + 1) :
    ∃ y : Datum, y.inFormat f = true ∧ y.toRat? = some (m * 2 ^ e : Rat) := by
  obtain ⟨j, rfl⟩ : ∃ j : Nat, e = f.etiny + j := ⟨(e - f.etiny).toNat, by omega⟩
  induction j generalizing m with
  | zero =>
    exact ⟨.fin false m (f.etiny + (0 : Nat)),
      (Datum.inFormat_fin ..).2 ⟨hm, he, hmax, .inr (by simp)⟩, Datum.toRat?_fin ..⟩
  | succ j ih =>
    by_cases full : 2 ^ (f.prec - 1) ≤ m
    · exact ⟨.fin false m (f.etiny + (j + 1 : Nat)),
        (Datum.inFormat_fin ..).2 ⟨hm, he, hmax, .inl full⟩, Datum.toRat?_fin ..⟩
    · have doubled : 2 * m < 2 ^ f.prec := by
        calc 2 * m < 2 * 2 ^ (f.prec - 1) := by omega
          _ = 2 ^ f.prec := mul_pow_sub_one (by omega) 2
      obtain ⟨y, hy, value⟩ := ih doubled (by omega) (by omega)
      refine ⟨y, hy, value.trans (congrArg some ?_)⟩
      rw [Nat.cast_succ, ← add_assoc, zpow_add_one₀ two_ne_zero]
      push_cast
      ring

/-- As `Format.exists_datum`, for a multiple of either sign. -/
theorem Format.exists_datum_int (hp : 1 ≤ f.prec) {z : Int} {e : Int} (hz : |z| < 2 ^ f.prec)
    (he : f.etiny ≤ e) (hmax : e + f.prec ≤ (f.emax : Int) + 1) :
    ∃ y : Datum, y.inFormat f = true ∧ y.toRat? = some (z * 2 ^ e : Rat) := by
  have hm : z.natAbs < 2 ^ f.prec := by zify; exact hz
  obtain ⟨y, hy, value⟩ := Format.exists_datum hp hm he hmax
  obtain ⟨y', hy', value'⟩ := Datum.exists_signed (decide (z < 0)) hy value
  refine ⟨y', hy', value'.trans (congrArg some ?_)⟩
  rw [Nat.cast_natAbs]
  rcases lt_or_ge z 0 with neg | nonneg
  · simp [neg, abs_of_neg neg]
  · simp [nonneg.not_gt, abs_of_nonneg nonneg]

/-- A legal format reaches beyond 3/2. -/
theorem lt_overflowAt (hf : f.legal = true) : 3 / 2 < overflowAt f := by
  obtain ⟨hp, he⟩ := f.legal_iff.1 hf
  have half : (2 : Rat) ^ ((f.emax : Int) - f.prec) ≤ 2 ^ ((f.emax : Int) - 1) :=
    zpow_le_zpow_right₀ (by norm_num) (by omega)
  have one : (1 : Rat) ≤ 2 ^ ((f.emax : Int) - 1) := one_le_zpow₀ (by norm_num) (by omega)
  have four : (2 : Rat) ^ ((f.emax : Int) + 1) = 4 * 2 ^ ((f.emax : Int) - 1) := by
    rw [show (f.emax : Int) + 1 = (f.emax - 1) + (2 : Nat) by push_cast; ring, two_zpow_add_natCast]
    norm_num
  rw [overflowAt]
  linarith

theorem Rounded.finite {q : Rat} {r : Datum} (h : Rounded f q r) (hq : |q| < overflowAt f) :
    ∃ v, r.toRat? = some v := by
  cases r with
  | nan => exact absurd rfl h.not_nan
  | inf s => exact absurd hq ((h.overflow s).1 rfl).1.not_gt
  | fin s m e => exact ⟨_, Datum.toRat?_fin s m e⟩

/-- Rounding moves a number of absolute value up to 3/2 by at most `2^(-prec)`. -/
theorem Rounded.near (hf : f.legal = true) {q : Rat} {r : Datum} (h : Rounded f q r)
    (hq : |q| ≤ 3 / 2) : ∃ v, r.toRat? = some v ∧ |v - q| ≤ 1 / 2 ^ f.prec := by
  obtain ⟨hp, he⟩ := f.legal_iff.1 hf
  obtain ⟨v, hv⟩ := h.finite (hq.trans_lt (lt_overflowAt hf))
  refine ⟨v, hv, ?_⟩
  obtain ⟨p, hpp⟩ : ∃ p, f.prec = p + 1 := ⟨f.prec - 1, by omega⟩
  have pos : (0 : Rat) < 2 ^ p := by positivity
  have two : (2 : Rat) ≤ 2 ^ p := le_self_pow₀ (by norm_num) (by omega)
  have gap : |q * 2 ^ p - round (q * 2 ^ p)| ≤ 1 / 2 := abs_sub_round _
  have small : |round (q * 2 ^ p)| < 2 ^ f.prec := by
    have size : |q * 2 ^ p| ≤ 3 / 2 * 2 ^ p := by
      rw [abs_mul, abs_of_pos pos]
      gcongr
    have : |((round (q * 2 ^ p) : Int) : Rat)| < 2 ^ f.prec := by
      rw [abs_sub_comm] at gap
      calc |((round (q * 2 ^ p) : Int) : Rat)|
          ≤ |round (q * 2 ^ p) - q * 2 ^ p| + |q * 2 ^ p| := by
            simpa using abs_add_le (round (q * 2 ^ p) - q * 2 ^ p) (q * 2 ^ p)
        _ < 2 * 2 ^ p := by linarith
        _ = 2 ^ f.prec := by rw [hpp, pow_succ']
    exact_mod_cast this
  obtain ⟨y, hy, value⟩ := Format.exists_datum_int (e := -p) (by omega) small
    (by simp only [Format.etiny]; omega) (by omega)
  calc |v - q| ≤ |round (q * 2 ^ p) * 2 ^ (-(p : Int)) - q| := h.nearest v hv y _ hy value
    _ = |q * 2 ^ p - round (q * 2 ^ p)| / 2 ^ p := by
      rw [zpow_neg, zpow_natCast, ← div_eq_mul_inv, div_sub' pos.ne', abs_div, abs_of_pos pos,
        abs_sub_comm, mul_comm q]
    _ ≤ 1 / 2 / 2 ^ p := by gcongr
    _ = 1 / 2 ^ f.prec := by rw [hpp, pow_succ', div_div]

/-- A representable number is rounded to itself. -/
theorem Rounded.exact {q : Rat} {r : Datum} (h : Rounded f q r) (hq : |q| < overflowAt f)
    {y : Datum} (hy : y.inFormat f = true) (value : y.toRat? = some q) : r.toRat? = some q := by
  obtain ⟨v, hv⟩ := h.finite hq
  have dist : |v - q| ≤ 0 := by simpa using h.nearest v hv y q hy value
  rw [hv, sub_eq_zero.1 (abs_nonpos_iff.1 dist)]

/-- The units `1` and `-1` are exact in every legal format. -/
theorem Rounded.unit (hf : f.legal = true) {z : Int} (hz : |z| = 1) {r : Datum}
    (h : Rounded f z r) : r.toRat? = some (z : Rat) := by
  obtain ⟨hp, he⟩ := f.legal_iff.1 hf
  have two : (2 : Int) ≤ 2 ^ (f.prec - 1) := le_self_pow₀ (by norm_num) (by omega)
  have small : |z * 2 ^ (f.prec - 1)| < 2 ^ f.prec := by
    rw [abs_mul, hz, one_mul, abs_of_nonneg (by positivity)]
    exact pow_lt_pow_right₀ (by norm_num) (by omega)
  obtain ⟨y, hy, value⟩ := Format.exists_datum_int (e := -(f.prec - 1 : Nat)) (by omega) small
    (by simp only [Format.etiny]; omega) (by omega)
  have cancel : ((z * 2 ^ (f.prec - 1) : Int) : Rat) * 2 ^ (-(f.prec - 1 : Nat) : Int) = z := by
    push_cast
    rw [zpow_neg, zpow_natCast, mul_inv_cancel_right₀ (by positivity)]
  have abs_one : |(z : Rat)| = 1 := by exact_mod_cast hz
  exact h.exact (by linarith [lt_overflowAt hf]) hy (cancel ▸ value)

end

end Sys2Proof

namespace Sys2Proof.Machine

/-! ## Nearness to a phasor -/

/-- The parts of `z` are finite and within `3 / 2^prec` of `c` and `s`. -/
def Near (f : Format) (z : Cplx) (c s : ℝ) : Prop :=
  ∃ a b : Rat, z.re.toRat? = some a ∧ z.im.toRat? = some b ∧
    |(a : ℝ) - c| ≤ 3 / 2 ^ f.prec ∧ |(b : ℝ) - s| ≤ 3 / 2 ^ f.prec

section
variable {f : Format} {z : Cplx}

theorem near_of_exact {a b : Rat} (re : z.re.toRat? = some a) (im : z.im.toRat? = some b) :
    Near f z a b :=
  ⟨a, b, re, im, by rw [sub_self, abs_zero]; positivity, by rw [sub_self, abs_zero]; positivity⟩

theorem Near.conj {c s : ℝ} (h : Near f z c s) : Near f z.conj c (-s) := by
  obtain ⟨a, b, re, im, cosine, sine⟩ := h
  refine ⟨a, -b, re, Datum.toRat?_neg im, cosine, ?_⟩
  rwa [Rat.cast_neg, neg_sub_neg, abs_sub_comm]

end

/-- A number near a point of the unit circle has a magnitude near 1: the error is
`2 * (c * (a - c) + s * (b - s)) + (a - c)^2 + (b - s)^2`, and `|c| + |s| ≤ 3/2`. -/
theorem abs_magnitude_sub_one_le {a b c s d : ℝ} (circle : c ^ 2 + s ^ 2 = 1) (hd : 4 ≤ d)
    (ha : |a - c| ≤ 3 / d) (hb : |b - s| ≤ 3 / d) : |a ^ 2 + b ^ 2 - 1| ≤ 16 / d := by
  rw [div_eq_mul_inv] at ha hb ⊢
  have small : d⁻¹ ≤ 1 / 4 := one_div (4 : ℝ) ▸ inv_anti₀ (by norm_num) hd
  generalize d⁻¹ = u at *
  have u0 : 0 ≤ u := by linarith [abs_nonneg (a - c)]
  have sum : |c| + |s| ≤ 3 / 2 := by
    rw [← sq_abs c, ← sq_abs s] at circle
    nlinarith [sq_nonneg (|c| - |s|), abs_nonneg c, abs_nonneg s]
  have linear : |c * (a - c) + s * (b - s)| ≤ 9 / 2 * u := by
    calc |c * (a - c) + s * (b - s)| ≤ |c| * |a - c| + |s| * |b - s| := by
          rw [← abs_mul, ← abs_mul]
          exact abs_add_le _ _
      _ ≤ |c| * (3 * u) + |s| * (3 * u) := by gcongr
      _ = (|c| + |s|) * (3 * u) := by ring
      _ ≤ 3 / 2 * (3 * u) := by gcongr
      _ = 9 / 2 * u := by ring
  have square {x : ℝ} (hx : |x| ≤ 3 * u) : x ^ 2 ≤ 9 / 4 * u := by
    rw [← sq_abs]
    calc |x| ^ 2 ≤ (3 * u) ^ 2 := by gcongr
      _ = 9 * u * u := by ring
      _ ≤ 9 * u * (1 / 4) := by gcongr
      _ = 9 / 4 * u := by ring
  have expand : a ^ 2 + b ^ 2 - 1
      = 2 * (c * (a - c) + s * (b - s)) + ((a - c) ^ 2 + (b - s) ^ 2) := by
    rw [← circle]
    ring
  have sq_a := square ha
  have sq_b := square hb
  obtain ⟨low, high⟩ := abs_le.1 linear
  rw [expand, abs_le]
  constructor <;> linarith [sq_nonneg (a - c), sq_nonneg (b - s)]

/-! ## The phasors of the model -/

section
variable {f : Format} (hf : f.legal = true)
include hf

theorem four_le_two_pow_prec : (4 : ℝ) ≤ 2 ^ f.prec := by
  calc (4 : ℝ) = 2 ^ 2 := by norm_num
    _ ≤ _ := pow_le_pow_right₀ (by norm_num) (f.legal_iff.1 hf).1

theorem cone_re : (cone f).re.toRat? = some 1 := by
  have h := ofNat_rounded hf 1
  rw [Nat.cast_one] at h
  simpa [cone] using Rounded.unit hf (z := 1) (by norm_num) (by simpa using h)

/-- A trigonometric value, within `2 / 2^prec` of the true one, is within `3 / 2^prec` once rounded. -/
theorem trigDatum_near {p : Int × Nat} {x : ℝ} (hx : |x| ≤ 1)
    (h : |(p.1 : ℝ) / 2 ^ p.2 - x| ≤ 2 / 2 ^ f.prec) :
    ∃ v, (trigDatum f p).toRat? = some v ∧ |(v : ℝ) - x| ≤ 3 / 2 ^ f.prec := by
  have cast : ((p.1 * 2 ^ (-(p.2 : Int)) : Rat) : ℝ) = p.1 / 2 ^ p.2 := by
    push_cast
    rw [zpow_neg, zpow_natCast, div_eq_mul_inv]
  have rounded : Rounded f _ (trigDatum f p) := roundQ_int_rounded hf (fun _ => rfl) (-(p.2 : Int))
  rw [← cast] at h
  generalize (p.1 * 2 ^ (-(p.2 : Int)) : Rat) = q at h rounded
  have half : (2 : ℝ) / 2 ^ f.prec ≤ 1 / 2 := by
    rw [div_le_div_iff₀ (by positivity) (by norm_num)]
    linarith [four_le_two_pow_prec hf]
  have size : |(q : ℝ)| ≤ ((3 / 2 : Rat) : ℝ) := by
    push_cast
    linarith [abs_sub_abs_le_abs_sub (q : ℝ) x]
  obtain ⟨v, hv, dist⟩ := rounded.near hf (by exact_mod_cast size)
  have dist' : |(v : ℝ) - q| ≤ ((1 / 2 ^ f.prec : Rat) : ℝ) := by exact_mod_cast dist
  push_cast at dist'
  refine ⟨v, hv, ?_⟩
  calc |(v : ℝ) - x| ≤ |(v : ℝ) - q| + |(q : ℝ) - x| := abs_sub_le _ _ _
    _ ≤ 1 / 2 ^ f.prec + 2 / 2 ^ f.prec := add_le_add dist' h
    _ = 3 / 2 ^ f.prec := by ring

/-- Half a turn in the table of two entries is `-1` exactly (spec R141). -/
theorem phasor_half : (phasor f 1 2).re.toRat? = some (-1) ∧ (phasor f 1 2).im.toRat? = some 0 := by
  simpa [phasor] using Rounded.unit hf (by norm_num) (ofInt_rounded hf (-1))

/-- The phasor of `m / tLen` of a turn is near the true one (spec R134). -/
theorem phasor_near {m tLen : Nat} (hm : m < tLen) :
    Near f (phasor f m tLen) (Real.cos (2 * Real.pi * (m / tLen)))
      (Real.sin (2 * Real.pi * (m / tLen))) := by
  have pos : (0 : Rat) < tLen := by exact_mod_cast (Nat.zero_le m).trans_lt hm
  by_cases zero : m = 0
  · subst zero
    simpa [phasor] using near_of_exact (f := f) (cone_re hf) (fpZero_toRat? f)
  · by_cases two : tLen = 2
    · obtain rfl : m = 1 := by omega
      subst two
      obtain ⟨re, im⟩ := phasor_half hf
      have angle : 2 * Real.pi * (((1 : Nat) : ℝ) / ((2 : Nat) : ℝ)) = Real.pi := by
        push_cast
        ring
      rw [angle, Real.cos_pi, Real.sin_pi]
      simpa using near_of_exact (f := f) re im
    · have t0 : (0 : Rat) ≤ m / tLen := by positivity
      have t1 : (m : Rat) / tLen < 1 := (div_lt_one pos).2 (by exact_mod_cast hm)
      have cast : ((m / tLen : Rat) : ℝ) = m / tLen := by push_cast; rfl
      have cosine := instanceTrig.cos_near f _ t0 t1
      have sine := instanceTrig.sin_near f _ t0 t1
      rw [cast] at cosine sine
      obtain ⟨a, re, near_cos⟩ := trigDatum_near hf (Real.abs_cos_le_one _) cosine
      obtain ⟨b, im, near_sin⟩ := trigDatum_near hf (Real.abs_sin_le_one _) sine
      rw [phasor, if_neg zero, if_neg two]
      exact ⟨a, b, re, im, near_cos, near_sin⟩

end

/-! ## The entries of the table -/

/-- The direction as a sign (spec R21). -/
def rotationSign : Rotation → ℝ
  | .plus => 1
  | .minus => -1

section
variable {f : Format} {rep tLen k : Nat}

theorem oscEntry_zero (h : rep * k % tLen = 0) (sgn : Rotation) :
    oscEntry f sgn rep tLen k = cone f := by
  cases sgn <;> simp [oscEntry, phasor, h]

theorem oscEntry_plus : oscEntry f .plus rep tLen k = phasor f (rep * k % tLen) tLen := rfl

theorem oscEntry_minus (h : rep * k % tLen ≠ 0) :
    oscEntry f .minus rep tLen k = (phasor f (rep * k % tLen) tLen).conj := if_neg h

/-- An entry depends on `R*k mod T` alone. -/
theorem oscEntry_congr {j : Nat} (h : rep * j % tLen = rep * k % tLen) (sgn : Rotation) :
    oscEntry f sgn rep tLen j = oscEntry f sgn rep tLen k := by
  simp only [oscEntry, h]

@[simp] theorem oscTable_length (f : Format) (sgn : Rotation) (rep tLen : Nat) :
    (oscTable f sgn rep tLen).length = tLen := by
  simp [oscTable]

theorem oscTable_getElem? (hk : k < tLen) (sgn : Rotation) :
    (oscTable f sgn rep tLen)[k]? = some (oscEntry f sgn rep tLen k) := by
  simp [oscTable, hk]

/-- Every entry is near the true phasor of `sgn*R*k/T` of a turn (spec R134). -/
theorem oscEntry_near (hf : f.legal = true) (hk : k < tLen) (sgn : Rotation) :
    Near f (oscEntry f sgn rep tLen k) (Real.cos (2 * Real.pi * ((rep * k % tLen : Nat) / tLen)))
      (rotationSign sgn * Real.sin (2 * Real.pi * ((rep * k % tLen : Nat) / tLen))) := by
  have near := phasor_near hf (Nat.mod_lt (rep * k) (Nat.zero_lt_of_lt hk))
  cases sgn with
  | plus => simpa only [oscEntry_plus, rotationSign, one_mul] using near
  | minus =>
    by_cases zero : rep * k % tLen = 0
    · rw [oscEntry_zero zero, ← oscEntry_zero zero .plus, oscEntry_plus]
      simpa [zero] using near
    · simpa only [oscEntry_minus zero, rotationSign, neg_one_mul] using near.conj

theorem oscEntry_half (hf : f.legal = true) (h : rep * k % 2 = 1) (sgn : Rotation) :
    (oscEntry f sgn rep 2 k).re.toRat? = some (-1) ∧ (oscEntry f sgn rep 2 k).im.toRat? = some 0 := by
  obtain ⟨re, im⟩ := phasor_half hf
  cases sgn with
  | plus =>
    rw [oscEntry_plus, h]
    exact ⟨re, im⟩
  | minus =>
    rw [oscEntry_minus (by omega), h]
    exact ⟨re, neg_zero (G := Rat) ▸ Datum.toRat?_neg im⟩

end

theorem rotationSign_sq (sgn : Rotation) : rotationSign sgn ^ 2 = 1 := by
  cases sgn <;> norm_num [rotationSign]

/-- Settles O13: the entries are the model's phasors and their conjugates, which are exact or near the
true ones. -/
theorem oscillatorTable : Obligations.OscillatorTable := by
  refine ⟨fun f hf => ⟨cone_re hf, fpZero_toRat? f⟩, fun f rep tLen sgn pos => ?_,
    fun f rep tLen sgn k hf hk => ?_⟩
  · refine ⟨oscTable_length f sgn rep tLen, ?_, fun k hk => ⟨fun zero => ?_, fun nonzero => ?_,
      fun j hj same => ?_⟩⟩
    · rw [oscTable_getElem? pos, oscEntry_zero (by simp)]
    · rw [oscTable_getElem? hk, oscEntry_zero zero]
    · exact ⟨_, oscTable_getElem? hk .plus,
        (oscTable_getElem? hk .minus).trans (congrArg some (oscEntry_minus nonzero))⟩
    · rw [oscTable_getElem? hj, oscTable_getElem? hk, oscEntry_congr same]
  · obtain ⟨a, b, re, im, cosine, sine⟩ := oscEntry_near (rep := rep) hf hk sgn
    refine ⟨_, a, b, oscTable_getElem? hk sgn, re, im, ⟨cosine, sine⟩, ?_, ?_⟩
    · have magnitude := abs_magnitude_sub_one_le
        (by rw [mul_pow, rotationSign_sq, one_mul, Real.cos_sq_add_sin_sq])
        (four_le_two_pow_prec hf) cosine sine
      rw [← Rat.cast_le (K := ℝ)]
      push_cast
      exact magnitude
    · rintro rfl odd
      obtain ⟨re', im'⟩ := oscEntry_half hf odd sgn
      exact ⟨Option.some_inj.1 (re.symm.trans re'), Option.some_inj.1 (im.symm.trans im')⟩

end Sys2Proof.Machine
end

section
/-!
PROOFS. The low-pass filter (spec 41_lowpass.md): one sample through the cascade, the filter state before
each sample (spec R152), and the sections one after the other over the whole buffer (spec R153).
-/

namespace Sys2Proof.Machine

section
variable (f : Format) (sos : Vector Biquad 3) (zi : Vector Zi 3)

/-! ## One sample through the cascade -/

/-- The signal that section `k` takes of the sample `u`, the output sample at `k = 3` (spec R150). -/
def cascadeSignal (u : Cplx) : Nat → Cplx
  | 0 => u
  | k + 1 =>
    if _ : k < 3 then (filterSection f sos[k] zi[k] (cascadeSignal u k)).1 else cascadeSignal u k

theorem cascadeSignal_succ (u : Cplx) {k : Nat} (hk : k < 3) :
    cascadeSignal f sos zi u (k + 1)
      = (filterSection f sos[k] zi[k] (cascadeSignal f sos zi u k)).1 :=
  dif_pos hk

theorem filterSample_output (u : Cplx) :
    (filterSample f sos zi u).1 = cascadeSignal f sos zi u 3 := rfl

/-- Each section's new state is made from its own old state and the signal it takes. -/
theorem filterSample_state (u : Cplx) {k : Nat} (hk : k < 3) :
    (filterSample f sos zi u).2[k]
      = (filterSection f sos[k] zi[k] (cascadeSignal f sos zi u k)).2 := by
  match k, hk with
  | 0, _ => rfl
  | 1, _ => rfl
  | 2, _ => rfl

/-! ## The filter state before each sample -/

/-- The filter state before sample `i`: the one the first `i` samples leave. -/
def filterStateAt (xs : List Cplx) (i : Nat) : Vector Zi 3 := (filterSamples f sos zi (xs.take i)).2

theorem filterStateAt_zero (xs : List Cplx) : filterStateAt f sos zi xs 0 = zi := rfl

theorem filterStateAt_length (xs : List Cplx) :
    filterStateAt f sos zi xs xs.length = (filterSamples f sos zi xs).2 := by
  rw [filterStateAt, List.take_length]

theorem filterStateAt_succ {xs : List Cplx} {i : Nat} {u : Cplx} (hu : xs[i]? = some u) :
    filterStateAt f sos zi xs (i + 1) = (filterSample f sos (filterStateAt f sos zi xs i) u).2 := by
  rw [filterStateAt, List.take_add_one, hu, filterSamples_append]
  rfl

/-- Section `k`'s state before the next sample is the one the section leaves at this sample. -/
theorem filterStateAt_succ_getElem {xs : List Cplx} {i : Nat} {u : Cplx} (hu : xs[i]? = some u)
    {k : Nat} (hk : k < 3) :
    (filterStateAt f sos zi xs (i + 1))[k]
      = (filterSection f sos[k] (filterStateAt f sos zi xs i)[k]
          (cascadeSignal f sos (filterStateAt f sos zi xs i) u k)).2 := by
  simp only [filterStateAt_succ f sos zi hu, filterSample_state _ _ _ u hk]

/-- Output sample `i` is sample `i` through the cascade in the state before it. -/
theorem filterSamples_getElem? {xs : List Cplx} {i : Nat} {u : Cplx} (hu : xs[i]? = some u) :
    (filterSamples f sos zi xs).1[i]?
      = some (filterSample f sos (filterStateAt f sos zi xs i) u).1 := by
  induction xs generalizing zi i with
  | nil => simp at hu
  | cons v vs ih =>
    cases i with
    | zero =>
      obtain rfl : v = u := by simpa using hu
      rfl
    | succ i => exact ih _ (by simpa using hu)

/-! ## Section by section -/

/-- By induction on the buffer: a section's state before a sample depends on that section's own past
and the signal it took alone. -/
theorem filterSamples_eq_sections (xs : List Cplx) :
    filterSamples f sos zi xs =
      let r0 := sectionOver f sos[0] zi[0] xs
      let r1 := sectionOver f sos[1] zi[1] r0.1
      let r2 := sectionOver f sos[2] zi[2] r1.1
      (r2.1, #v[r0.2, r1.2, r2.2]) := by
  induction xs generalizing zi with
  | nil =>
    have entries : zi = #v[zi[0], zi[1], zi[2]] := by
      ext k hk : 1
      match k, hk with
      | 0, _ => rfl
      | 1, _ => rfl
      | 2, _ => rfl
    exact congrArg (Prod.mk []) entries
  | cons u us ih =>
    rw [filterSamples, ih]
    rfl

end

/-- Settles O16: the state before each sample, and the signals of the sections in that state. -/
theorem lpfResult : Obligations.LpfResult := by
  refine ⟨fun c => rfl, fun s c ready => ?_⟩
  let k := s.chan c
  let zs := filterStateAt s.cfg.fpS s.cfg.sos k.zi k.x
  refine ⟨(filterChannel s.cfg k).x, zs,
    fun i => cascadeSignal s.cfg.fpS s.cfg.sos (zs i) (k.x.getD i default), ?_,
    filterSamples_length _ _ _ _, filterStateAt_zero _ _ _ _, fun i u hu => ?_⟩
  · have final : zs k.x.length = (filterChannel s.cfg k).zi := filterStateAt_length _ _ _ _
    rw [final]
    exact exec_lpf_ready ready
  · have sample : k.x.getD i default = u := by rw [List.getD_eq_getElem?_getD, hu, Option.getD_some]
    simp only [sample]
    refine ⟨rfl, filterSamples_getElem? _ _ _ hu, fun j hj => ?_⟩
    rw [filterStateAt_succ_getElem _ _ _ hu hj, cascadeSignal_succ _ _ _ u hj]
    exact ⟨rfl, rfl, rfl⟩

/-- Settles O17, by induction on the buffer. -/
theorem lpfSectionOrder : Obligations.LpfSectionOrder := filterSamples_eq_sections

end Sys2Proof.Machine
end

section
/-!
PROOFS. The discriminator (spec 42_discriminator.md): one sample of its output, read off the sequence of
history and buffer (spec R166 to R168), and its output on a stream cut into blocks (spec R171).
-/

namespace Sys2Proof.Machine

section
variable {hist : List Cplx} {hlen : Nat} (hh : hist.length = hlen) (f : Format) (fs : Datum)
include hh

/-- Output sample `i`, when entries `i + 1` and `i + 2` of history and buffer are `a` and `b` and sample
`i` of the buffer is `z` (spec R166, R167). -/
theorem discriminate_getElem? {xs : List Cplx} {i : Nat} {a b z : Cplx}
    (ha : (hist ++ xs)[i + 1]? = some a) (hb : (hist ++ xs)[i + 2]? = some b)
    (hz : xs[i]? = some z) :
    (discriminate f fs hist xs hlen)[i]? = some (cmulconj f
      (cadd f (cscale f (fpSub f (ofNat f 1) fs) a) (cscale f fs b)) z) := by
  have inside : (List.range xs.length)[i]? = some i :=
    List.getElem?_range (List.getElem?_eq_some_iff.1 hz).1
  simp only [discriminate, List.getElem?_map, inside, Option.map_some, interpolate_eq hh,
    List.getD_eq_getElem?_getD, ha, hb, hz, Option.getD_some]

/-- By induction on the blocks: in pieces or whole, the stream gives the same output and leaves the same
history. -/
theorem discriminateBlocks_eq_flatten (h2 : 2 ≤ hlen) (bs : List Block) :
    discriminateBlocks f fs hlen hist bs
      = (discriminate f fs hist bs.flatten hlen, newHistory hist bs.flatten hlen) := by
  induction bs generalizing hist with
  | nil =>
    have kept : newHistory hist [] hlen = hist := by simp [newHistory_eq _ _ _ hh]
    exact congrArg (Prod.mk []) kept.symm
  | cons b bs ih =>
    simp only [discriminateBlocks, List.flatten_cons, ih (newHistory_length _ _ _ hh),
      discriminate_append hh _ _ h2, newHistory_append hh]

end

/-- Settles O18: the operation is the channel's stage, whose samples are read off history and buffer. -/
theorem discResult : Obligations.DiscResult := by
  refine ⟨fun c => rfl, fun s c ready hh _ => ?_⟩
  refine ⟨(discChannel s.cfg (s.chan c)).x, ?_, discriminate_length _ _ _ _ _,
    fun i a b z ha hb hz => discriminate_getElem? hh _ _ ha hb hz⟩
  rw [← newHistory_eq _ _ _ hh]
  exact exec_disc_ready ready

/-- Settles O19: the blocks give what the whole stream gives as one buffer, whose samples are those of
R171. -/
theorem discContinuity : Obligations.DiscContinuity := by
  intro f fs hlen bs h2
  have zeros : (List.replicate hlen (czero f)).length = hlen := List.length_replicate
  simp only [discriminateBlocks_eq_flatten zeros f fs h2]
  exact ⟨discriminate_length _ _ _ _ _, newHistory_eq _ _ _ zeros,
    fun g a b z ha hb hz => discriminate_getElem? zeros f fs ha hb hz⟩

end Sys2Proof.Machine
end

section
/-!
PROOFS. The extractor (spec 43_extractor.md): the boolean of a sample (spec R186), the records of a
buffer (spec R187), the properties of the record stream (spec R188) and the record's word (spec R112).
-/

namespace Sys2Proof.Machine

/-! ## The boolean of a sample (spec R186) -/

theorem signed_lt_zero_iff {p : Rat} (hp : 0 ≤ p) (neg : Bool) :
    signed neg p < 0 ↔ neg = true ∧ 0 < p := by
  cases neg with
  | false => simp [not_lt.2 hp]
  | true => simp

theorem sampleBit_fin_iff (re : Datum) (neg : Bool) (m : Nat) (e : Int) :
    sampleBit ⟨re, .fin neg m e⟩ = true ↔ neg = true ∧ 0 < m := by
  have zero : (Datum.fin false 0 0).toRat? = some 0 := by simp [Datum.toRat?_fin]
  have scale : (0 : Rat) < 2 ^ e := by positivity
  rw [sampleBit, Datum.lt_iff (Datum.toRat?_fin neg m e) zero, signed_lt_zero_iff (by positivity),
    mul_pos_iff_of_pos_right scale, Nat.cast_pos]

/-- Settles O20, by the kinds of data; the finite ones are ordered as the numbers they stand for. -/
theorem sampleBoolean : Obligations.SampleBoolean := by
  intro re im
  cases im with
  | nan => simp [sampleBit, Datum.lt]
  | inf neg => cases neg <;> simp [sampleBit, Datum.lt]
  | fin neg m e => simp [sampleBit_fin_iff]

/-! ## The records of a buffer (spec R187) -/

theorem transitionsOf_cons_same {z : Cplx} {last : Bool} (h : sampleBit z = last) (g : Nat)
    (zs : List Cplx) : transitionsOf g last (z :: zs) = transitionsOf (g + 1) last zs := by
  simp [transitionsOf, h]

theorem transitionsOf_cons_change {z : Cplx} {last : Bool} (h : sampleBit z ≠ last) (g : Nat)
    (zs : List Cplx) : transitionsOf g last (z :: zs)
      = (⟨g, sampleBit z⟩ :: (transitionsOf (g + 1) (sampleBit z) zs).1,
        (transitionsOf (g + 1) (sampleBit z) zs).2) := by
  simp [transitionsOf, h]

/-- The boolean carried out is that of the last sample, or the one carried in. -/
theorem transitionsOf_last (g : Nat) (last : Bool) (xs : List Cplx) :
    (transitionsOf g last xs).2 = (xs.getLast?.map sampleBit).getD last := by
  induction xs generalizing g last with
  | nil => rfl
  | cons z zs ih =>
    rw [transitionsOf, ih, List.getLast?_cons]
    cases zs.getLast? <;> rfl

theorem mem_transitionsOf_cons_iff {g h : Nat} {last v : Bool} {z : Cplx} {zs : List Cplx} :
    (⟨h, v⟩ : Transition) ∈ (transitionsOf g last (z :: zs)).1 ↔
      (h = g ∧ v = sampleBit z ∧ v ≠ last) ∨
        (⟨h, v⟩ : Transition) ∈ (transitionsOf (g + 1) (sampleBit z) zs).1 := by
  by_cases same : sampleBit z = last
  · have no_record : ¬ (h = g ∧ v = sampleBit z ∧ v ≠ last) := fun ⟨_, hv, ne⟩ => ne (hv.trans same)
    rw [transitionsOf_cons_same same, same, or_iff_right (same ▸ no_record)]
  · have record : v = sampleBit z → v ≠ last := fun hv => hv ▸ same
    rw [transitionsOf_cons_change same, List.mem_cons, Transition.mk.injEq, and_iff_left_of_imp record]

/-- A record has the index and the boolean of a sample that differs from the one before it. -/
theorem mem_transitionsOf_iff {g h : Nat} {last v : Bool} {xs : List Cplx} :
    (⟨h, v⟩ : Transition) ∈ (transitionsOf g last xs).1 ↔
      ∃ i z before, xs[i]? = some z ∧ (last :: xs.map sampleBit)[i]? = some before ∧
        h = g + i ∧ v = sampleBit z ∧ v ≠ before := by
  induction xs generalizing g last with
  | nil => simp [transitionsOf]
  | cons z zs ih =>
    rw [mem_transitionsOf_cons_iff, ← Nat.or_exists_add_one, ih]
    refine or_congr ?_ (exists_congr fun i => ?_)
    · simp
    · rw [Nat.add_assoc, Nat.add_comm 1]
      rfl

theorem le_idx_of_mem_transitionsOf {g : Nat} {last : Bool} {xs : List Cplx} {t : Transition}
    (ht : t ∈ (transitionsOf g last xs).1) : g ≤ t.idx := by
  obtain ⟨i, _, _, _, _, idx, _⟩ := mem_transitionsOf_iff.1 ht
  omega

theorem transitionsOf_increasing (g : Nat) (last : Bool) (xs : List Cplx) :
    (transitionsOf g last xs).1.Pairwise fun a b => a.idx < b.idx := by
  induction xs generalizing g last with
  | nil => exact List.Pairwise.nil
  | cons z zs ih =>
    by_cases same : sampleBit z = last
    · rw [transitionsOf_cons_same same]
      exact ih _ _
    · rw [transitionsOf_cons_change same]
      exact List.pairwise_cons.2 ⟨fun t ht => le_idx_of_mem_transitionsOf ht, ih _ _⟩

/-- Settles O21: the operation is the channel's stage, whose records are the changes of the boolean. -/
theorem extrResult : Obligations.ExtrResult := by
  refine ⟨fun c => rfl, fun s c ready => ?_⟩
  let k := s.chan c
  refine ⟨(transitionsOf k.nTotal k.prevBit k.x).1, ?_, transitionsOf_increasing _ _ _,
    fun g v => mem_transitionsOf_iff⟩
  rw [← transitionsOf_last k.nTotal]
  exact exec_extr_ready ready

/-! ## The stream of records (spec R188) -/

/-- Each record negates the boolean before it. -/
theorem transitionsOf_alternate (g : Nat) (last : Bool) (xs : List Cplx) {i : Nat} {t : Transition}
    (ht : (transitionsOf g last xs).1[i]? = some t) :
    t.newState = (last ^^ decide (i % 2 = 0)) := by
  induction xs generalizing g last i with
  | nil => simp [transitionsOf] at ht
  | cons z zs ih =>
    by_cases same : sampleBit z = last
    · rw [transitionsOf_cons_same same] at ht
      exact ih _ _ ht
    · have negated : sampleBit z = !last := Bool.eq_not_of_ne same
      rw [transitionsOf_cons_change same] at ht
      cases i with
      | zero =>
        obtain rfl : (⟨g, sampleBit z⟩ : Transition) = t := by simpa using ht
        simpa using negated
      | succ i =>
        have parity : decide ((i + 1) % 2 = 0) = !decide (i % 2 = 0) := by
          rw [← decide_not]
          exact decide_eq_decide.2 (by omega)
        rw [ih _ _ (by simpa using ht), negated, parity, Bool.not_xor, Bool.xor_not]

/-- Before its first record a stream has the boolean carried in. -/
theorem rebuiltBoolean_before {ts : List Transition} {g : Nat} (h : ∀ t ∈ ts, g < t.idx) (b : Bool) :
    rebuiltBoolean b ts g = b := by
  have no_record : ts.filter (fun t => decide (t.idx ≤ g)) = [] :=
    List.filter_eq_nil_iff.2 fun t ht => by simpa using h t ht
  rw [rebuiltBoolean, no_record]
  rfl

/-- A first record at or before the index takes the place of the boolean carried in. -/
theorem rebuiltBoolean_cons {t : Transition} {g : Nat} (h : t.idx ≤ g) (b : Bool)
    (ts : List Transition) : rebuiltBoolean b (t :: ts) g = rebuiltBoolean t.newState ts g := by
  rw [rebuiltBoolean, List.filter_cons_of_pos (by simpa using h), List.getLast?_cons, rebuiltBoolean]
  cases (ts.filter fun t => decide (t.idx ≤ g)).getLast? <;> rfl

/-- From its first sample on, a stream is rebuilt as if that sample's boolean had been carried in. -/
theorem rebuiltBoolean_transitionsOf_cons {g h : Nat} (hg : g ≤ h) (last : Bool) (z : Cplx)
    (zs : List Cplx) : rebuiltBoolean last (transitionsOf g last (z :: zs)).1 h
      = rebuiltBoolean (sampleBit z) (transitionsOf (g + 1) (sampleBit z) zs).1 h := by
  by_cases same : sampleBit z = last
  · rw [transitionsOf_cons_same same, same]
  · rw [transitionsOf_cons_change same]
    exact rebuiltBoolean_cons hg _ _

theorem rebuiltBoolean_transitionsOf (g : Nat) (last : Bool) (xs : List Cplx) {i : Nat} {z : Cplx}
    (hz : xs[i]? = some z) :
    rebuiltBoolean last (transitionsOf g last xs).1 (g + i) = sampleBit z := by
  induction xs generalizing g last i with
  | nil => simp at hz
  | cons y ys ih =>
    rw [rebuiltBoolean_transitionsOf_cons (Nat.le_add_right g i)]
    cases i with
    | zero =>
      obtain rfl : y = z := by simpa using hz
      exact rebuiltBoolean_before (fun t ht => le_idx_of_mem_transitionsOf ht) _
    | succ i =>
      rw [Nat.add_comm i, ← Nat.add_assoc]
      exact ih _ _ (by simpa using hz)

/-! ## The word of a record (spec R112) -/

theorem transitionWord_toNat {t : Transition} (ht : t.idx < 2 ^ 64) :
    (transitionWord t).toNat = (if t.newState then 2 ^ 64 else 0) + t.idx := by
  rw [transitionWord, BitVec.toNat_append, BitVec.toNat_ofNat, Nat.mod_eq_of_lt ht,
    ← Nat.shiftLeft_add_eq_or_of_lt ht]
  cases t.newState <;> rfl

theorem transitionOfWord_transitionWord {t : Transition} (ht : t.idx < 2 ^ 64) :
    transitionOfWord (transitionWord t) = t := by
  have idx : ((transitionWord t).extractLsb' 0 64).toNat = t.idx := by
    rw [transitionWord, BitVec.extractLsb'_append_eq_right, BitVec.toNat_ofNat, Nat.mod_eq_of_lt ht]
  have state : (transitionWord t).getLsbD 64 = t.newState := by
    rw [transitionWord, BitVec.getLsbD_append]
    exact BitVec.getLsbD_ofBool _ 0
  rw [transitionOfWord, idx, state]

theorem transitionWord_transitionOfWord (w : BitVec 65) :
    transitionWord (transitionOfWord w) = w := by
  have top : BitVec.ofBool (w.getLsbD 64) = w.extractLsb' 64 1 := by
    ext i hi
    obtain rfl : i = 0 := by omega
    simp
  rw [transitionWord, transitionOfWord, top, BitVec.ofNat_toNat, BitVec.setWidth_eq]
  exact BitVec.extractLsb'_append_extractLsb'_eq_extractLsb' rfl |>.trans BitVec.extractLsb'_eq_self

/-- Settles O22: the stream by induction on the samples, the word field by field. -/
theorem transitionStream : Obligations.TransitionStream :=
  ⟨fun g last xs => ⟨transitionsOf_increasing g last xs,
      fun _ _ => transitionsOf_alternate g last xs, fun _ _ => rebuiltBoolean_transitionsOf g last xs⟩,
    fun _ ht => ⟨transitionWord_toNat ht, transitionOfWord_transitionWord ht⟩,
    transitionWord_transitionOfWord⟩

end Sys2Proof.Machine
end

section
/-!
PROOFS. The bit synchronizer (spec 44_bitsync.md): one transition as one `BSYNC`, the loop of spec R201
tick by tick, and why the bound on the loop never cuts it short (spec R208).
-/

namespace Sys2Proof

/-! ## A format has one datum for each number but zero -/

/-- A number has one quantum. -/
theorem IsQuantum.unique {f : Format} {x : Rat} {q r : Int} (hq : IsQuantum f x q)
    (hr : IsQuantum f x r) : q = r := by
  have le {q r : Int} (hq : IsQuantum f x q) (hr : IsQuantum f x r) : r ≤ q := by
    rcases hr.normal with least | normal
    · exact least ▸ hq.least
    · have := (zpow_lt_zpow_iff_right₀ (by norm_num : (1 : Rat) < 2)).1 (normal.trans_lt hq.below)
      omega
  exact le_antisymm (le hr hq) (le hq hr)

/-- The exponent of a datum of the format is the quantum at its magnitude. -/
theorem Datum.isQuantum {f : Format} (hp : 1 ≤ f.prec) {s : Bool} {m : Nat} {e : Int}
    (h : (Datum.fin s m e).inFormat f = true) : IsQuantum f (m * 2 ^ e) e := by
  obtain ⟨hm, he, -, full⟩ := (Datum.inFormat_fin f s m e).1 h
  refine ⟨he, ?_, full.symm.imp_right fun hle => ?_⟩
  · rw [two_zpow_add_natCast]
    gcongr
    exact_mod_cast hm
  · rw [two_zpow_binade hp]
    gcongr

/-- Two data of a format that stand for the same number other than zero are the same. -/
theorem Datum.eq_of_toRat?_eq {f : Format} (hp : 1 ≤ f.prec) {x y : Datum} {v : Rat}
    (hx : x.inFormat f = true) (hy : y.inFormat f = true) (hxv : x.toRat? = some v)
    (hyv : y.toRat? = some v) (hv : v ≠ 0) : x = y := by
  obtain ⟨s, m, e, rfl, rfl⟩ := Datum.toRat?_eq_some hxv
  obtain ⟨t, n, g, rfl, same⟩ := Datum.toRat?_eq_some hyv
  have magnitude : (m : Rat) * 2 ^ e = n * 2 ^ g := by
    have := congrArg (|·|) same
    rwa [abs_signed, abs_signed, abs_of_nonneg (by positivity), abs_of_nonneg (by positivity)] at this
  obtain rfl : e = g := (Datum.isQuantum hp hx).unique (magnitude ▸ Datum.isQuantum hp hy)
  obtain rfl : m = n := by exact_mod_cast mul_right_cancel₀ (by positivity) magnitude
  have sign : s = t := by
    by_contra hne
    rw [Bool.eq_not_of_ne hne, signed_not] at same hv
    exact hv (by linarith)
  rw [sign]

/-! ## How many finite data a format has -/

/-- The finite data with the significands and exponents of a format. -/
def Format.finiteData (f : Format) : Finset Datum :=
  (Finset.univ ×ˢ Finset.range (2 ^ f.prec) ×ˢ Finset.range (2 * f.emax)).image
    fun p : Bool × Nat × Nat => .fin p.1 p.2.1 (f.etiny + p.2.2)

theorem Format.mem_finiteData {f : Format} {x : Datum} {v : Rat} (hx : x.inFormat f = true)
    (hv : x.toRat? = some v) : x ∈ f.finiteData := by
  obtain ⟨s, m, e, rfl, -⟩ := Datum.toRat?_eq_some hv
  obtain ⟨hm, he, hmax, -⟩ := (Datum.inFormat_fin f s m e).1 hx
  obtain ⟨k, rfl⟩ := Int.le.dest he
  have hk : k < 2 * f.emax := by
    simp only [Format.etiny] at hmax
    omega
  exact Finset.mem_image.2 ⟨(s, m, k), by simp [hm, hk], rfl⟩

theorem Format.card_finiteData_le (f : Format) :
    f.finiteData.card ≤ 2 * 2 ^ f.prec * (2 * f.emax) := by
  refine Finset.card_image_le.trans_eq ?_
  rw [Finset.card_product, Finset.card_product, Finset.card_univ, Fintype.card_bool, Finset.card_range,
    Finset.card_range, mul_assoc]

/-! ## Adding a positive number -/

section
variable {f : Format} {a bw : Datum} {b : Rat} (hb : bw.toRat? = some b)
include hb

/-- Only a finite datum is below another and moved by adding a finite one. -/
theorem Datum.finite_of_lt_of_moves {y : Datum} (hlt : a.lt y = true) (moves : fpAdd f a bw ≠ a) :
    ∃ v, a.toRat? = some v := by
  obtain ⟨t, n, g, rfl, -⟩ := Datum.toRat?_eq_some hb
  cases a with
  | nan => simp [Datum.lt] at hlt
  | inf s => exact absurd rfl moves
  | fin s m e => exact ⟨_, Datum.toRat?_fin s m e⟩

/-- Adding a positive number of the format makes a number larger or leaves its datum as it is. -/
theorem fpAdd_grows (hf : f.legal = true) (hbw : bw.inFormat f = true) (pos : 0 < b) {v w : Rat}
    (ha : a.inFormat f = true) (hv : a.toRat? = some v) (hw : (fpAdd f a bw).toRat? = some w)
    (moves : fpAdd f a bw ≠ a) : v < w := by
  have sum := fpAdd_rounded hf hv hb
  have notBelow : |w - (v + b)| ≤ b := by
    simpa [abs_of_pos pos] using sum.nearest w hw a v ha hv
  refine lt_of_le_of_ne (by linarith [(abs_le.1 notBelow).1]) fun same => ?_
  subst same
  rcases eq_or_ne v 0 with rfl | nonzero
  · have : |b| ≤ 0 := by simpa using sum.nearest 0 hw bw b hbw hb
    exact pos.ne' (abs_nonpos_iff.1 this)
  · exact moves (Datum.eq_of_toRat?_eq (by have := (f.legal_iff.1 hf).1; omega) sum.representable ha
      hw hv nonzero)

end

end Sys2Proof

namespace Sys2Proof.Machine

/-! ## Ticks -/

section
variable (f : Format) (bw a : Datum)

/-- The ticks from the accumulator after one addition are the later ticks. -/
theorem ticked_fpAdd (j : Nat) : ticked f bw (fpAdd f a bw) j = ticked f bw a (j + 1) := by
  induction j with
  | zero => rfl
  | succ j ih => rw [ticked, ih, ← ticked]

variable {f bw a}

/-- An accumulator that one addition does not move stays where it is. -/
theorem ticked_stuck {j m : Nat} (stuck : ticked f bw a (j + 1) = ticked f bw a j) (hm : j ≤ m) :
    ticked f bw a m = ticked f bw a j := by
  induction m, hm using Nat.le_induction with
  | base => rfl
  | succ m _ ih => rw [ticked, ih, ← ticked, stuck]

section
variable (hf : f.legal = true) (ha : a.inFormat f = true) {n : Nat} {b : Rat}
  (hb : bw.toRat? = some b)
  (runs : ∀ j, j < n → (∃ y, (ticked f bw a j).lt y = true) ∧
    ticked f bw a (j + 1) ≠ ticked f bw a j)
include hf ha hb runs

/-- While a finite `BW` moves the accumulator, and something lies above it, it is a number of the
format. -/
theorem ticked_real {j : Nat} (hj : j < n) :
    (ticked f bw a j).inFormat f = true ∧ ∃ v, (ticked f bw a j).toRat? = some v := by
  obtain ⟨⟨y, below⟩, moves⟩ := runs j hj
  refine ⟨?_, Datum.finite_of_lt_of_moves hb below moves⟩
  cases j with
  | zero => exact ha
  | succ j =>
    obtain ⟨⟨y, below⟩, moves⟩ := runs j (by omega)
    obtain ⟨v, hv⟩ := Datum.finite_of_lt_of_moves hb below moves
    exact (fpAdd_rounded hf hv hb).representable

/-- An accumulator that a positive `BW` moves at each of `n` ticks takes `n` different finite values,
and a format has fewer than `clockFuel` of them. -/
theorem lt_clockFuel_of_ticked_moves (hbw : bw.inFormat f = true) (pos : 0 < b) :
    n < clockFuel f := by
  have real (j : Nat) (hj : j < n) := ticked_real hf ha hb runs hj
  choose! format v value using real
  have increasing : StrictMonoOn v (Set.Iio n) :=
    strictMonoOn_of_lt_succ Set.ordConnected_Iio fun j _ hj hj' =>
      fpAdd_grows hb hf hbw pos (format j hj) (value j hj) (value (j + 1) hj') (runs j hj).2
  have distinct : Set.InjOn (ticked f bw a) (Finset.range n) := fun i hi j hj same => by
    rw [Finset.coe_range] at hi hj
    refine increasing.injOn hi hj (Option.some_inj.1 ?_)
    rw [← value i hi, same, value j hj]
  have counted (j : Nat) (hj : j ∈ Finset.range n) : ticked f bw a j ∈ f.finiteData :=
    have lt := Finset.mem_range.1 hj
    Format.mem_finiteData (format j lt) (value j lt)
  calc n = (Finset.range n).card := (Finset.card_range n).symm
    _ ≤ f.finiteData.card := Finset.card_le_card_of_injOn _ counted distinct
    _ ≤ 2 * 2 ^ f.prec * (2 * f.emax) := f.card_finiteData_le
    _ = 2 ^ f.prec * (4 * f.emax) := by ring
    _ < 2 ^ f.prec * (8 * (f.emax + 1)) := by gcongr <;> omega
    _ = clockFuel f := by rw [clockFuel]; ring

end

end

theorem clockFuel_pos (f : Format) : 0 < clockFuel f := by rw [clockFuel]; positivity

/-! ## The loop (spec R201, step 3) -/

section
variable {f : Format} {bw half xi a : Datum} {fuel : Nat}

/-- A pass that finds the accumulator not before the transition ends the loop. -/
theorem clockLoop_done (fuelPos : 0 < fuel) (h : a.lt xi = false) :
    clockLoop f bw half xi fuel a = some (a, 0) := by
  obtain ⟨fuel, rfl⟩ := Nat.exists_eq_add_of_lt fuelPos
  simp [clockLoop, h]

/-- A tick near the transition pulls the accumulator and ends the loop. -/
theorem clockLoop_pull (before : a.lt xi = true)
    (near : (fpSub f xi (fpAdd f a bw)).abs.lt half = true) :
    clockLoop f bw half xi (fuel + 1) a = some (pulledTo f (fpAdd f a bw) xi, 1) := by
  simp [clockLoop, before, near]

/-- A tick that is not near and moves the accumulator emits a bit and goes on. -/
theorem clockLoop_tick (before : a.lt xi = true)
    (far : (fpSub f xi (fpAdd f a bw)).abs.lt half = false) (moves : fpAdd f a bw ≠ a) :
    clockLoop f bw half xi (fuel + 1) a =
      (clockLoop f bw half xi fuel (fpAdd f a bw)).map fun r => (r.1, r.2 + 1) := by
  simp [clockLoop, before, far, moves]

/-- The ticks that decide nothing: each emits a bit. -/
theorem clockLoop_ticks {m : Nat} (before : ∀ j, j < m → (ticked f bw a j).lt xi = true)
    (far : ∀ j, j < m → (fpSub f xi (ticked f bw a (j + 1))).abs.lt half = false)
    (moves : ∀ j, j < m → ticked f bw a (j + 1) ≠ ticked f bw a j) :
    clockLoop f bw half xi (fuel + m) a =
      (clockLoop f bw half xi fuel (ticked f bw a m)).map fun r => (r.1, r.2 + m) := by
  induction m generalizing fuel with
  | zero => simp [ticked]
  | succ m ih =>
    rw [← Nat.succ_add_eq_add_succ, ih (fun j hj => before j (by omega))
      (fun j hj => far j (by omega)) (fun j hj => moves j (by omega)),
      clockLoop_tick (before m m.lt_succ_self) (far m m.lt_succ_self) (moves m m.lt_succ_self),
      Option.map_map, ← ticked]
    simp only [Function.comp_def, Nat.add_assoc, Nat.add_comm 1]

/-- A loop that does not end met an accumulator that stays where it is, or used all its passes on ticks
that moved it. -/
theorem clockLoop_eq_none (h : clockLoop f bw half xi fuel a = none) :
    (∃ j, (ticked f bw a j).lt xi = true ∧ ticked f bw a (j + 1) = ticked f bw a j) ∨
    ∀ j, j < fuel → (ticked f bw a j).lt xi = true ∧ ticked f bw a (j + 1) ≠ ticked f bw a j := by
  induction fuel generalizing a with
  | zero => exact .inr fun j hj => absurd hj j.not_lt_zero
  | succ fuel ih =>
    cases before : a.lt xi with
    | false => simp [clockLoop_done fuel.succ_pos before] at h
    | true =>
      cases near : (fpSub f xi (fpAdd f a bw)).abs.lt half with
      | true => simp [clockLoop_pull before near] at h
      | false =>
        by_cases stuck : fpAdd f a bw = a
        · exact .inl ⟨0, before, stuck⟩
        · rw [clockLoop_tick before near stuck, Option.map_eq_none_iff] at h
          rcases ih h with ⟨j, before', stuck'⟩ | runs
          · rw [ticked_fpAdd, ticked_fpAdd] at stuck'
            exact .inl ⟨j + 1, ticked_fpAdd f bw a j ▸ before', stuck'⟩
          · refine .inr fun j hj => ?_
            cases j with
            | zero => exact ⟨before, stuck⟩
            | succ j =>
              rw [← ticked_fpAdd, ← ticked_fpAdd]
              exact runs j (by omega)

end

/-! ## One transition (spec R201) -/

section
variable {cfg : Params} {a xi : Datum} {m : Nat}

/-- The loop of the transition at `xi`, whose `m`-th tick is the first near it: the tick pulls. -/
theorem clockLoop_pulls_at {fuel : Nat} (hm : 1 ≤ m) (hfuel : m ≤ fuel)
    (before : ∀ j, j < m → (ticked cfg.fpA cfg.bw a j).lt xi = true)
    (far : ∀ j, 1 ≤ j → j < m → withinHalf cfg xi (ticked cfg.fpA cfg.bw a j) = false)
    (near : withinHalf cfg xi (ticked cfg.fpA cfg.bw a m) = true) :
    clockLoop cfg.fpA cfg.bw (halfBaud cfg) xi fuel a
      = some (pulledTo cfg.fpA (ticked cfg.fpA cfg.bw a m) xi, m) := by
  obtain ⟨n, rfl⟩ := Nat.exists_eq_add_of_le' hm
  obtain ⟨fuel, rfl⟩ := Nat.exists_eq_add_of_le' hfuel
  have moves (j : Nat) (hj : j < n) :
      ticked cfg.fpA cfg.bw a (j + 1) ≠ ticked cfg.fpA cfg.bw a j := fun stuck => by
    rw [ticked_stuck stuck (by omega : j ≤ n + 1), ← stuck, far (j + 1) (by omega) (by omega)] at near
    exact Bool.false_ne_true near
  rw [← Nat.add_assoc, Nat.add_right_comm, clockLoop_ticks (fun j hj => before j (by omega))
    (fun j hj => far (j + 1) (by omega) (by omega)) moves, clockLoop_pull (before n n.lt_succ_self) near,
    Option.map_some, Nat.add_comm 1, ← ticked]

/-- The loop of the transition at `xi`, whose first `m` ticks are not near it and whose `m`-th is the
first not before it: the loop ends there. -/
theorem clockLoop_passes_at {fuel : Nat} (hm : 1 ≤ m) (hfuel : m < fuel)
    (before : ∀ j, j < m → (ticked cfg.fpA cfg.bw a j).lt xi = true)
    (far : ∀ j, 1 ≤ j → j < m → withinHalf cfg xi (ticked cfg.fpA cfg.bw a j) = false)
    (farLast : withinHalf cfg xi (ticked cfg.fpA cfg.bw a m) = false)
    (notBefore : (ticked cfg.fpA cfg.bw a m).lt xi = false) :
    clockLoop cfg.fpA cfg.bw (halfBaud cfg) xi fuel a = some (ticked cfg.fpA cfg.bw a m, m) := by
  obtain ⟨fuel, rfl⟩ := Nat.exists_eq_add_of_le' hfuel.le
  have moves (j : Nat) (hj : j < m) :
      ticked cfg.fpA cfg.bw a (j + 1) ≠ ticked cfg.fpA cfg.bw a j := fun stuck => by
    rw [ticked_stuck stuck hj.le, before j hj] at notBefore
    exact Bool.false_ne_true notBefore.symm
  have allFar (j : Nat) (hj : j < m) :
      withinHalf cfg xi (ticked cfg.fpA cfg.bw a (j + 1)) = false := by
    rcases Nat.lt_or_eq_of_le hj with lt | rfl
    · exact far (j + 1) (by omega) lt
    · exact farLast
  rw [clockLoop_ticks before allFar moves, clockLoop_done (by omega) notBefore, Option.map_some,
    Nat.zero_add]

end

section
variable {cfg : Params} {a : Datum} {t : Transition}

theorem clockEvent_prime (zero : a.isZero = true) :
    clockEvent cfg a t = some (ofNat cfg.fpA t.idx, []) := by
  simp [clockEvent, zero]

/-- A primed clock drops a transition before the accumulator. -/
theorem clockEvent_stale (primed : a.isZero = false) (stale : (ofNat cfg.fpA t.idx).lt a = true) :
    clockEvent cfg a t = some (a, []) := by
  simp [clockEvent, primed, stale]

/-- A primed clock runs its loop on a transition that is not before the accumulator. -/
theorem clockEvent_loop (primed : a.isZero = false) (notStale : (ofNat cfg.fpA t.idx).lt a = false) :
    clockEvent cfg a t =
      (clockLoop cfg.fpA cfg.bw (halfBaud cfg) (ofNat cfg.fpA t.idx) (clockFuel cfg.fpA) a).map
        fun r => (r.1, List.replicate r.2 (!t.newState)) := by
  simp [clockEvent, primed, notStale]

/-- A primed clock drops a transition that is not after the accumulator. -/
theorem clockEvent_not_after (primed : a.isZero = false)
    (notAfter : (ofNat cfg.fpA t.idx).lt a = true ∨ a.lt (ofNat cfg.fpA t.idx) = false) :
    clockEvent cfg a t = some (a, []) := by
  cases stale : (ofNat cfg.fpA t.idx).lt a with
  | true => exact clockEvent_stale primed stale
  | false =>
    have ends := notAfter.resolve_left (by simp [stale])
    rw [clockEvent_loop primed stale, clockLoop_done (clockFuel_pos _) ends, Option.map_some,
      List.replicate_zero]

/-- A transition that the clock does not get past is one whose loop does not end. -/
theorem clockLoop_of_clockEvent_eq_none (h : clockEvent cfg a t = none) :
    clockLoop cfg.fpA cfg.bw (halfBaud cfg) (ofNat cfg.fpA t.idx) (clockFuel cfg.fpA) a = none := by
  cases primed : a.isZero with
  | true => simp [clockEvent_prime primed] at h
  | false =>
    cases stale : (ofNat cfg.fpA t.idx).lt a with
    | true => simp [clockEvent_stale primed stale] at h
    | false => rwa [clockEvent_loop primed stale, Option.map_eq_none_iff] at h

end

/-! ## The operation BSYNC -/

section
variable {s : State} {c : UnitNo} {t : Transition} {rest : List Transition}
  (ready : s.ready c) (hq : (s.chan c).tq = t :: rest)
include ready hq

/-- `BSYNC` on a transition that the clock takes. -/
theorem exec_bsync_of_clockEvent {a : Datum} {bits : List Bool}
    (h : clockEvent s.cfg (s.chan c).alignment t = some (a, bits)) :
    exec (.bsync c) s = .next { s with
      ch := s.ch.set c.toNat { s.chan c with
        tq := rest, alignment := a, bq := (s.chan c).bq ++ bits } c.isLt
      rsp := .nothing } := by
  rw [exec_bsync_ready ready hq]
  simp only [bsyncChannel, hq, h, Option.map_some]
  rfl

/-- `BSYNC` makes the engine wait only at a transition that the clock does not get past. -/
theorem clockEvent_of_exec_bsync_waits (h : exec (.bsync c) s = .next (s.wait c (.bsync c))) :
    clockEvent s.cfg (s.chan c).alignment t = none := by
  cases hc : clockEvent s.cfg (s.chan c).alignment t with
  | none => rfl
  | some r =>
    rw [exec_bsync_of_clockEvent ready hq hc] at h
    have todo : (s.engine c).todo = ((s.wait c (.bsync c)).engine c).todo :=
      congrArg (fun u => (u.engine c).todo) (Host.Outcome.next.inj h)
    simp at todo

end

/-- Settles O23: the clock's two cases without a tick. -/
theorem bsyncWithoutTick : Obligations.BsyncWithoutTick := by
  intro s c t rest ready hq a xi
  refine ⟨fun zero => ?_, fun primed notAfter => ?_⟩
  · rw [exec_bsync_of_clockEvent ready hq (clockEvent_prime zero), List.append_nil]
  · rw [exec_bsync_of_clockEvent ready hq (clockEvent_not_after primed notAfter), List.append_nil]

/-- Settles O24: the loop ends at the `m`-th tick, with a pull or past the transition. -/
theorem bsyncTicks : Obligations.BsyncTicks := by
  intro s c t rest m ready hq f a xi primed hm hfuel before far
  have event : clockEvent s.cfg (s.chan c).alignment t = _ :=
    clockEvent_loop primed (Datum.lt_asymm (before 0 hm))
  refine ⟨fun near => ?_, fun farLast notBefore => ?_⟩
  · rw [clockLoop_pulls_at hm hfuel.le before far near] at event
    exact exec_bsync_of_clockEvent ready hq event
  · rw [clockLoop_passes_at hm hfuel before far farLast notBefore] at event
    exact exec_bsync_of_clockEvent ready hq event

/-- Settles O25: a loop that uses all its passes would give the accumulator more values than the format
has. -/
theorem clockWaitsOnlyWhenStuck : Obligations.ClockWaitsOnlyWhenStuck := by
  intro s c t rest ready hq legal format positive waits
  have never := clockLoop_of_clockEvent_eq_none (clockEvent_of_exec_bsync_waits ready hq waits)
  refine (clockLoop_eq_none never).resolve_right fun runs => ?_
  obtain ⟨bwFormat, b, hb, pos⟩ := (Datum.isPositive_iff _ _).1 positive
  exact lt_irrefl _ (lt_clockFuel_of_ticked_moves legal format hb
    (fun j hj => (runs j hj).imp_left fun before => ⟨_, before⟩) bwFormat pos)

end Sys2Proof.Machine
end

section
/-!
PROOFS. The CRC register (spec R242): its check value, and why its own two bytes take it to 0. A byte
equal to the high half of the register cancels every feedback, so the register only shifts.
-/

namespace Sys2Proof.Machine

/-- A data bit equal to the register's top bit is no feedback. -/
theorem crcBit_top (crc : BitVec 16) : crcBit crc (crc.getLsbD 15) = crc <<< 1 := by
  simp [crcBit]

/-- The first `n` bits of the register's own high byte shift it `n` places. -/
theorem crcBits_own_high (crc : BitVec 16) {n : Nat} (hn : n ≤ 8) :
    (List.range n).foldl (fun a m => crcBit a ((crc.extractLsb' 8 8).getLsbD (7 - m))) crc
      = crc <<< n := by
  induction n with
  | zero => simp
  | succ n ih =>
    have top : (crc.extractLsb' 8 8).getLsbD (7 - n) = (crc <<< n).getLsbD 15 := by
      have place : 8 + (7 - n) = 15 - n := by omega
      rw [BitVec.getLsbD_extractLsb', BitVec.getLsbD_shiftLeft, place]
      simp only [show 7 - n < 8 by omega, show ¬ 15 < n by omega, decide_true, decide_false,
        Bool.not_false, Bool.true_and, Nat.lt_add_one]
    rw [List.range_succ, List.foldl_append, ih (by omega), List.foldl_cons, List.foldl_nil, top,
      crcBit_top, BitVec.shiftLeft_add]

theorem crcByte_own_high (crc : BitVec 16) : crcByte (crc.extractLsb' 8 8) crc = crc <<< 8 :=
  crcBits_own_high crc le_rfl

/-- After its high byte the register holds its old low byte in the high half. -/
theorem extractHigh_shiftLeft (crc : BitVec 16) :
    (crc <<< 8).extractLsb' 8 8 = crc.extractLsb' 0 8 := by
  refine BitVec.eq_of_getLsbD_eq fun i hi => ?_
  rw [BitVec.getLsbD_extractLsb', BitVec.getLsbD_extractLsb', BitVec.getLsbD_shiftLeft]
  simp only [hi, show 8 + i < 16 by omega, Nat.add_sub_cancel_left, Nat.zero_add,
    Nat.not_lt.2 (Nat.le_add_right 8 i), decide_true, decide_false, Bool.not_false, Bool.true_and]

/-- Settles O38: the check value is computed; each of the two bytes is the high half of the register it
is fed to. -/
theorem crcRegister : Obligations.CrcRegister := by
  refine ⟨by decide +kernel, fun crc => ?_⟩
  calc crcByte (crc.extractLsb' 0 8) (crcByte (crc.extractLsb' 8 8) crc)
      = crcByte ((crc <<< 8).extractLsb' 8 8) (crc <<< 8) := by
        rw [crcByte_own_high, extractHigh_shiftLeft]
    _ = crc <<< 8 <<< 8 := crcByte_own_high _
    _ = crc <<< 16 := (BitVec.shiftLeft_add ..).symm
    _ = 0#16 := BitVec.shiftLeft_eq_zero le_rfl

end Sys2Proof.Machine
end

section
/-!
PROOFS. How an operation of the FEC decoder ends, as one next state: without a frame, with one frame, or
waiting for its sink (spec R230, R311, R333).
-/

namespace Sys2Proof.Machine

section
variable {s : State} {c : UnitNo} {i : Instr} {k : Channel} {f : Frame}

theorem finish_without_frame :
    s.finish c i k [] = { s with ch := s.ch.set c.toNat k c.isLt, rsp := .nothing } := by
  simp [State.finish, State.send, State.setChan, State.answer]

theorem finish_with_frame (takes : s.sinkTakes c = true) :
    s.finish c i k [f] = { s with
      ch := s.ch.set c.toNat k c.isLt
      sink := s.sink ++ [f]
      status := s.status ++ (if f.crcMatch then [] else [c ++ 0x02#8])
      rsp := .nothing } := by
  rw [State.finish, takes, Bool.or_true, if_pos rfl, State.send, frameEvents_single]
  rfl

theorem finish_waits (full : s.sinkTakes c = false) :
    s.finish c i k [f] = { s with
      eng := s.eng.set c.toNat { s.engine c with todo := .op i :: (s.engine c).todo } c.isLt } := by
  rw [State.finish, full]
  rfl

variable {v : Bool} {rest : List Bool} (ready : s.ready c) (hq : (s.chan c).bq = v :: rest)
include ready hq

/-- `FECBIT` is what the first bit of the queue does to the channel (spec R221). -/
theorem exec_fecbit_takes {k' : Channel} {fs : List Frame}
    (h : takeBit s.cfg c v { s.chan c with bq := rest } = (k', fs)) :
    exec (.fecbit c) s = .next (s.finish c (.fecbit c) k' fs) := by
  rw [exec_fecbit_ready ready hq, fecbitChannel_cons _ _ _ _ hq, h]

theorem exec_fecbit_without_frame {k' : Channel}
    (h : takeBit s.cfg c v { s.chan c with bq := rest } = (k', [])) :
    exec (.fecbit c) s = .next { s with ch := s.ch.set c.toNat k' c.isLt, rsp := .nothing } := by
  rw [exec_fecbit_takes ready hq h, finish_without_frame]

end

/-- What the bits fed to a channel leave of the FEC decoder, and the frames (spec R221). -/
theorem feedBits_eq (cfg : Params) (c : UnitNo) (bits : List Bool) (k : Channel) :
    feedBits cfg c bits k
      = ({ k with bq := [] }.withFec (takeBits cfg c bits k).1, (takeBits cfg c bits k).2) :=
  drainBits_all cfg c rfl rfl

end Sys2Proof.Machine
end


section
/-!
PROOFS. Sync detection (spec R222 to R224, R227). The register is read as the list of its 34 characters:
a bit drops the oldest and stands behind the newest, so the characters after some bits are a window on
the old characters followed by the bits.
-/

namespace Sys2Proof.Machine

/-! ## The register as a list of characters (spec R32) -/

/-- The characters of the sync register, oldest first. -/
def syncChars (r : BitVec 34) : List Bool := (List.range 34).map (syncChar r)

@[simp] theorem syncChars_length (r : BitVec 34) : (syncChars r).length = 34 := by simp [syncChars]

theorem syncChars_getElem? (r : BitVec 34) {m : Nat} (hm : m < 34) :
    (syncChars r)[m]? = some (syncChar r m) := by
  simp [syncChars, hm]

theorem syncChars_inj {r r' : BitVec 34} : syncChars r = syncChars r' ↔ r = r' := by
  refine ⟨fun h => BitVec.eq_of_getLsbD_eq fun i hi => ?_, congrArg syncChars⟩
  have same := congrArg (·[33 - i]?) h
  simp only [syncChars_getElem? _ (show 33 - i < 34 by omega), Option.some_inj, syncChar] at same
  rwa [show 33 - (33 - i) = i by omega] at same

theorem syncChars_syncPattern : syncChars syncPattern = syncPatternBits := by decide +kernel

theorem syncPatternBits_length : syncPatternBits.length = 34 := by
  rw [← syncChars_syncPattern, syncChars_length]

/-- The register holds the pattern when its characters are the pattern's. -/
theorem syncChars_eq_pattern {r : BitVec 34} : syncChars r = syncPatternBits ↔ r = syncPattern := by
  rw [← syncChars_syncPattern, syncChars_inj]

/-- The same, character by character. -/
theorem eq_syncPattern_iff {r : BitVec 34} :
    r = syncPattern ↔ ∀ m, m < 34 → syncPatternBits[m]? = some (syncChar r m) := by
  rw [← syncChars_eq_pattern]
  refine ⟨fun h m hm => by rw [← h, syncChars_getElem? r hm], fun h => List.ext_getElem? fun m => ?_⟩
  by_cases hm : m < 34
  · rw [syncChars_getElem? r hm, h m hm]
  · rw [List.getElem?_eq_none (by simpa using hm),
      List.getElem?_eq_none (by simpa [syncPatternBits_length] using hm)]

/-! ## One bit (spec R222) -/

/-- The register with one more bit. -/
def shiftIn (r : BitVec 34) (v : Bool) : BitVec 34 := (r <<< 1) ||| (if v then 1#34 else 0#34)

/-- The place of the newest character is the only one that the bit sets. -/
theorem bitWord_getLsbD (v : Bool) (i : Nat) :
    (if v then 1#34 else 0#34).getLsbD i = (v && decide (i = 0)) := by
  cases v <;> simp [BitVec.getLsbD_one]

theorem syncChar_shiftIn_old (r : BitVec 34) (v : Bool) {m : Nat} (hm : m < 33) :
    syncChar (shiftIn r v) m = syncChar r (m + 1) := by
  have old : 33 - m ≠ 0 := by omega
  rw [syncChar, syncChar, shiftIn, BitVec.getLsbD_or, bitWord_getLsbD, BitVec.getLsbD_shiftLeft]
  simp [old, show 33 - m < 34 by omega, show ¬ 33 - m < 1 by omega, Nat.sub_sub]

theorem syncChar_shiftIn_new (r : BitVec 34) (v : Bool) : syncChar (shiftIn r v) 33 = v := by
  rw [syncChar, shiftIn, BitVec.getLsbD_or, bitWord_getLsbD, BitVec.getLsbD_shiftLeft]
  simp

theorem syncChars_shiftIn (r : BitVec 34) (v : Bool) :
    syncChars (shiftIn r v) = (syncChars r ++ [v]).drop 1 := by
  refine List.ext_getElem? fun m => ?_
  rw [List.getElem?_drop, Nat.add_comm]
  rcases Nat.lt_trichotomy m 33 with hm | rfl | hm
  · rw [List.getElem?_append_left (by simp; omega), syncChars_getElem? _ (by omega),
      syncChars_getElem? _ (by omega), syncChar_shiftIn_old r v hm]
  · rw [syncChars_getElem? _ (by omega), syncChar_shiftIn_new,
      List.getElem?_append_right (by simp)]
    simp
  · rw [List.getElem?_eq_none (by simp; omega), List.getElem?_eq_none (by simp; omega)]

theorem syncStep_match {v : Bool} {k : Channel} (h : shiftIn k.syncReg v = syncPattern) :
    syncStep v k = { k with syncReg := syncPattern, mode := .buffering, outCursor := 0 } := by
  rcases syncStep_cases v k with ⟨-, e⟩ | ⟨no, -⟩
  · exact e
  · exact absurd h no

theorem syncStep_miss {v : Bool} {k : Channel} (h : shiftIn k.syncReg v ≠ syncPattern) :
    syncStep v k = { k with syncReg := shiftIn k.syncReg v } := by
  rcases syncStep_cases v k with ⟨yes, -⟩ | ⟨-, e⟩
  · exact absurd yes h
  · exact e

/-- Settles O27: the new register is the old one with the bit shifted in. -/
theorem fecbitSyncs : Obligations.FecbitSyncs := by
  intro s c v rest ready syncing hq
  refine ⟨shiftIn (s.chan c).syncReg v, fun m hm => syncChar_shiftIn_old _ _ hm,
    syncChar_shiftIn_new _ _, fun hit => ?_, fun ⟨m, hm, differs⟩ => ?_⟩
  · have hit : shiftIn (s.chan c).syncReg v = syncPattern := eq_syncPattern_iff.2 hit
    refine exec_fecbit_without_frame ready hq ?_
    rw [takeBit_syncing _ _ _ _ (by exact syncing), syncStep_match (by exact hit), hit]
  · have miss : shiftIn (s.chan c).syncReg v ≠ syncPattern :=
      fun e => differs (eq_syncPattern_iff.1 e m hm)
    refine exec_fecbit_without_frame ready hq ?_
    rw [takeBit_syncing _ _ _ _ (by exact syncing), syncStep_miss (by exact miss)]

/-! ## Several bits (spec R224, R227) -/

/-- The register after several bits. -/
def shiftInAll (r : BitVec 34) (bits : List Bool) : BitVec 34 := bits.foldl shiftIn r

/-- The characters after some bits are the last 34 of the old ones and the bits. -/
theorem syncChars_shiftInAll (r : BitVec 34) (bits : List Bool) :
    syncChars (shiftInAll r bits) = (syncChars r ++ bits).drop bits.length := by
  induction bits generalizing r with
  | nil => simp [shiftInAll]
  | cons v vs ih =>
    have shifted : syncChars (shiftIn r v) ++ vs = (syncChars r ++ v :: vs).drop 1 := by
      rw [syncChars_shiftIn, List.drop_append_of_le_length (by simp),
        List.drop_append_of_le_length (by simp), List.append_assoc, List.singleton_append]
    calc syncChars (shiftInAll (shiftIn r v) vs)
        = (syncChars (shiftIn r v) ++ vs).drop vs.length := ih _
      _ = (syncChars r ++ v :: vs).drop (v :: vs).length := by
        rw [shifted, List.drop_drop, List.length_cons, Nat.add_comm]

/-- When no bit but the last can complete the pattern, the mode is Buffering exactly when the last one
does. -/
theorem takeBits_buffering_iff {cfg : Params} {c : UnitNo} {bits : List Bool} {k : Channel}
    (syncing : k.mode = .syncing) (nonempty : bits ≠ [])
    (early : ∀ n, 0 < n → n < bits.length → shiftInAll k.syncReg (bits.take n) ≠ syncPattern) :
    (takeBits cfg c bits k).1.mode = .buffering ↔ shiftInAll k.syncReg bits = syncPattern := by
  induction bits generalizing k with
  | nil => exact absurd rfl nonempty
  | cons v vs ih =>
    simp only [takeBits, takeBit_syncing cfg c v k syncing, shiftInAll, List.foldl_cons]
    cases vs with
    | nil =>
      by_cases hit : shiftIn k.syncReg v = syncPattern
      · simp [takeBits, syncStep_match hit, hit]
      · simp [takeBits, syncStep_miss hit, hit, syncing]
    | cons w ws =>
      have miss : shiftIn k.syncReg v ≠ syncPattern := early 1 (by omega) (by simp)
      rw [syncStep_miss miss]
      exact ih (k := { k with syncReg := shiftIn k.syncReg v }) syncing (by simp)
        fun n _ hn => early (n + 1) (by omega) (by simpa using hn)

theorem feedBits_syncing_of_not_buffering {cfg : Params} {c : UnitNo} {bits : List Bool} {k : Channel}
    (h : ¬ (feedBits cfg c bits k).1.mode = .buffering) : (feedBits cfg c bits k).1.mode = .syncing := by
  cases hm : (feedBits cfg c bits k).1.mode with
  | syncing => rfl
  | buffering => exact absurd hm h

theorem feedBits_buffering_iff {cfg : Params} {c : UnitNo} {bits : List Bool} {k : Channel}
    (syncing : k.mode = .syncing) (nonempty : bits ≠ [])
    (early : ∀ n, 0 < n → n < bits.length → shiftInAll k.syncReg (bits.take n) ≠ syncPattern) :
    (feedBits cfg c bits k).1.mode = .buffering ↔ shiftInAll k.syncReg bits = syncPattern := by
  rw [feedBits_eq, Channel.withFec_mode, takeBits_buffering_iff syncing nonempty early]

/-- The zero register still has a `0` as its oldest character after at most 33 bits; the pattern begins
with a `1` (spec R224). -/
theorem shiftInAll_zero_ne_pattern {bits : List Bool} (h : bits.length ≤ 33) :
    shiftInAll 0 bits ≠ syncPattern := by
  intro hit
  have oldest : (syncChars 0 ++ bits)[bits.length]? = some false := by
    rw [List.getElem?_append_left (by simp; omega), syncChars_getElem? _ (by omega)]
    simp [syncChar]
  have first : syncPatternBits[0]? = some true := by decide +kernel
  rw [← syncChars_syncPattern, ← hit, syncChars_shiftInAll, List.getElem?_drop, Nat.add_zero,
    oldest] at first
  cases first

/-- 34 bits replace all that the register held. -/
theorem shiftInAll_eq_pattern_iff {r : BitVec 34} {bits : List Bool} (h : bits.length = 34) :
    shiftInAll r bits = syncPattern ↔ bits = syncPatternBits := by
  rw [← syncChars_eq_pattern, syncChars_shiftInAll, h, List.drop_left' (syncChars_length r)]

/-- Settles O29: the zero register matches nothing before its last zero has left it. -/
theorem noMatchBefore34 : Obligations.NoMatchBefore34 := by
  intro cfg c k bits syncing zero
  have early : ∀ n, n ≤ 33 → shiftInAll k.syncReg (bits.take n) ≠ syncPattern := fun n hn =>
    zero ▸ shiftInAll_zero_ne_pattern ((List.length_take_le _ _).trans hn)
  refine ⟨fun short => ?_, fun h34 => ?_⟩
  · rcases eq_or_ne bits [] with rfl | nonempty
    · exact syncing
    · refine feedBits_syncing_of_not_buffering ?_
      rw [feedBits_buffering_iff syncing nonempty fun n _ hn => early n (by omega), zero]
      exact shiftInAll_zero_ne_pattern short
  · rw [feedBits_buffering_iff syncing (by rintro rfl; simp at h34) fun n _ hn => early n (by omega),
      shiftInAll_eq_pattern_iff h34]

/-- The pattern overlaps itself in nothing longer than one character (spec R227). -/
theorem syncPattern_no_overlap :
    ∀ n : Fin 33, n ≠ 0 → ¬ syncPatternBits.drop n <+: syncPatternBits := by decide +kernel

/-- Fewer than 33 bits behind the pattern leave two or more of its characters in the register, which
would have to begin it. -/
theorem shiftInAll_pattern_ne_pattern {bits : List Bool} (nonempty : bits ≠ [])
    (h : bits.length < 33) : shiftInAll syncPattern bits ≠ syncPattern := by
  intro hit
  have window := syncChars_shiftInAll syncPattern bits
  rw [hit, syncChars_syncPattern, List.drop_append_of_le_length
    (by rw [syncPatternBits_length]; omega)] at window
  refine syncPattern_no_overlap ⟨bits.length, h⟩ (fun e => ?_) ⟨bits, window.symm⟩
  exact nonempty (List.length_eq_zero_iff.1 (congrArg Fin.val e))

/-- Behind the pattern's last character 33 bits make the pattern exactly when they are its rest. -/
theorem shiftInAll_pattern_eq_pattern_iff {bits : List Bool} (h : bits.length = 33) :
    shiftInAll syncPattern bits = syncPattern ↔ bits = syncPatternBits.drop 1 := by
  have ends : syncPatternBits.drop 33 = [true] := by decide +kernel
  have begins : syncPatternBits = true :: syncPatternBits.drop 1 := by decide +kernel
  rw [← syncChars_eq_pattern, syncChars_shiftInAll, syncChars_syncPattern, h,
    List.drop_append_of_le_length (by rw [syncPatternBits_length]; omega), ends,
    List.singleton_append]
  conv_lhs => rw [begins]
  rw [List.cons_inj_right]

/-- Settles O30: a match after fewer bits would be an overlap of the pattern with itself. -/
theorem earliestRematch : Obligations.EarliestRematch := by
  intro cfg c k bits syncing holds short
  have reg : k.syncReg = syncPattern := eq_syncPattern_iff.2 holds
  have rest : (syncPatternBits.drop 1).length = 33 := by
    rw [List.length_drop, syncPatternBits_length]
  rcases eq_or_ne bits [] with rfl | nonempty
  · have stays : (feedBits cfg c [] k).1.mode = .syncing := syncing
    rw [stays]
    exact ⟨fun h => (by cases h), fun h => absurd (congrArg List.length h) (by rw [rest]; simp)⟩
  have early : ∀ n, 0 < n → n < bits.length →
      shiftInAll k.syncReg (bits.take n) ≠ syncPattern := fun n pos hn => by
    have len : (bits.take n).length = n := List.length_take_of_le hn.le
    rw [reg]
    exact shiftInAll_pattern_ne_pattern (List.ne_nil_of_length_pos (by omega)) (by omega)
  rw [feedBits_buffering_iff syncing nonempty early, reg]
  rcases Nat.lt_or_eq_of_le short with fewer | all
  · refine iff_of_false (shiftInAll_pattern_ne_pattern nonempty fewer) fun e => ?_
    exact absurd (congrArg List.length e) (by omega)
  · exact shiftInAll_pattern_eq_pattern_iff all

end Sys2Proof.Machine
end

section
/-!
PROOFS. Buffering (spec R225 to R228): the bits are stored as soft bytes from the cursor on, and the one
that fills the block decodes it and sends its frame.
-/

namespace Sys2Proof.Machine

/-- Settles O28: the three ends of a bit in mode Buffering. -/
theorem fecbitBuffers : Obligations.FecbitBuffers := by
  intro s c v rest ready buffering hq k stored
  have taken := takeBit_buffering s.cfg c v { k with bq := rest } buffering
  refine ⟨fun early => exec_fecbit_without_frame ready hq ?_, fun last takes => ?_, fun last full => ?_⟩
  · have early : k.outCursor + 1 ≠ 576 := by omega
    rw [taken, bufferStep_early _ _ _ _ (by exact early)]
    rfl
  · have last : k.outCursor + 1 = 576 := by omega
    refine ⟨(decodeBlock s.cfg c stored k.wk).1, ?_⟩
    rw [exec_fecbit_takes ready hq (taken.trans (bufferStep_last _ _ _ _ (by exact last))),
      finish_with_frame takes]
    rfl
  · have last : k.outCursor + 1 = 576 := by omega
    rw [exec_fecbit_takes ready hq (taken.trans (bufferStep_last _ _ _ _ (by exact last))),
      finish_waits full]

/-! ## Several bits -/

/-- The block with the bits stored from place `o` on. -/
def storeBits (msg : Vector Byte 576) : Nat → List Bool → Vector Byte 576
  | _, [] => msg
  | o, v :: vs => storeBits (msg.setIfInBounds o (softByte v)) (o + 1) vs

theorem storeBits_append (msg : Vector Byte 576) (o : Nat) (vs ws : List Bool) :
    storeBits msg o (vs ++ ws) = storeBits (storeBits msg o vs) (o + vs.length) ws := by
  induction vs generalizing msg o with
  | nil => rfl
  | cons v vs ih =>
    rw [List.cons_append, storeBits, ih, storeBits, List.length_cons, Nat.add_assoc, Nat.add_comm 1]

theorem storeBits_before (msg : Vector Byte 576) {o i : Nat} (bits : List Bool) (h : i < o) :
    (storeBits msg o bits)[i]? = msg[i]? := by
  induction bits generalizing msg o with
  | nil => rfl
  | cons v vs ih =>
    rw [storeBits, ih _ (by omega), Vector.getElem?_setIfInBounds, if_neg (by omega)]

/-- Bit `n` stands at place `o + n`. -/
theorem storeBits_getElem? (msg : Vector Byte 576) {o n : Nat} {bits : List Bool} {v : Bool}
    (h : bits[n]? = some v) (inside : o + n < 576) :
    (storeBits msg o bits)[o + n]? = some (softByte v) := by
  induction bits generalizing msg o n with
  | nil => simp at h
  | cons w ws ih =>
    cases n with
    | zero =>
      obtain rfl : w = v := by simpa using h
      rw [storeBits, storeBits_before _ _ (by omega), Nat.add_zero,
        Vector.getElem?_setIfInBounds_self, if_pos (by omega)]
    | succ n =>
      rw [storeBits, show o + (n + 1) = o + 1 + n by omega]
      exact ih _ (by simpa using h) (by omega)

section
variable (cfg : Params) (c : UnitNo) {k : Channel}

/-- Bits that do not fill the block are stored, without a frame. -/
theorem takeBits_early {bits : List Bool} (buffering : k.mode = .buffering)
    (room : k.outCursor + bits.length < 576) :
    takeBits cfg c bits k
      = ({ k with
            msg := storeBits k.msg k.outCursor bits, outCursor := k.outCursor + bits.length }, []) := by
  induction bits generalizing k with
  | nil => rfl
  | cons v vs ih =>
    have room' : k.outCursor + 1 + vs.length < 576 := by
      rw [List.length_cons] at room
      omega
    have first := (takeBit_buffering cfg c v k buffering).trans
      (bufferStep_early cfg c v k (by omega))
    simp only [takeBits, first]
    rw [ih (by exact buffering) (by exact room'), List.length_cons, Nat.add_assoc, Nat.add_comm 1]
    rfl

/-- The bits that fill the block: all are stored, and the last one sends the frame. -/
theorem takeBits_whole {bits : List Bool} (buffering : k.mode = .buffering)
    (room : k.outCursor + bits.length = 576) (nonempty : bits ≠ []) :
    takeBits cfg c bits k
      = ({ k with
            msg := storeBits k.msg k.outCursor bits, outCursor := 576, mode := .syncing
            wk := (decodeBlock cfg c (storeBits k.msg k.outCursor bits) k.wk).1 },
          [(decodeBlock cfg c (storeBits k.msg k.outCursor bits) k.wk).2]) := by
  obtain ⟨vs, v, rfl⟩ := (List.eq_nil_or_concat' bits).resolve_left nonempty
  rw [List.length_append, List.length_singleton] at room
  have last : k.outCursor + vs.length + 1 = 576 := by omega
  rw [takeBits_append, takeBits_early cfg c buffering (by omega), storeBits_append]
  simp only [takeBits]
  rw [takeBit_buffering _ _ _ _ (by exact buffering), bufferStep_last _ _ _ _ (by exact last)]
  rfl

end

/-- Settles O31: 575 bits are stored early, and the 576th fills the block. -/
theorem oneFramePerBlock : Obligations.OneFramePerBlock := by
  intro cfg c k bits buffering start h576 r
  have whole := takeBits_whole cfg c buffering (bits := bits) (by omega)
    (by rintro rfl; simp at h576)
  have fed : r = _ := feedBits_eq cfg c bits k
  rw [whole, start] at fed
  rw [fed]
  refine ⟨rfl, rfl, rfl, fun n v hv => ?_, rfl, fun n hn => ?_⟩
  · have inside : n < 576 := h576 ▸ (List.getElem?_eq_some_iff.1 hv).1
    have place := storeBits_getElem? k.msg (o := 0) hv (by omega)
    rw [Nat.zero_add] at place
    exact place
  · have room : k.outCursor + (bits.take n).length < 576 := by
      rw [start, List.length_take]
      omega
    rw [feedBits_eq, takeBits_early cfg c buffering room]
    exact ⟨rfl, buffering⟩

end Sys2Proof.Machine
end

section
/-!
PROOFS. The passes of the block decode: when bytes are committed and which ones (spec R230, R237 to R241,
R245). A pass is add-compare-select and the commits that are due; only the last pass makes more than one.
-/

namespace Sys2Proof.Machine

/-! ## The state of least cost (spec R240) -/

/-- A scan that moves to each cheaper entry ends at the least one, and at the first of equals when the
entries come in order. -/
theorem foldl_least {n : Nat} (cost : Fin n → Nat) (l : List (Fin n)) (start : Fin n)
    (ordered : (start :: l).Pairwise (· ≤ ·)) :
    let r := l.foldl (fun m x => if cost x < cost m then x else m) start
    (∀ x ∈ start :: l, cost r ≤ cost x) ∧ ∀ x ∈ start :: l, x < r → cost r < cost x := by
  induction l generalizing start with
  | nil => simp
  | cons y ys ih =>
    obtain ⟨below, rest⟩ := List.pairwise_cons.1 ordered
    have start_le : start ≤ y := below y (by simp)
    rw [List.foldl_cons]
    by_cases cheaper : cost y < cost start
    · rw [if_pos cheaper]
      obtain ⟨least, first⟩ := ih y rest
      have le_y := least y (by simp)
      refine ⟨List.forall_mem_cons.2 ⟨by omega, least⟩, List.forall_mem_cons.2 ⟨fun _ => ?_, first⟩⟩
      omega
    · rw [if_neg cheaper]
      obtain ⟨least, first⟩ := ih start (ordered.sublist (by simp))
      obtain ⟨le_start, le_ys⟩ := List.forall_mem_cons.1 least
      obtain ⟨first_start, first_ys⟩ := List.forall_mem_cons.1 first
      refine ⟨List.forall_mem_cons.2 ⟨le_start, List.forall_mem_cons.2 ⟨by omega, le_ys⟩⟩,
        List.forall_mem_cons.2 ⟨first_start, List.forall_mem_cons.2 ⟨fun before => ?_, first_ys⟩⟩⟩
      have := first_start (lt_of_le_of_lt start_le before)
      omega

theorem bestState_spec (cost : Vector (BitVec 32) 8) :
    (∀ ns : Fin 8, cost[bestState cost] ≤ cost[ns]) ∧
      ∀ ns : Fin 8, ns < bestState cost → cost[bestState cost] < cost[ns] := by
  obtain ⟨least, first⟩ := foldl_least (fun s : Fin 8 => cost[s].toNat) (List.finRange 8) 0
    (by decide)
  exact ⟨fun ns => least ns (by simp), fun ns => first ns (by simp)⟩

/-! ## One commit (spec R240, R241) -/

/-- The byte that `CommitByte(b)` writes. -/
def committedByte (cfg : Params) (b : Nat) (v : Viterbi) : Byte :=
  (v.path[bestState v.cost] >>> (b - (v.o + 8))).setWidth 8 ^^^ cfg.whiten.getD v.nout 0

section
variable (cfg : Params) (msg : Vector Byte 576) (b : Nat) (v : Viterbi)

theorem commitByte_out :
    (commitByte cfg b v).out = v.out.setIfInBounds v.nout (committedByte cfg b v) := rfl

theorem commitByte_crc :
    (commitByte cfg b v).crc
      = if v.nout < 32 then crcByte (committedByte cfg b v) v.crc else v.crc := rfl

variable {v}

theorem commitByte_out_self (h : v.nout < 34) :
    (commitByte cfg b v).out[v.nout]? = some (committedByte cfg b v) := by
  rw [commitByte_out, Vector.getElem?_setIfInBounds_self, if_pos h]

/-- The bytes committed in `v` stand in `w` too. -/
structure Viterbi.KeptIn (v w : Viterbi) : Prop where
  nout : v.nout ≤ w.nout
  out : ∀ i, i < v.nout → w.out[i]? = v.out[i]?

theorem Viterbi.KeptIn.refl (v : Viterbi) : v.KeptIn v := ⟨le_rfl, fun _ _ => rfl⟩

theorem Viterbi.KeptIn.trans {u w : Viterbi} (h : u.KeptIn v) (h' : v.KeptIn w) : u.KeptIn w :=
  ⟨h.nout.trans h'.nout, fun i hi => (h'.out i (hi.trans_le h.nout)).trans (h.out i hi)⟩

variable (v)

theorem commitByte_keeps : v.KeptIn (commitByte cfg b v) where
  nout := Nat.le_succ _
  out := fun i hi => by rw [commitByte_out, Vector.getElem?_setIfInBounds_ne (by omega)]

theorem commitWhile_keeps (n : Nat) : v.KeptIn (commitWhile cfg b n v) := by
  induction n generalizing v with
  | zero => exact .refl v
  | succ n ih =>
    rw [commitWhile]
    split
    · exact (commitByte_keeps cfg b v).trans (ih _)
    · exact .refl v

theorem addCompareSelect_keeps (pair : Byte × Byte) : v.KeptIn (addCompareSelect cfg pair v) :=
  ⟨le_rfl, fun _ _ => rfl⟩

theorem decodePair_keeps : v.KeptIn (decodePair cfg msg v b) := by
  rw [decodePair]
  split
  · exact (addCompareSelect_keeps cfg v _).trans (commitWhile_keeps cfg b _ _)
  · exact .refl v

variable {b} in
theorem decodeUpTo_keeps {b' : Nat} (h : b ≤ b') :
    (decodeUpTo cfg msg v b).KeptIn (decodeUpTo cfg msg v b') := by
  induction b', h using Nat.le_induction with
  | base => exact .refl _
  | succ b' _ ih =>
    rw [decodeUpTo_succ]
    exact ih.trans (decodePair_keeps cfg msg b' _)

end

/-! ## The CRC register (spec R241, R242) -/

/-- The CRC register has taken the committed bytes, the first 32 at most. -/
def Viterbi.CrcTaken (v : Viterbi) : Prop :=
  v.crc = (v.out.toList.take (min v.nout 32)).foldl (fun a b => crcByte b a) 0xFFFF#16

section
variable (cfg : Params) (msg : Vector Byte 576) (b : Nat) {v : Viterbi}

theorem Viterbi.CrcTaken.commitByte (h : v.CrcTaken) (hlt : v.nout < 34) :
    (commitByte cfg b v).CrcTaken := by
  rw [Viterbi.CrcTaken] at h ⊢
  rw [commitByte_nout, commitByte_crc, commitByte_out, Vector.toList_setIfInBounds]
  by_cases below : v.nout < 32
  · rw [min_eq_left below, if_pos below, List.take_add_one, List.take_set_of_le le_rfl,
      List.getElem?_set_self (by simpa using hlt), Option.toList_some, List.foldl_append, h,
      min_eq_left below.le]
    rfl
  · rw [min_eq_right (by omega), if_neg below, List.take_set_of_le (by omega), h,
      min_eq_right (by omega)]

theorem Viterbi.CrcTaken.commitWhile (h : v.CrcTaken) (n : Nat) :
    (commitWhile cfg b n v).CrcTaken := by
  induction n generalizing v with
  | zero => exact h
  | succ n ih =>
    rw [Machine.commitWhile]
    split
    next due =>
      rw [Bool.and_eq_true, decide_eq_true_eq] at due
      exact ih (h.commitByte cfg b due.1)
    next => exact h

theorem decodeUpTo_crcTaken (v : Viterbi) : (decodeUpTo cfg msg v b).CrcTaken := by
  induction b with
  | zero => rfl
  | succ b ih =>
    have selected : (addCompareSelect cfg (fetchPair cfg msg b) (decodeUpTo cfg msg v b)).CrcTaken := ih
    rw [decodeUpTo_succ, decodePair]
    split
    · exact selected.commitWhile cfg b _
    · exact ih

end

/-- After all pairs the register is the CRC of the first 32 bytes. -/
theorem decodeUpTo_all_crc (cfg : Params) (msg : Vector Byte 576) (v : Viterbi) :
    (decodeUpTo cfg msg v 288).crc
      = ((decodeUpTo cfg msg v 288).out.toList.take 32).foldl (fun a b => crcByte b a) 0xFFFF#16 := by
  have taken := decodeUpTo_crcTaken cfg msg 288 v
  rwa [Viterbi.CrcTaken, decodeUpTo_all_nout] at taken

/-! ## When a byte is committed (spec R238, R239) -/

section
variable (cfg : Params) (msg : Vector Byte 576) (b : Nat) {v : Viterbi}

theorem commitDue_iff (o : Nat) : commitDue b o = true ↔ 32 + o ≤ b ∨ b = 287 ∧ o < b := by
  simp [commitDue]

/-- The loop stops where no commit is due or all bytes are out. -/
theorem commitWhile_stops {n : Nat} (h : v.nout < 34 → ¬ commitDue b v.o = true) :
    commitWhile cfg b n v = v := by
  refine commitWhile_none _ _ _ _ ?_
  rw [← Bool.not_eq_true, Bool.and_eq_true, decide_eq_true_eq]
  exact fun ⟨hlt, due⟩ => h hlt due

theorem commitWhile_goes {n : Nat} (hlt : v.nout < 34) (due : commitDue b v.o = true) :
    commitWhile cfg b (n + 1) v = commitWhile cfg b n (commitByte cfg b v) :=
  commitWhile_due _ _ _ _ (by rw [due, Bool.and_true]; exact decide_eq_true hlt)

variable {b}

/-- Before the last pass at most one byte is committed, when 32 bits more than those taken are there. -/
theorem commitWhile_before_last (hv : v.Counted) (hb : b < 287) (hn : v.nout = (b - 25) / 8) :
    commitWhile cfg b outLen v = if b = 32 + 8 * v.nout then commitByte cfg b v else v := by
  have bits := hv.bits
  by_cases now : b = 32 + 8 * v.nout
  · rw [if_pos now, outLen, commitWhile_goes cfg b (by omega) ((commitDue_iff _ _).2 (by omega))]
    refine commitWhile_stops cfg b fun _ => ?_
    rw [commitByte_o, commitDue_iff]
    omega
  · rw [if_neg now]
    refine commitWhile_stops cfg b fun _ => ?_
    rw [commitDue_iff]
    omega

/-- In the last pass the two bytes that are left are committed. -/
theorem commitWhile_last_two (hv : v.Counted) (hn : v.nout = 32) :
    commitWhile cfg 287 outLen v = commitByte cfg 287 (commitByte cfg 287 v) := by
  have bits := hv.bits
  rw [outLen, commitWhile_goes cfg 287 (by omega) ((commitDue_iff _ _).2 (by omega)),
    commitWhile_goes cfg 287 (by rw [commitByte_nout]; omega)
      ((commitDue_iff _ _).2 (by rw [commitByte_o]; omega))]
  refine commitWhile_stops cfg 287 fun hlt => ?_
  rw [commitByte_nout, commitByte_nout] at hlt
  omega

theorem decodePair_of_lt (h : v.nout < 34) :
    decodePair cfg msg v b
      = commitWhile cfg b outLen (addCompareSelect cfg (fetchPair cfg msg b) v) := if_pos h

variable (v)

theorem decodeUpTo_nout (hb : b ≤ 287) : (decodeUpTo cfg msg v b).nout = (b - 25) / 8 := by
  induction b with
  | zero => rfl
  | succ b ih =>
    have before := ih (by omega)
    have counted := (decodeUpTo_counted cfg msg b v).addCompareSelect cfg (fetchPair cfg msg b)
    rw [decodeUpTo_succ, decodePair_of_lt cfg msg (by omega),
      commitWhile_before_last cfg counted (by omega) before]
    split
    next now =>
      rw [addCompareSelect_nout] at now
      rw [commitByte_nout, addCompareSelect_nout]
      omega
    next later =>
      rw [addCompareSelect_nout] at later ⊢
      omega

/-- Settles O34: one byte for each of the pairs 32, 40, .., and the last two at the end. -/
theorem commitSchedule : Obligations.CommitSchedule := by
  intro cfg msg v
  refine ⟨fun b hb => ⟨decodeUpTo_nout cfg msg v hb, ?_⟩, decodeUpTo_all_nout cfg msg v, ?_⟩
  · rw [(decodeUpTo_counted cfg msg b v).bits, decodeUpTo_nout cfg msg v hb]
  · rw [(decodeUpTo_counted cfg msg 288 v).bits, decodeUpTo_all_nout]

/-! ## A pass (spec R230, R237) -/

section
variable {cost : Vector (BitVec 32) 8} {pair : Byte × Byte} {ns : Fin 8}

/-- The lower-numbered predecessor of a state (spec R237). -/
def lowerPred (ns : Fin 8) : Fin 8 := ⟨ns.val / 2, by omega⟩

/-- The higher-numbered predecessor of a state (spec R237). -/
def upperPred (ns : Fin 8) : Fin 8 := ⟨ns.val / 2 + 4, by omega⟩

/-- The cost of reaching `ns` through `p` (spec R237). -/
def costThrough (cost : Vector (BitVec 32) 8) (pair : Byte × Byte) (ns p : Fin 8) : BitVec 32 :=
  cost[p] + branchCost cfg pair p (ns.val % 2)

theorem survivor_upper
    (h : costThrough cfg cost pair ns (upperPred ns) < costThrough cfg cost pair ns (lowerPred ns)) :
    survivor cfg cost pair ns = (costThrough cfg cost pair ns (upperPred ns), upperPred ns) := if_pos h

theorem survivor_lower
    (h : ¬ costThrough cfg cost pair ns (upperPred ns) < costThrough cfg cost pair ns (lowerPred ns)) :
    survivor cfg cost pair ns = (costThrough cfg cost pair ns (lowerPred ns), lowerPred ns) := if_neg h

end

variable (b) in
/-- The working state of the pass for pair `b` between add-compare-select and the commits. -/
def selectedAt : Viterbi := addCompareSelect cfg (fetchPair cfg msg b) (decodeUpTo cfg msg v b)

variable (b) in
theorem selectedAt_counted : (selectedAt cfg msg b v).Counted :=
  (decodeUpTo_counted cfg msg b v).addCompareSelect cfg _

theorem selectedAt_nout (hb : b ≤ 287) : (selectedAt cfg msg b v).nout = (b - 25) / 8 :=
  decodeUpTo_nout cfg msg v hb

/-- All 288 passes add, compare and select, then commit what is due. -/
theorem decodeUpTo_pass (hb : b ≤ 287) :
    decodeUpTo cfg msg v (b + 1) = commitWhile cfg b outLen (selectedAt cfg msg b v) := by
  rw [decodeUpTo_succ, decodePair_of_lt cfg msg (by rw [decodeUpTo_nout cfg msg v hb]; omega)]
  rfl

theorem decodeUpTo_pass_cost (hb : b ≤ 287) :
    (decodeUpTo cfg msg v (b + 1)).cost = (selectedAt cfg msg b v).cost := by
  rw [decodeUpTo_pass cfg msg v hb, (commitWhile_cost_path ..).1]

theorem decodeUpTo_pass_path (hb : b ≤ 287) :
    (decodeUpTo cfg msg v (b + 1)).path = (selectedAt cfg msg b v).path := by
  rw [decodeUpTo_pass cfg msg v hb, (commitWhile_cost_path ..).2]

theorem decodeUpTo_pass_cost_get (hb : b ≤ 287) (ns : Fin 8) :
    (decodeUpTo cfg msg v (b + 1)).cost[ns]
      = (survivor cfg (decodeUpTo cfg msg v b).cost (fetchPair cfg msg b) ns).1 := by
  rw [decodeUpTo_pass_cost cfg msg v hb]
  exact addCompareSelect_cost_get ..

theorem decodeUpTo_pass_path_get (hb : b ≤ 287) (ns : Fin 8) :
    (decodeUpTo cfg msg v (b + 1)).path[ns]
      = survivorPath (decodeUpTo cfg msg v b).path
          (survivor cfg (decodeUpTo cfg msg v b).cost (fetchPair cfg msg b) ns).2 := by
  rw [decodeUpTo_pass_path cfg msg v hb]
  exact addCompareSelect_path_get ..

/-! ## The bytes (spec R238 to R241) -/

/-- The pair whose pass commits byte `k` (spec R239). -/
def commitPair (k : Nat) : Nat := if k < 32 then 32 + 8 * k else 287

theorem commitPair_le {k : Nat} (hk : k < 34) : commitPair k ≤ 287 := by
  rw [commitPair]
  split <;> omega

/-- Byte `k` is the one that `CommitByte` writes with `k` bytes out, on the costs and paths of the pass. -/
theorem decodeUpTo_commits {k : Nat} (hk : k < 34) :
    ∃ w : Viterbi, w.nout = k ∧ w.o = 8 * k ∧
      w.cost = (selectedAt cfg msg (commitPair k) v).cost ∧
      w.path = (selectedAt cfg msg (commitPair k) v).path ∧
      (commitByte cfg (commitPair k) w).KeptIn (decodeUpTo cfg msg v (commitPair k + 1)) := by
  have counted := selectedAt_counted cfg msg (commitPair k) v
  have out := selectedAt_nout cfg msg v (commitPair_le hk)
  have bits := counted.bits
  rw [decodeUpTo_pass cfg msg v (commitPair_le hk)]
  rcases Nat.lt_or_ge k 32 with below | above
  · have pair : commitPair k = 32 + 8 * k := if_pos below
    refine ⟨selectedAt cfg msg (commitPair k) v, by omega, by omega, rfl, rfl, ?_⟩
    rw [commitWhile_before_last cfg counted (by omega) out, if_pos (by omega)]
    exact .refl _
  · have pair : commitPair k = 287 := if_neg (by omega)
    rw [pair] at counted out bits ⊢
    rw [commitWhile_last_two cfg counted out]
    rcases Nat.eq_or_lt_of_le above with rfl | last
    · exact ⟨selectedAt cfg msg 287 v, out, by omega, rfl, rfl, commitByte_keeps ..⟩
    · refine ⟨commitByte cfg 287 (selectedAt cfg msg 287 v), ?_, ?_, rfl, rfl, .refl _⟩
      · rw [commitByte_nout]
        omega
      · rw [commitByte_o]
        omega

/-- Byte `k` after all passes, from the costs and paths after the pass that commits it. -/
theorem decodeUpTo_all_out {k : Nat} (hk : k < 34) :
    let d := decodeUpTo cfg msg v (commitPair k + 1)
    (decodeUpTo cfg msg v 288).out[k]? = some
      ((d.path[bestState d.cost] >>> (commitPair k - (8 * k + 8))).setWidth 8
        ^^^ cfg.whiten.getD k 0) := by
  obtain ⟨w, hk', bits, cost, path, kept⟩ := decodeUpTo_commits cfg msg v hk
  have le := commitPair_le hk
  have final := kept.trans (decodeUpTo_keeps cfg msg v (show commitPair k + 1 ≤ 288 by omega))
  have byte := commitByte_out_self cfg (commitPair k) (v := w) (by omega)
  rw [← final.out w.nout (by rw [commitByte_nout]; omega), hk'] at byte
  simp only [committedByte, bits, hk', cost, path, ← decodeUpTo_pass_cost cfg msg v le,
    ← decodeUpTo_pass_path cfg msg v le] at byte
  exact byte

end

/-- Settles O60: each part of the decode by its own rule. -/
theorem committedBytes : Obligations.CommittedBytes := by
  intro cfg msg v
  refine ⟨fun b ns hb => ?_, fun k hk => ?_, decodeUpTo_all_crc cfg msg v⟩
  · intro old new place pair p0 p1 m0 m1
    have cost := decodeUpTo_pass_cost_get cfg msg v (show b ≤ 287 by omega) ns
    have path := decodeUpTo_pass_path_get cfg msg v (show b ≤ 287 by omega) ns
    refine ⟨fun h => ?_, fun h => ?_⟩
    · have chosen : survivor cfg (decodeUpTo cfg msg v b).cost (fetchPair cfg msg b) ns = (m1, p1) :=
        survivor_upper cfg h
      rw [chosen] at cost path
      exact ⟨cost, path⟩
    · have chosen : survivor cfg (decodeUpTo cfg msg v b).cost (fetchPair cfg msg b) ns = (m0, p0) :=
        survivor_lower cfg h
      rw [chosen] at cost path
      exact ⟨cost, path⟩
  · obtain ⟨least, first⟩ := bestState_spec (decodeUpTo cfg msg v (commitPair k + 1)).cost
    exact ⟨_, least, first, decodeUpTo_all_out cfg msg v hk⟩

end Sys2Proof.Machine
end

section
/-!
PROOFS. The frame that the block decode makes of its working state (spec R117, R230, R244), and FECDEC.
-/

namespace Sys2Proof.Machine

/-- The CRC check, as an equation of words. -/
theorem crcMatches_iff (crc : BitVec 16) (out : Vector Byte 34) :
    crcMatches crc out = true ↔ crc = out[32] ++ out[33] := by
  rw [crcMatches, Bool.and_eq_true, decide_eq_true_eq, decide_eq_true_eq]
  constructor
  · rintro ⟨hi, lo⟩
    rw [hi, lo]
    exact (BitVec.extractLsb'_append_extractLsb' (w := 8) (len := 8)).symm
  · rintro rfl
    exact ⟨(Laws.UnitField.wordOp_wordOfBytes _ _).symm, (Laws.UnitField.wordUnit_wordOfBytes _ _).symm⟩

theorem finaliseOut_getElem? (cfg : Params) (v : Viterbi) {i : Nat} (hi : i < 32) :
    (finaliseOut cfg v)[i]? = v.out[i]? := by
  rw [finaliseOut, Vector.getElem?_set_ne _ (by omega), Vector.getElem?_set_ne _ (by omega)]

/-- The frame made of the working state after all pairs (spec R117, R244). -/
def frameOf (cfg : Params) (c : UnitNo) (d : Viterbi) : Frame where
  data := finaliseOut cfg d
  crcMatch := crcMatches d.crc d.out
  channelId := c

theorem decodeBlock_frame (cfg : Params) (c : UnitNo) (msg : Vector Byte 576) (v : Viterbi) :
    (decodeBlock cfg c msg v).2 = frameOf cfg c (decodeUpTo cfg msg v 288) := rfl

section
variable (cfg : Params) (c : UnitNo) {d : Viterbi}

theorem frameOf_data_getElem? {i : Nat} (hi : i < 32) : (frameOf cfg c d).data[i]? = d.out[i]? :=
  finaliseOut_getElem? cfg d hi

theorem frameOf_data_32 : (frameOf cfg c d).data[32] = 0x00#8 := by
  simp [frameOf, finaliseOut]

theorem frameOf_data_33 :
    (frameOf cfg c d).data[33] = if (frameOf cfg c d).crcMatch then cfg.crcOk else 0x00#8 := by
  simp [frameOf, finaliseOut]

theorem frameOf_crcMatch_iff
    (taken : d.crc = (d.out.toList.take 32).foldl (fun a b => crcByte b a) 0xFFFF#16) :
    (frameOf cfg c d).crcMatch = true ↔
      (d.out.toList.take 32).foldl (fun a b => crcByte b a) 0xFFFF#16 = d.out[32] ++ d.out[33] := by
  rw [← taken]
  exact crcMatches_iff d.crc d.out

end

/-- Settles O32: the frame of the block decode, sent or waited with. -/
theorem fecdecResult : Obligations.FecdecResult := by
  intro s c ready d
  have done := exec_fecdec_ready ready
  rw [fecdecChannel_eq, decodeBlock_frame] at done
  have taken := decodeUpTo_all_crc s.cfg (s.chan c).msg (s.chan c).wk
  refine ⟨fun takes => ⟨_, frameOf s.cfg c d, done.trans (congrArg _ (finish_with_frame takes)), rfl,
    fun i hi => frameOf_data_getElem? s.cfg c hi, frameOf_crcMatch_iff s.cfg c taken,
    frameOf_data_32 s.cfg c, frameOf_data_33 s.cfg c⟩,
    fun full => done.trans (congrArg _ (finish_waits full))⟩

end Sys2Proof.Machine
end

section
/-!
PROOFS. Add-compare-select and the paths through the trellis (spec R231, R233, R236, R237): a state's
cost is the least total cost of the paths that end there. One pair lengthens every path by one branch,
and the survivor is the cheapest of the two branches into a state.
-/

namespace Sys2Proof.Machine

/-! ## Paths (spec R231, R233) -/

theorem nextState_lt (p : Nat) (u : Bool) : nextState p u < 8 := Nat.mod_lt _ (by decide)

theorem pathEnd_lt {p : Nat} (hp : p < 8) (us : List Bool) : pathEnd p us < 8 := by
  induction us generalizing p with
  | nil => exact hp
  | cons u us ih => exact ih (nextState_lt p u)

theorem pathEnd_concat (p : Nat) (us : List Bool) (u : Bool) :
    pathEnd p (us ++ [u]) = nextState (pathEnd p us) u := by
  induction us generalizing p with
  | nil => rfl
  | cons w us ih => exact ih _

theorem pathCost_concat (cfg : Params) (msg : Vector Byte 576) (b p : Nat) (us : List Bool) (u : Bool) :
    pathCost cfg msg b p (us ++ [u])
      = pathCost cfg msg b p us
        + (branchCost cfg (fetchPair cfg msg (b + us.length)) (pathEnd p us) u.toNat).toNat := by
  induction us generalizing b p with
  | nil => simp [pathCost, pathEnd]
  | cons w us ih =>
    simp only [List.cons_append, pathCost, pathEnd, ih, List.length_cons]
    rw [show b + 1 + us.length = b + (us.length + 1) by omega, Nat.add_assoc]

/-! ## The branches into a state (spec R231, R237) -/

/-- The data bit of the branches into state `ns`. -/
def entryBit (ns : Fin 8) : Bool := ns.val % 2 == 1

theorem entryBit_toNat (ns : Fin 8) : (entryBit ns).toNat = ns.val % 2 := by
  revert ns
  decide

/-- A branch into `ns` comes from one of its two predecessors and carries its bit. -/
theorem nextState_eq_iff (p ns : Fin 8) (u : Bool) :
    nextState p u = ns ↔ (p = lowerPred ns ∨ p = upperPred ns) ∧ u = entryBit ns := by
  revert p ns u
  decide

section
variable (cfg : Params) {cost : Vector (BitVec 32) 8} (pair : Byte × Byte)
  (small : ∀ p : Fin 8, cost[p].toNat ≤ 0x7FFFFFFF + 510 * 288)
include small

/-- No addition of the pass wraps (spec R16). -/
theorem costThrough_toNat (ns p : Fin 8) :
    (costThrough cfg cost pair ns p).toNat
      = cost[p].toNat + (branchCost cfg pair p (entryBit ns).toNat).toNat := by
  have old := small p
  have branch := branchCost_le cfg pair p (ns.val % 2)
  rw [costThrough, entryBit_toNat, BitVec.toNat_add_of_lt (by omega)]

/-- The survivor is one of the branches into its state. -/
theorem survivor_attained (ns : Fin 8) :
    nextState (survivor cfg cost pair ns).2 (entryBit ns) = ns ∧
      (survivor cfg cost pair ns).1.toNat
        = cost[(survivor cfg cost pair ns).2].toNat
          + (branchCost cfg pair (survivor cfg cost pair ns).2 (entryBit ns).toNat).toNat := by
  by_cases h : costThrough cfg cost pair ns (upperPred ns) < costThrough cfg cost pair ns (lowerPred ns)
  · simp only [survivor_upper cfg h]
    exact ⟨(nextState_eq_iff _ _ _).2 ⟨.inr rfl, rfl⟩, costThrough_toNat cfg pair small ns _⟩
  · simp only [survivor_lower cfg h]
    exact ⟨(nextState_eq_iff _ _ _).2 ⟨.inl rfl, rfl⟩, costThrough_toNat cfg pair small ns _⟩

/-- No branch into the state is cheaper. -/
theorem survivor_le {p ns : Fin 8} {u : Bool} (h : nextState p u = ns) :
    (survivor cfg cost pair ns).1.toNat
      ≤ cost[p].toNat + (branchCost cfg pair p u.toNat).toNat := by
  obtain ⟨pred, rfl⟩ := (nextState_eq_iff p ns u).1 h
  rw [← costThrough_toNat cfg pair small]
  by_cases upper :
      costThrough cfg cost pair ns (upperPred ns) < costThrough cfg cost pair ns (lowerPred ns)
  · rw [survivor_upper cfg upper]
    rcases pred with rfl | rfl
    · exact (BitVec.lt_def.1 upper).le
    · exact le_rfl
  · rw [survivor_lower cfg upper]
    rcases pred with rfl | rfl
    · exact le_rfl
    · exact Nat.not_lt.1 fun lt => upper (BitVec.lt_def.2 lt)

end

/-! ## All pairs (spec R230, R236) -/

section
variable (cfg : Params) (msg : Vector Byte 576) (v : Viterbi) {b : Nat}

theorem decodeUpTo_cost_small (hb : b ≤ 288) (p : Fin 8) :
    (decodeUpTo cfg msg v b).cost[p].toNat ≤ 0x7FFFFFFF + 510 * 288 :=
  (decodeUpTo_cost_le cfg v msg b p).trans (by omega)

theorem decodeUpTo_zero_cost (p : Fin 8) :
    (decodeUpTo cfg msg v 0).cost[p].toNat = startCost p := by
  rw [decodeUpTo_zero, viterbiInit_cost_get]
  revert p
  decide

/-- Every path costs at least what the decode has for its last state. -/
theorem decodeUpTo_cost_le_path {p : Nat} (hp : p < 8) {us : List Bool} (hb : us.length ≤ 288)
    {ns : Fin 8} (ends : pathEnd p us = ns) :
    (decodeUpTo cfg msg v us.length).cost[ns].toNat ≤ startCost p + pathCost cfg msg 0 p us := by
  induction us using List.reverseRecOn generalizing ns with
  | nil =>
    obtain rfl : p = ns := ends
    exact (decodeUpTo_zero_cost cfg msg v ns).le
  | append_singleton us u ih =>
    rw [List.length_append, List.length_singleton] at hb ⊢
    rw [pathEnd_concat] at ends
    have before := ih (by omega) (ns := ⟨pathEnd p us, pathEnd_lt hp us⟩) rfl
    have step := survivor_le cfg (fetchPair cfg msg us.length)
      (decodeUpTo_cost_small cfg msg v (show us.length ≤ 288 by omega))
      (p := ⟨pathEnd p us, pathEnd_lt hp us⟩) ends
    rw [decodeUpTo_pass_cost_get cfg msg v (by omega), pathCost_concat, Nat.zero_add, ← Nat.add_assoc]
    exact step.trans (Nat.add_le_add_right before _)

/-- Some path costs exactly that. -/
theorem decodeUpTo_cost_attained (hb : b ≤ 288) (ns : Fin 8) :
    ∃ (p : Nat) (us : List Bool), p < 8 ∧ us.length = b ∧ pathEnd p us = ns.val ∧
      (decodeUpTo cfg msg v b).cost[ns].toNat = startCost p + pathCost cfg msg 0 p us := by
  induction b generalizing ns with
  | zero => exact ⟨ns, [], ns.isLt, rfl, rfl, decodeUpTo_zero_cost cfg msg v ns⟩
  | succ b ih =>
    obtain ⟨branch, cost⟩ := survivor_attained cfg (fetchPair cfg msg b)
      (decodeUpTo_cost_small cfg msg v (show b ≤ 288 by omega)) ns
    obtain ⟨p, us, hp, len, ends, total⟩ := ih (by omega)
      (survivor cfg (decodeUpTo cfg msg v b).cost (fetchPair cfg msg b) ns).2
    refine ⟨p, us ++ [entryBit ns], hp, by simp [len], ?_, ?_⟩
    · rw [pathEnd_concat, ends, branch]
    · rw [decodeUpTo_pass_cost_get cfg msg v (by omega), cost, total, pathCost_concat, Nat.zero_add,
        len, ends, Nat.add_assoc]

end

/-- Settles O36: the bound for every path, and the path that attains it, by induction on the pairs. -/
theorem survivorsAreOptimal : Obligations.SurvivorsAreOptimal := by
  intro cfg msg v b ns hb
  refine ⟨fun p us hp len ends => ?_, decodeUpTo_cost_attained cfg msg v hb ns⟩
  subst len
  exact decodeUpTo_cost_le_path cfg msg v hp hb ends

end Sys2Proof.Machine
end

section
/-!
PROOFS. Encoding and decoding (spec R240 to R247, file 95_test_vectors.md 7.1). The two branches out of a
trellis state carry different symbols, so an undisturbed block has exactly one path of cost 0 from state
0, and the decode follows it: after each pair one state has cost 0, and its path register holds the
latest data bits.
-/

namespace Sys2Proof.Machine

/-! ## The encoder's bits -/

/-- Entry `j` of chunk `k` of a list of chunks of one length. -/
theorem getElem?_flatten_chunks {α : Type} {n j : Nat} (hj : j < n) {L : List (List α)}
    (chunks : ∀ l ∈ L, l.length = n) (k : Nat) :
    L.flatten[n * k + j]? = L[k]?.bind (·[j]?) := by
  induction L generalizing k with
  | nil => simp
  | cons l L ih =>
    obtain ⟨len, chunks⟩ := List.forall_mem_cons.1 chunks
    rw [List.flatten_cons]
    cases k with
    | zero => simp [List.getElem?_append_left, len, hj]
    | succ k =>
      have place : n * (k + 1) + j = l.length + (n * k + j) := by rw [len, Nat.mul_succ]; omega
      rw [place, List.getElem?_append_right (Nat.le_add_right _ _), Nat.add_sub_cancel_left,
        ih chunks, List.getElem?_cons_succ]

section
variable (cfg : Params) {payload : List Byte} (len : payload.length = 32)

include len in
theorem preBytes_length : (preBytes payload).length = 36 := by simp [preBytes, len]

include len in
theorem dataBits_length : (dataBits cfg payload).length = 288 := by
  simp [dataBits, List.length_flatten, Function.comp_def, preBytes_length len]

/-- Bit `8k + j` is bit `j` of the whitened byte `k`, the most significant one first. -/
theorem dataBits_getElem? {k j : Nat} {x : Byte} (hx : (preBytes payload)[k]? = some x) (hj : j < 8) :
    (dataBits cfg payload)[8 * k + j]? = some ((x ^^^ cfg.whiten.getD k 0).getLsbD (7 - j)) := by
  have chunks : ∀ l ∈ (preBytes payload).zipIdx.map fun p =>
      (List.range 8).map fun n => (p.1 ^^^ cfg.whiten.getD p.2 0).getLsbD (7 - n), l.length = 8 := by
    intro l hl
    obtain ⟨p, -, rfl⟩ := List.mem_map.1 hl
    simp
  rw [dataBits, getElem?_flatten_chunks hj chunks]
  simp [hx, hj]

theorem symbolsFrom_getElem? (p b : Nat) (us : List Bool) :
    (symbolsFrom cfg p us)[b]?
      = us[b]?.map fun u => trellisSymbol cfg (pathEnd p (us.take b)) u.toNat := by
  induction us generalizing p b with
  | nil => rfl
  | cons u us ih =>
    cases b with
    | zero => rfl
    | succ b => exact ih _ _

end

/-! ## The symbols of the default tables (spec R232, R233) -/

/-- The soft bytes of a symbol, high bit first. -/
def symbolBytes (sym : BitVec 2) : Byte × Byte := (softByte (sym.getLsbD 1), softByte (sym.getLsbD 0))

theorem getD_of_getElem? {n i : Nat} {xs : Vector Byte n} {x : Byte} (h : xs[i]? = some x) (y : Byte) :
    xs.getD i y = x := by
  obtain ⟨hi, rfl⟩ := Vector.getElem?_eq_some_iff.1 h
  simp [Vector.getD, Array.getD, hi]

/-- The pairs of an encoded block are the symbols of its data bits. -/
theorem fetchPair_of_encodes {cfg : Params} {payload : List Byte} {msg : Vector Byte 576}
    (enc : Encodes cfg payload msg) {b : Nat} {u : Bool} (hu : (dataBits cfg payload)[b]? = some u) :
    fetchPair cfg msg b
      = symbolBytes (trellisSymbol cfg (pathEnd 0 ((dataBits cfg payload).take b)) u.toNat) := by
  have sent := symbolsFrom_getElem? cfg 0 b (dataBits cfg payload)
  rw [hu, Option.map_some] at sent
  obtain ⟨high, low⟩ := enc
    (trellisSymbol cfg (pathEnd 0 ((dataBits cfg payload).take b)) u.toNat, b)
    (List.mem_zipIdx_iff_getElem?.2 sent)
  rw [fetchPair, getD_of_getElem? high, getD_of_getElem? low, symbolBytes]

section
variable {cfg : Params} (hc : DefaultFec cfg)
include hc

theorem expectedByte_default : expectedByte cfg = softByte := by
  funext q
  rw [expectedByte, hc.e0, hc.e1]
  rfl

/-- A branch costs nothing exactly when its symbol is the one received. -/
theorem branchCost_eq_zero_iff (sym : BitVec 2) (p u : Nat) :
    (branchCost cfg (symbolBytes sym) p u).toNat = 0 ↔ trellisSymbol cfg p u = sym := by
  rw [branchCost, expectedByte_default hc]
  generalize trellisSymbol cfg p u = sent
  revert sent sym
  decide

/-- The two branches out of a state carry different symbols. -/
theorem trellisSymbol_inj (p : Fin 8) (u u' : Bool) :
    trellisSymbol cfg p u.toNat = trellisSymbol cfg p u'.toNat ↔ u = u' := by
  simp only [trellisSymbol, hc.trellis]
  revert p u u'
  decide

end

/-! ## The path of cost 0 (spec R237) -/

/-- The decode has followed the data bits `us` from state 0: their last state is the only one of cost 0,
and bit `j` of its path is the data bit `j + 1` places before the last. -/
structure Viterbi.Follows (v : Viterbi) (us : List Bool) : Prop where
  cost : ∀ ns : Fin 8, v.cost[ns].toNat = 0 ↔ ns.val = pathEnd 0 us
  path : ∀ ns : Fin 8, ns.val = pathEnd 0 us → ∀ j, j < 32 → j + 1 < us.length →
    us.reverse[j + 1]? = some (v.path[ns].getLsbD j)

/-- The state a path ends in shows its last data bit. -/
theorem reverse_head_eq_pathEnd (p : Nat) {us : List Bool} (nonempty : us ≠ []) :
    us.reverse[0]? = some (decide (pathEnd p us % 2 = 1)) := by
  obtain ⟨ws, w, rfl⟩ := (List.eq_nil_or_concat' us).resolve_left nonempty
  have bit : decide (nextState (pathEnd p ws) w % 2 = 1) = w := by
    rw [nextState, Nat.mod_mod_of_dvd _ (by decide)]
    cases w <;> simp
  rw [pathEnd_concat, bit]
  simp

/-- The bit shifted into a path (spec R237). -/
theorem survivorPath_getLsbD_zero (path : Vector (BitVec 32) 8) (p : Fin 8) :
    (survivorPath path p).getLsbD 0 = decide (p.val % 2 = 1) := by
  rw [survivorPath, BitVec.getLsbD_or, BitVec.getLsbD_shiftLeft, BitVec.getLsbD_ofNat,
    Nat.testBit_zero, Nat.mod_mod]
  simp

theorem survivorPath_getLsbD_succ (path : Vector (BitVec 32) 8) (p : Fin 8) {j : Nat} (hj : j + 1 < 32) :
    (survivorPath path p).getLsbD (j + 1) = path[p].getLsbD j := by
  have bit : (BitVec.ofNat 32 (p.val % 2)).getLsbD (j + 1) = false := by
    rw [BitVec.getLsbD_ofNat, Nat.testBit_lt_two_pow, Bool.and_false]
    calc p.val % 2 < 2 ^ 1 := Nat.mod_lt _ (by decide)
      _ ≤ 2 ^ (j + 1) := Nat.pow_le_pow_right (by decide) (by omega)
  rw [survivorPath, BitVec.getLsbD_or, BitVec.getLsbD_shiftLeft, bit]
  simp [hj]

section
variable {cfg : Params} (hc : DefaultFec cfg) {v : Viterbi} {us : List Bool} (h : v.Follows us)
  (small : ∀ p : Fin 8, v.cost[p].toNat ≤ 0x7FFFFFFF + 510 * 288) {u : Bool} {pair : Byte × Byte}
  (hp : pair = symbolBytes (trellisSymbol cfg (pathEnd 0 us) u.toNat))
include hc h small hp

/-- A survivor of cost 0 comes from the state that the data bits have led to, by the next one. -/
theorem Viterbi.Follows.survivor_of_zero {ns : Fin 8}
    (zero : (survivor cfg v.cost pair ns).1.toNat = 0) :
    (survivor cfg v.cost pair ns).2.val = pathEnd 0 us ∧ ns.val = pathEnd 0 (us ++ [u]) := by
  obtain ⟨branch, cost⟩ := survivor_attained cfg pair small ns
  have pred : (survivor cfg v.cost pair ns).2.val = pathEnd 0 us := (h.cost _).1 (by omega)
  have free : (branchCost cfg pair (survivor cfg v.cost pair ns).2 (entryBit ns).toNat).toNat = 0 := by
    omega
  rw [hp, branchCost_eq_zero_iff hc, ← hp, ← pred] at free
  have bit : entryBit ns = u := (trellisSymbol_inj hc _ _ _).1 free
  exact ⟨pred, by rw [pathEnd_concat, ← pred, ← branch, bit]⟩

theorem Viterbi.Follows.survivor_zero_iff (ns : Fin 8) :
    (survivor cfg v.cost pair ns).1.toNat = 0 ↔ ns.val = pathEnd 0 (us ++ [u]) := by
  refine ⟨fun zero => (h.survivor_of_zero hc small hp zero).2, fun ends => ?_⟩
  rw [pathEnd_concat] at ends
  have start := (h.cost ⟨pathEnd 0 us, pathEnd_lt (by decide) us⟩).2 rfl
  have free : (branchCost cfg pair (pathEnd 0 us) u.toNat).toNat = 0 := by
    rw [hp, branchCost_eq_zero_iff hc]
  have least := survivor_le cfg pair small
    (p := ⟨pathEnd 0 us, pathEnd_lt (by decide) us⟩) ends.symm
  rw [start, free] at least
  exact Nat.le_zero.1 least

/-- A pair that is the symbol of the next data bit takes the decode one bit further. -/
theorem Viterbi.Follows.addCompareSelect : (addCompareSelect cfg pair v).Follows (us ++ [u]) where
  cost := fun ns => by
    rw [addCompareSelect_cost_get]
    exact h.survivor_zero_iff hc small hp ns
  path := fun ns ends j hj before => by
    have zero := (h.survivor_zero_iff hc small hp ns).2 ends
    have pred := (h.survivor_of_zero hc small hp zero).1
    rw [List.length_append, List.length_singleton] at before
    rw [addCompareSelect_path_get, List.reverse_append, List.reverse_singleton, List.singleton_append,
      List.getElem?_cons_succ]
    cases j with
    | zero =>
      rw [survivorPath_getLsbD_zero, pred]
      exact reverse_head_eq_pathEnd 0 (List.ne_nil_of_length_pos (by omega))
    | succ j =>
      rw [survivorPath_getLsbD_succ _ _ hj]
      exact h.path _ pred j (by omega) (by omega)

end

/-- The state of least cost is the one that the data bits lead to. -/
theorem Viterbi.Follows.bestState {v : Viterbi} {us : List Bool} (h : v.Follows us) :
    (bestState v.cost).val = pathEnd 0 us := by
  have zero := (h.cost ⟨pathEnd 0 us, pathEnd_lt (by decide) us⟩).2 rfl
  have least := (bestState_spec v.cost).1 ⟨pathEnd 0 us, pathEnd_lt (by decide) us⟩
  exact (h.cost _).1 (Nat.le_zero.1 (zero ▸ least))

/-- The eight bits that a commit takes after pair `b` are the data bits `8k .. 8k+7`, as long as the
path register reaches back to them (spec R240). -/
theorem Viterbi.Follows.committed_bits {v : Viterbi} {bits : List Bool} {b k i : Nat}
    (h : v.Follows (bits.take (b + 1))) (hb : b < bits.length) (reach : 8 * k + 8 ≤ b ∧ b < 8 * k + 33)
    (hi : i < 8) :
    bits[8 * k + (7 - i)]? =
      some (((v.path[Machine.bestState v.cost] >>> (b - (8 * k + 8))).setWidth 8).getLsbD i) := by
  have len : (bits.take (b + 1)).length = b + 1 := List.length_take_of_le hb
  have path := h.path _ h.bestState (b - (8 * k + 8) + i) (by omega) (by omega)
  rw [List.getElem?_reverse (by omega), len, List.getElem?_take_of_lt (by omega),
    show b + 1 - 1 - (b - (8 * k + 8) + i + 1) = 8 * k + (7 - i) by omega] at path
  rw [path, BitVec.getLsbD_setWidth, BitVec.getLsbD_ushiftRight, decide_eq_true hi, Bool.true_and]

section
variable {cfg : Params} {payload : List Byte} {msg : Vector Byte 576} (hc : DefaultFec cfg)
  (len : payload.length = 32) (enc : Encodes cfg payload msg) (v : Viterbi)
include hc len enc

/-- After `b` pairs of an encoded block the decode has followed the first `b` data bits. -/
theorem decodeUpTo_follows {b : Nat} (hb : b ≤ 288) :
    (decodeUpTo cfg msg v b).Follows ((dataBits cfg payload).take b) := by
  induction b with
  | zero =>
    refine ⟨fun ns => ?_, fun _ _ _ _ none => absurd none (by simp)⟩
    rw [decodeUpTo_zero_cost, startCost, List.take_zero]
    simp [pathEnd]
  | succ b ih =>
    have bits := dataBits_length cfg len
    have next : (dataBits cfg payload)[b]? = some (dataBits cfg payload)[b] :=
      List.getElem?_eq_getElem (by omega)
    have step := (ih (by omega)).addCompareSelect hc
      (decodeUpTo_cost_small cfg msg v (by omega)) (fetchPair_of_encodes enc next)
    rw [List.take_append_getElem] at step
    refine ⟨fun ns => ?_, fun ns => ?_⟩
    · rw [decodeUpTo_pass_cost cfg msg v (by omega)]
      exact step.cost ns
    · rw [decodeUpTo_pass_path cfg msg v (by omega)]
      exact step.path ns

/-- The byte committed is the one encoded (spec R240, R241). -/
theorem decodeUpTo_out_eq_preBytes {k : Nat} (hk : k < 34) :
    (decodeUpTo cfg msg v 288).out[k]? = (preBytes payload)[k]? := by
  have le := commitPair_le hk
  have bits := dataBits_length cfg len
  have reach : 8 * k + 8 ≤ commitPair k ∧ commitPair k < 8 * k + 33 := by
    rw [commitPair]
    split <;> omega
  have follows := decodeUpTo_follows hc len enc v (show commitPair k + 1 ≤ 288 by omega)
  obtain ⟨x, hx⟩ : ∃ x, (preBytes payload)[k]? = some x :=
    ⟨_, List.getElem?_eq_getElem (by rw [preBytes_length len]; omega)⟩
  rw [decodeUpTo_all_out cfg msg v hk, hx, Option.some_inj]
  have raw : ((decodeUpTo cfg msg v (commitPair k + 1)).path[bestState
      (decodeUpTo cfg msg v (commitPair k + 1)).cost] >>> (commitPair k - (8 * k + 8))).setWidth 8
        = x ^^^ cfg.whiten.getD k 0 := by
    refine BitVec.eq_of_getLsbD_eq fun i hi => ?_
    have bit := follows.committed_bits (by omega) reach hi
    rwa [dataBits_getElem? cfg hx (by omega), Option.some_inj, show 7 - (7 - i) = i by omega,
      eq_comm] at bit
  rw [raw, BitVec.xor_assoc, BitVec.xor_self, BitVec.xor_zero]

end

/-- The encoder's first 34 bytes are the payload and its CRC, high byte first. -/
theorem preBytes_take {payload : List Byte} (len : payload.length = 32) :
    (preBytes payload).take 34
      = payload ++ [(payload.foldl (fun a b => crcByte b a) crcInit).extractLsb' 8 8,
          (payload.foldl (fun a b => crcByte b a) crcInit).extractLsb' 0 8] := by
  rw [preBytes, List.take_append, List.take_of_length_le (by omega), len]
  rfl

/-- 34 bytes that are the encoder's first 34 hold the payload and its CRC. -/
theorem payload_crc_of_preBytes {payload : List Byte} (len : payload.length = 32) {out : Vector Byte 34}
    (h : ∀ k, k < 34 → out[k]? = (preBytes payload)[k]?) :
    out.toList.take 32 = payload ∧
      payload.foldl (fun a b => crcByte b a) 0xFFFF#16 = out[32] ++ out[33] := by
  have bytes : out.toList = (preBytes payload).take 34 := List.ext_getElem? fun k => by
    by_cases hk : k < 34
    · rw [Vector.getElem?_toList, h k hk, List.getElem?_take_of_lt hk]
    · rw [List.getElem?_eq_none (by simpa using hk), List.getElem?_eq_none (by simp; omega)]
  obtain ⟨crc, taken⟩ : ∃ crc, payload.foldl (fun a b => crcByte b a) 0xFFFF#16 = crc := ⟨_, rfl⟩
  rw [preBytes_take len, crcInit, taken] at bytes
  have high : out[32]? = some (crc.extractLsb' 8 8) := by
    rw [← Vector.getElem?_toList, bytes, List.getElem?_append_right len.le, len]
    rfl
  have low : out[33]? = some (crc.extractLsb' 0 8) := by
    rw [← Vector.getElem?_toList, bytes, List.getElem?_append_right (by omega), len]
    rfl
  rw [Vector.getElem?_eq_getElem (by decide), Option.some_inj] at high low
  rw [taken, high, low]
  exact ⟨by rw [bytes, List.take_left' len],
    (BitVec.extractLsb'_append_extractLsb' (w := 8) (len := 8)).symm⟩

/-- Settles O37: the bytes committed are those encoded, the last two of them the payload's CRC. -/
theorem roundTrip : Obligations.RoundTrip := by
  intro cfg c payload msg v hc len enc
  obtain ⟨bytes, crc⟩ := payload_crc_of_preBytes len
    fun k hk => decodeUpTo_out_eq_preBytes hc len enc v (k := k) hk
  have taken := decodeUpTo_all_crc cfg msg v
  rw [decodeBlock_frame]
  refine ⟨(frameOf_crcMatch_iff cfg c taken).2 (by rw [bytes]; exact crc), ?_⟩
  rw [← bytes]
  refine List.ext_getElem? fun k => ?_
  rw [List.getElem?_take, List.getElem?_take]
  split
  next hk => rw [Vector.getElem?_toList, Vector.getElem?_toList, frameOf_data_getElem? cfg c hk]
  next => rfl

end Sys2Proof.Machine
end

section
/-!
PROOFS. The construction of the Splitter (spec R9, R48, R270): which parameters are legal, and what
`SPINIT` leaves.
-/

namespace Sys2Proof.Machine

theorem splitterLegal_iff (cfg : Params) : splitterLegal cfg = true ↔
    1 ≤ cfg.n ∧ cfg.n ≤ 256 ∧ 1 ≤ cfg.lagWarn ∧ 1 ≤ cfg.readMax ∧
      (∀ m, cfg.windowCap = some m → 1 ≤ m) ∧
      ∀ m, cfg.blockMax = some m → 1 ≤ m ∧ cfg.readMax ≤ m := by
  simp only [splitterLegal, Bool.and_eq_true, decide_eq_true_eq, capLegal_iff, fitsBlockMax_iff]
  constructor
  · rintro ⟨⟨⟨⟨⟨⟨least, most⟩, lag⟩, cap⟩, positive⟩, read⟩, fits⟩
    exact ⟨least, most, lag, read, cap, fun m hm => ⟨positive m hm, fits m hm⟩⟩
  · rintro ⟨least, most, lag, read, cap, block⟩
    exact ⟨⟨⟨⟨⟨⟨least, most⟩, lag⟩, cap⟩, fun m hm => (block m hm).1⟩, read⟩,
      fun m hm => (block m hm).2⟩

theorem exec_spinit_legal {s : State} (h : splitterLegal s.cfg = true) :
    exec .spinit s = .next { s with
      sp := Splitter.fresh s.cfg s.free, eng := Vector.replicate 256 ⟨[], false⟩
      prod := ⟨none, false⟩, rsp := .nothing, free := s.free + 1 } := by
  simp only [exec, execSpinit, h, if_true]

theorem exec_spinit_illegal {s : State} (h : splitterLegal s.cfg = false) :
    exec .spinit s = .next (s.refuse .badConfig 0) := by
  simp only [exec, execSpinit, h, Bool.false_eq_true, if_false]

/-- Settles O9: the Splitter of R48 is `Splitter.fresh`. -/
theorem spinitConstructs : Obligations.SpinitConstructs := fun s =>
  ⟨splitterLegal_iff s.cfg, fun legal => ⟨_, _, _, _, exec_spinit_legal legal⟩, exec_spinit_illegal⟩

end Sys2Proof.Machine
end

section
/-!
PROOFS. The operations on a constructed Splitter (spec R271 to R284, R341): for each outcome of PUSH,
GET, NEXT and CLOSE, the condition it has and the next state.
-/

namespace Sys2Proof.Machine

/-! ## PUSH: the checks in their order, then the append (spec R271, R272, R281 to R283) -/

section
variable {s : State} {blk : Block}

theorem exec_push_constructed (h : s.sp.constructed = true) :
    exec .push s = .next (s.pushBlock s.blkIn) := by
  simp only [exec, execPush, State.splitterRefusal_constructed h, State.guarded_none]

theorem State.pushBlock_empty (empty : blk = []) : s.pushBlock blk = s.refuse .emptyPush 0 := by
  simp only [State.pushBlock, empty, List.isEmpty_nil, if_true]

variable (nonempty : blk ≠ [])
include nonempty

theorem State.pushBlock_tooLong (long : fitsBlockMax s.cfg blk.length = false) :
    s.pushBlock blk = s.refuse .blockTooLong 0 := by
  simp only [State.pushBlock, List.isEmpty_iff, nonempty, long, Bool.not_false, if_false, if_true]

variable (fits : fitsBlockMax s.cfg blk.length = true)
include fits

theorem State.pushBlock_closed (closed : s.sp.closed = true) :
    s.pushBlock blk = (s.raise .pushReject 0).answer (.pushed false) := by
  simp only [State.pushBlock, List.isEmpty_iff, nonempty, fits, closed, Bool.not_true,
    Bool.false_eq_true, if_false, if_true]

variable (isOpen : s.sp.closed = false)
include isOpen

theorem State.pushBlock_full (full : windowFull s.cfg s.sp.window = true) :
    s.pushBlock blk = s.refuse .windowOverflow 0 := by
  simp only [State.pushBlock, List.isEmpty_iff, nonempty, fits, isOpen, full, Bool.not_true,
    Bool.false_eq_true, if_false, if_true]

/-- Once no check refuses the block it is appended, and `LAG` is raised when the window is then longer
than `LAG_WARN` (spec R282, R334). -/
theorem State.pushBlock_appends (room : windowFull s.cfg s.sp.window = false) :
    s.pushBlock blk = { s with
      sp := s.sp.append s.cfg blk
      status := s.status ++
        (if s.cfg.lagWarn < s.sp.window.length + 1 then [eventWord .lag 0] else [])
      rsp := .pushed true } := by
  have lag : lagCondition s.cfg (s.sp.window ++ [blk])
      = decide (s.cfg.lagWarn < s.sp.window.length + 1) := by
    rw [lagCondition, List.length_append, List.length_singleton]
  rcases s.pushBlock_cases blk with ⟨empty, -⟩ | ⟨-, long, -⟩ | ⟨-, -, closed, -⟩ |
    ⟨-, -, -, full, -⟩ | ⟨-, -, -, -, e⟩
  · exact absurd empty nonempty
  · exact absurd (fits.symm.trans long) Bool.noConfusion
  · exact absurd (isOpen.symm.trans closed) Bool.noConfusion
  · exact absurd (room.symm.trans full) Bool.noConfusion
  · rw [e, lag]
    simp only [decide_eq_true_eq]

end

theorem Splitter.append_eq (cfg : Params) (sp : Splitter) (blk : Block) :
    sp.append cfg blk = { sp with
      window := sp.window ++ [blk], wr := sp.wr + 1
      lagWarn := sp.lagWarn || decide (cfg.lagWarn < sp.window.length + 1) } := by
  rw [Splitter.append, lagCondition, List.length_append, List.length_singleton]

/-- Settles O40: the checks of the push, one after the other. -/
theorem pushResult : Obligations.PushResult := by
  intro s constructed
  simp only [exec_push_constructed constructed]
  refine ⟨fun empty => ?_, fun m nonempty bound long => ?_, fun nonempty bounded => ?_⟩
  · rw [State.pushBlock_empty empty]
    rfl
  · have tooLong : fitsBlockMax s.cfg s.blkIn.length = false :=
      Bool.eq_false_iff.2 fun fits => absurd ((fitsBlockMax_iff _ _).1 fits m bound) (by omega)
    rw [State.pushBlock_tooLong nonempty tooLong]
    rfl
  · have fits := (fitsBlockMax_iff _ _).2 bounded
    refine ⟨fun closed => ?_, fun isOpen full => ?_, fun isOpen room => ?_⟩
    · rw [State.pushBlock_closed nonempty fits closed]
      rfl
    · rw [State.pushBlock_full nonempty fits isOpen ((windowFull_iff _ _).2 full)]
      rfl
    · have notFull : windowFull s.cfg s.sp.window = false :=
        Bool.eq_false_iff.2 fun full => room ((windowFull_iff _ _).1 full)
      rw [State.pushBlock_appends nonempty fits isOpen notFull, Splitter.append_eq]
      rfl

/-! ## GET and NEXT of a consumer (spec R273 to R277) -/

section
variable {s : State} {c : UnitNo} (served : s.served c)
include served

theorem exec_get_avail (avail : s.sp.avail c = true) :
    exec (.get c) s = .next (s.answer (.block (s.sp.blockAt c))) := by
  simp only [exec, execGet, State.consumerRefusal_served served, avail, if_true]

theorem exec_next_avail (avail : s.sp.avail c = true) :
    exec (.next c) s = .next ((s.setSplitter (s.sp.advance c)).answer .nothing) := by
  simp only [exec, execNext, State.consumerRefusal_served served, avail, if_true]

variable (atWrite : s.sp.avail c = false)
include atWrite

theorem exec_get_done (done : s.sp.done c = true) :
    exec (.get c) s = .next ((s.endEngine c).answer .terminator) := by
  simp only [exec, execGet, State.consumerRefusal_served served, atWrite, done, Bool.false_eq_true,
    if_false, if_true]

theorem exec_get_waits (more : s.sp.done c = false) :
    exec (.get c) s = .next (s.wait c (.get c)) := by
  simp only [exec, execGet, State.consumerRefusal_served served, atWrite, more, Bool.false_eq_true,
    if_false]

theorem exec_next_at_write : exec (.next c) s = .next (s.refuse .nextBeyondWrite c) := by
  simp only [exec, execNext, State.consumerRefusal_served served, atWrite, Bool.false_eq_true,
    if_false]

end

section
variable {sp : Splitter} {c : UnitNo} {k : Nat} (hk : sp.cursor[c.toNat]? = some k)
include hk

theorem Splitter.avail_iff : sp.avail c = true ↔ k < sp.wr := by
  rw [Splitter.avail_eq hk, decide_eq_true_eq]

theorem Splitter.avail_false_iff : sp.avail c = false ↔ sp.wr ≤ k := by
  rw [Splitter.avail_eq hk, decide_eq_false_iff_not, not_lt]

theorem Splitter.done_iff : sp.done c = true ↔ sp.closed = true ∧ k = sp.closeIndex := by
  rw [Splitter.done_eq hk, Bool.and_eq_true, decide_eq_true_eq]

theorem Splitter.done_false_iff : sp.done c = false ↔ sp.closed = false ∨ k ≠ sp.closeIndex := by
  rw [Splitter.done_eq hk, Bool.and_eq_false_iff, decide_eq_false_iff_not]

end

/-- Settles O41: the three places of the cursor. -/
theorem getResult : Obligations.GetResult := by
  intro s c k served hk
  refine ⟨fun b before held => ?_, fun atWrite closed atClose => ?_, fun atWrite more => ?_⟩
  · rw [exec_get_avail served ((Splitter.avail_iff hk).2 before), Splitter.blockAt_eq hk held]
    rfl
  · exact exec_get_done served ((Splitter.avail_false_iff hk).2 atWrite)
      ((Splitter.done_iff hk).2 ⟨closed, atClose⟩)
  · exact exec_get_waits served ((Splitter.avail_false_iff hk).2 atWrite)
      ((Splitter.done_false_iff hk).2 more)

/-- The consumer that moves on leaves the others where they were, and `base` was one of the cursors: so
the least cursor rises by one at most (spec R277). -/
theorem Splitter.Inv.moved_minCursor_le {cfg : Params} {sp : Splitter} {c : UnitNo}
    (h : sp.Inv cfg) (hc : c.toNat < cfg.n) : (sp.moved c).minCursor ≤ sp.base + 1 := by
  obtain ⟨-, least⟩ := h.moved_minCursor hc
  obtain ⟨j, inside, at_base⟩ := List.mem_iff_getElem.1 h.base_attained
  have inside' : j < (sp.moved c).cursor.length := inside.trans_eq List.length_set.symm
  have bound := least _ (List.getElem_mem inside')
  by_cases mine : c.toNat = j
  · subst mine
    have here : sp.cursorOf c = sp.base := (List.getD_eq_getElem _ _ inside).trans at_base
    simpa only [Splitter.moved, List.getElem_set_self, here] using bound
  · simp only [Splitter.moved, List.getElem_set_ne mine, at_base] at bound
    exact Nat.le_succ_of_le bound

/-- Settles O42: the new `base` is the least of the moved cursors, at most one more than the old. -/
theorem nextResult : Obligations.NextResult := by
  intro s c k ⟨constructed, unit⟩ inv hk
  refine ⟨fun before => ?_, fun atWrite => ?_⟩
  · have avail := (Splitter.avail_iff hk).2 before
    obtain ⟨least_mem, least⟩ := inv.moved_minCursor unit
    have low := (inv.moved_between unit avail _ least_mem).1
    have high := inv.moved_minCursor_le unit
    rw [exec_next_avail ⟨constructed, unit⟩ avail, inv.advance_eq unit avail,
      ← Splitter.cursorOf_eq hk]
    exact ⟨(s.sp.moved c).minCursor, least_mem, least, by omega, rfl⟩
  · exact exec_next_at_write ⟨constructed, unit⟩ ((Splitter.avail_false_iff hk).2 atWrite)

/-! ## CLOSE (spec R279, R280, R335) -/

theorem exec_close_constructed {s : State} (h : s.sp.constructed = true) :
    exec .close s = .next (s.closeStream.answer .nothing) := by
  simp only [exec, execClose, State.splitterRefusal_constructed h, State.guarded_none]

theorem State.closeStream_closed {s : State} (h : s.sp.closed = true) : s.closeStream = s := by
  simp only [State.closeStream, h, if_true]

/-- Settles O43: the close acts on an open stream only. -/
theorem closeResult : Obligations.CloseResult := by
  refine ⟨rfl, fun s constructed => ?_⟩
  rw [exec_close_constructed constructed]
  refine ⟨fun isOpen => ?_, fun closed => ?_⟩
  · rw [State.closeStream_open isOpen]
    rfl
  · rw [State.closeStream_closed closed]
    rfl

end Sys2Proof.Machine
end

section
/-!
PROOFS. What only grows (spec R282, R313, R332, R343): the frames and the event words sent, at every
step; `closed`, `lag_warn` and `cfg_warn`, at every step but the construction of their unit. One lemma
for each operation on the state, then one case for each operation of the hardware.
-/

namespace Sys2Proof.Machine

/-- From `s` to `t` frames and event words were at most appended. -/
structure State.Sends (s t : State) : Prop where
  status : s.status <+: t.status
  sink : s.sink <+: t.sink

/-- Nothing that only a construction may clear was cleared from `s` to `t`. -/
structure State.Sticky (s t : State) : Prop extends s.Sends t where
  closed : s.sp.closed = true → t.sp.closed = true
  lagWarn : s.sp.lagWarn = true → t.sp.lagWarn = true
  cfgWarn : ∀ d, (t.chan d).cfgWarn = (s.chan d).cfgWarn

theorem State.Sends.refl (s : State) : s.Sends s := ⟨List.prefix_rfl, List.prefix_rfl⟩

theorem State.Sends.trans {s t u : State} (h : s.Sends t) (h' : t.Sends u) : s.Sends u :=
  ⟨h.status.trans h'.status, h.sink.trans h'.sink⟩

namespace State.Sticky

theorem refl (s : State) : s.Sticky s := ⟨.refl s, id, id, fun _ => rfl⟩

theorem trans {s t u : State} (h : s.Sticky t) (h' : t.Sticky u) : s.Sticky u where
  toSends := h.toSends.trans h'.toSends
  closed := h'.closed ∘ h.closed
  lagWarn := h'.lagWarn ∘ h.lagWarn
  cfgWarn := fun d => (h'.cfgWarn d).trans (h.cfgWarn d)

/-! ## The operations on the state -/

section
variable {s t : State} {c : UnitNo} (h : s.Sticky t)
include h

/-- What is not an output, the Splitter or a channel does not matter. -/
theorem congr {u : State} (status : u.status = t.status) (sink : u.sink = t.sink)
    (sp : u.sp = t.sp) (ch : u.ch = t.ch) : s.Sticky u where
  status := status ▸ h.status
  sink := sink ▸ h.sink
  closed := sp ▸ h.closed
  lagWarn := sp ▸ h.lagWarn
  cfgWarn := fun d => by
    rw [← h.cfgWarn d, State.chan, State.chan, ch]

theorem answer (r : Response) : s.Sticky (t.answer r) := h.congr rfl rfl rfl rfl

theorem setProducer (p : Producer) : s.Sticky (t.setProducer p) := h.congr rfl rfl rfl rfl

theorem begin (ts : List Piece) : s.Sticky (t.begin c ts) := h.congr rfl rfl rfl rfl

theorem wait (i : Instr) : s.Sticky (t.wait c i) := h.begin _

theorem endEngine : s.Sticky (t.endEngine c) := h.congr rfl rfl rfl rfl

theorem send (fs : List Frame) : s.Sticky (t.send c fs) :=
  { h with
    status := h.status.trans (List.prefix_append _ _)
    sink := h.sink.trans (List.prefix_append _ _) }

theorem raise (e : Event) (u : UnitNo) : s.Sticky (t.raise e u) :=
  { h with status := h.status.trans (List.prefix_append _ _) }

theorem refuse (e : Event) (u : UnitNo) : s.Sticky (t.refuse e u) := (h.raise e u).answer _

theorem setSplitter {sp : Splitter} (closed : t.sp.closed = true → sp.closed = true)
    (lagWarn : t.sp.lagWarn = true → sp.lagWarn = true) : s.Sticky (t.setSplitter sp) :=
  { h with closed := closed ∘ h.closed, lagWarn := lagWarn ∘ h.lagWarn }

theorem setChan {k : Channel} (hk : k.cfgWarn = (t.chan c).cfgWarn) : s.Sticky (t.setChan c k) :=
  { h with
    cfgWarn := fun d => by
      by_cases own : d = c
      · rw [own, State.setChan_chan_self, hk, h.cfgWarn]
      · rw [State.setChan_chan_ne _ _ _ _ own, h.cfgWarn] }

theorem finish (i : Instr) {k : Channel} (hk : k.cfgWarn = (t.chan c).cfgWarn) (fs : List Frame) :
    s.Sticky (t.finish c i k fs) := by
  rcases t.finish_cases c i k fs with ⟨-, e⟩ | ⟨-, -, e⟩ <;> rw [e]
  · exact ((h.setChan hk).send fs).answer _
  · exact h.wait i

theorem pushBlock (blk : Block) : s.Sticky (t.pushBlock blk) := by
  rcases t.pushBlock_cases blk with ⟨-, e⟩ | ⟨-, -, e⟩ | ⟨-, -, -, e⟩ | ⟨-, -, -, -, e⟩ |
    ⟨-, -, -, -, e⟩ <;> rw [e]
  · exact h.refuse _ _
  · exact h.refuse _ _
  · exact (h.raise _ _).answer _
  · exact h.refuse _ _
  · have appended : s.Sticky (t.setSplitter (t.sp.append t.cfg blk)) :=
      h.setSplitter id fun lag => Bool.or_eq_true_iff.2 (.inl lag)
    exact { appended with status := h.status.trans (List.prefix_append _ _) }

theorem closeStream : s.Sticky t.closeStream := by
  rcases t.closeStream_cases with ⟨-, e⟩ | ⟨-, e⟩ <;> rw [e]
  · exact h
  · exact (h.setSplitter (sp := t.sp.shut) (fun _ => rfl) id).raise _ _

theorem pushHeld : s.Sticky t.pushHeld := by
  rcases t.pushHeld_eq with e | ⟨blk, stopped, r, -, e⟩ <;> rw [e]
  · exact h
  · exact (((h.setProducer _).pushBlock blk).setProducer _).answer r

theorem pumpRead : s.Sticky t.pumpRead := by
  rcases pumpRead_cases t with ⟨-, e⟩ | ⟨-, -, e⟩ | ⟨-, -, -, e⟩ | ⟨-, -, -, e⟩ <;> rw [e]
  · exact h.answer _
  · rw [pumpClosed_eq]
    exact { h with status := h.status.trans (List.prefix_append _ _) }
  · exact (h.closeStream.setProducer _).answer _
  · exact (h.setProducer _).answer _

end

end State.Sticky

/-! ## The stages leave `cfg_warn` alone (spec R332) -/

theorem bsyncChannel_cfgWarn {cfg : Params} {k k' : Channel} (h : bsyncChannel cfg k = some k') :
    k'.cfgWarn = k.cfgWarn := by
  rcases bsyncChannel_cases cfg k with ⟨-, e⟩ | ⟨t, rest, -, -, e⟩ | ⟨t, rest, a, bits, -, -, e⟩
  · rw [Option.some.inj (h.symm.trans e)]
  · exact absurd (h.symm.trans e) nofun
  · rw [Option.some.inj (h.symm.trans e)]

theorem fecbitChannel_cfgWarn (cfg : Params) (c : UnitNo) (k : Channel) :
    (fecbitChannel cfg c k).1.cfgWarn = k.cfgWarn := by
  cases hq : k.bq with
  | nil => simp only [fecbitChannel, hq]
  | cons v rest =>
    obtain ⟨_, _, _, _, _, frame⟩ := takeBit_frame cfg c v { k with bq := rest }
    rw [fecbitChannel_cons _ _ _ _ hq, frame]

/-! ## The operations -/

section
variable {i : Instr} {s t : State} {c : UnitNo}

/-- A stage operation keeps what its stage keeps. -/
theorem onChannel_sticky {f : Channel → Channel} (hf : (f (s.chan c)).cfgWarn = (s.chan c).cfgWarn)
    (h : s.onChannel c f = .next t) : s.Sticky t := by
  rcases onChannel_cases h with ⟨e, rfl⟩ | ⟨-, rfl⟩
  · exact (State.Sticky.refl s).refuse e c
  · exact ((State.Sticky.refl s).setChan hf).answer _

/-- An operation that constructs nothing. -/
theorem exec_sticky (hsp : i ≠ .spinit) (hch : ∀ c, i ≠ .chinit c) (h : exec i s = .next t) :
    s.Sticky t := by
  have kept := State.Sticky.refl s
  cases i with
  | spinit => exact absurd rfl hsp
  | chinit c => exact absurd rfl (hch c)
  | push =>
    rcases push_cases h with rfl | ⟨-, rfl⟩
    · exact kept.refuse _ _
    · exact kept.pushBlock _
  | get c =>
    rcases get_cases h with ⟨e, rfl⟩ | ⟨-, -, rfl⟩ | ⟨-, -, -, rfl⟩ | ⟨-, -, -, rfl⟩
    · exact kept.refuse e c
    · exact kept.answer _
    · exact kept.endEngine.answer _
    · exact kept.wait _
  | next c =>
    rcases next_cases h with ⟨e, rfl⟩ | ⟨-, -, rfl⟩
    · exact kept.refuse e c
    · exact (kept.setSplitter (sp := s.sp.advance c) id id).answer _
  | close =>
    rcases close_cases h with rfl | ⟨-, rfl⟩
    · exact kept.refuse _ _
    · exact kept.closeStream.answer _
  | shift c => exact onChannel_sticky (shiftChannel_cfgWarn s.cfg _) h
  | lpf c => exact onChannel_sticky (filterChannel_cfgWarn s.cfg _) h
  | disc c => exact onChannel_sticky (discChannel_cfgWarn s.cfg _) h
  | extr c => exact onChannel_sticky (extrChannel_cfgWarn _) h
  | bsync c =>
    rcases bsync_cases h with ⟨e, rfl⟩ | ⟨-, -, rfl⟩ | ⟨-, k, hk, rfl⟩
    · exact kept.refuse e c
    · exact kept.wait _
    · exact (kept.setChan (bsyncChannel_cfgWarn hk)).answer _
  | fecbit c =>
    rcases fecbit_cases h with ⟨e, rfl⟩ | ⟨-, -, rfl⟩
    · exact kept.refuse e c
    · exact kept.finish _ (fecbitChannel_cfgWarn s.cfg c _) _
  | fecdec c =>
    rcases fecdec_cases h with ⟨e, rfl⟩ | ⟨-, rfl⟩
    · exact kept.refuse e c
    · exact kept.finish _ (fecdecChannel_cfgWarn s.cfg c _) _
  | loadx c =>
    rcases loadx_cases h with ⟨e, rfl⟩ | ⟨-, -, rfl⟩
    · exact kept.refuse e c
    · exact (kept.setChan (k := { s.chan c with x := s.blkIn }) rfl).answer _
  | block c =>
    rcases block_cases h with ⟨e, rfl⟩ | ⟨-, -, rfl⟩
    · exact kept.refuse e c
    · have copied := kept.setChan (c := c) (k := { s.chan c with x := s.sp.blockAt c }) rfl
      exact (copied.begin _).answer _
  | run c =>
    rcases run_cases h with ⟨e, rfl⟩ | ⟨-, -, rfl⟩ | ⟨-, -, -, rfl⟩ | ⟨-, -, -, rfl⟩
    · exact kept.refuse e c
    · exact (kept.begin _).answer _
    · exact kept.endEngine.answer _
    · exact kept.wait _
  | pump =>
    rcases pump_cases h with rfl | ⟨-, rfl⟩
    · exact kept.refuse _ _
    · exact kept.pushHeld.pumpRead

/-- The construction of the Splitter takes back no output and touches no channel (spec R270). -/
theorem spinit_keeps (h : exec .spinit s = .next t) : s.Sends t ∧ t.ch = s.ch := by
  rcases spinit_cases h with ⟨-, rfl⟩ | ⟨-, rfl⟩
  · exact ⟨⟨List.prefix_rfl, List.prefix_rfl⟩, rfl⟩
  · exact ⟨((State.Sticky.refl s).refuse _ _).toSends, rfl⟩

/-- The construction of a channel takes back no output and touches neither the Splitter nor another
channel (spec R300). -/
theorem chinit_keeps (h : exec (.chinit c) s = .next t) :
    s.Sends t ∧ t.sp = s.sp ∧ ∀ d, d ≠ c → t.chan d = s.chan d := by
  rcases chinit_cases h with ⟨e, rfl⟩ | ⟨-, -, rfl⟩
  · exact ⟨((State.Sticky.refl s).refuse e c).toSends, rfl, fun _ _ => rfl⟩
  · exact ⟨⟨List.prefix_append _ _, List.prefix_rfl⟩, rfl,
      fun d other => State.setChan_chan_ne s c d _ other⟩

/-- Every operation is one of the two constructions or clears nothing. -/
theorem exec_constructs_or_sticky (h : exec i s = .next t) :
    i = .spinit ∨ (∃ c, i = .chinit c) ∨ s.Sticky t := by
  by_cases sp : i = .spinit
  · exact .inl sp
  · by_cases ch : ∃ c, i = .chinit c
    · exact .inr (.inl ch)
    · exact .inr (.inr (exec_sticky sp (not_exists.1 ch) h))

theorem exec_sends (h : exec i s = .next t) : s.Sends t := by
  rcases exec_constructs_or_sticky h with rfl | ⟨c, rfl⟩ | kept
  · exact (spinit_keeps h).1
  · exact (chinit_keeps h).1
  · exact kept.toSends

/-! ## The turns of the agents (spec R86) -/

theorem runPiece_sticky {k : Piece} (hk : ∀ i, k ≠ .op i) (h : runPiece c k s = .next t) :
    s.Sticky t := by
  have kept := State.Sticky.refl s
  rcases runPiece_cases h with ⟨i, op, -⟩ | ⟨-, -, rfl⟩ | ⟨-, -, h⟩ | ⟨-, -, rfl⟩ | ⟨-, -, h⟩ |
    ⟨len, -, rfl⟩
  · exact absurd op (hk i)
  · exact kept
  · exact (kept.begin _).trans (exec_sticky (i := .bsync c) nofun nofun h)
  · exact kept
  · exact (kept.begin _).trans (exec_sticky (i := .fecbit c) nofun nofun h)
  · have counted : s.Sticky
        (s.setChan c { s.chan c with nTotal := (s.chan c).nTotal + len }) := kept.setChan rfl
    exact counted.answer _

/-- An atomic step is an operation, or it constructs nothing. -/
theorem atomicStep_cases {allowed : Instr → Prop} (h : atomicStep allowed s t) :
    (∃ i, allowed i ∧ exec i s = .next t) ∨ s.Sticky t := by
  rcases h with op | h | ⟨c, k, hk, h⟩
  · exact .inl op
  · obtain rfl := Host.Outcome.next.inj h
    exact .inr (State.Sticky.refl s).pushHeld
  · exact .inr (runPiece_sticky hk h)

theorem runPiece_sends {k : Piece} (h : runPiece c k s = .next t) : s.Sends t := by
  by_cases op : ∃ i, k = .op i
  · obtain ⟨i, rfl⟩ := op
    exact exec_sends (i := i) h
  · exact (runPiece_sticky (not_exists.1 op) h).toSends

theorem engineTurn_sends (h : engineTurn c s = .next t) : s.Sends t := by
  rcases engineTurn_cases c s with ⟨-, e⟩ | ⟨k, rest, -, e⟩ <;> rw [e] at h
  · obtain rfl := Host.Outcome.next.inj h
    exact .refl s
  · exact ⟨(runPiece_sends h).status, (runPiece_sends h).sink⟩

theorem offer_sends (h : offer i s = .next t) : s.Sends t := by
  rcases offer_cases i s with ⟨c, -, -, e⟩ | ⟨c, -, -, e⟩ | ⟨-, e⟩ | ⟨-, -, e⟩ <;> rw [e] at h
  · exact exec_sends h
  · obtain rfl := Host.Outcome.next.inj h
    exact ⟨List.prefix_rfl, List.prefix_rfl⟩
  · exact (State.Sticky.refl s).pushHeld.toSends.trans (exec_sends h)
  · exact exec_sends h

theorem runWord_sends {w : Word16} (h : runWord w s = .next t) : s.Sends t := by
  cases hw : decodeWord w with
  | ok i =>
    rw [runWord, hw] at h
    exact offer_sends h
  | badOp u =>
    obtain rfl := Host.Outcome.next.inj ((runWord_badOp hw s).symm.trans h)
    exact ((State.Sticky.refl s).refuse _ u).toSends
  | badUnit u =>
    obtain rfl := Host.Outcome.next.inj ((runWord_badUnit hw s).symm.trans h)
    exact ((State.Sticky.refl s).refuse _ u).toSends

theorem takeTurn_sends {u : Turn} (h : takeTurn u s = .next t) : s.Sends t := by
  cases u with
  | word w blk rd => exact ⟨(runWord_sends h).status, (runWord_sends h).sink⟩
  | engine c => exact engineTurn_sends h
  | producer =>
    obtain rfl := Host.Outcome.next.inj h
    exact (State.Sticky.refl s).pushHeld.toSends
  | stop => exact exec_sends (i := .close) h
  | sink c ready =>
    obtain rfl := Host.Outcome.next.inj h
    exact ⟨List.prefix_rfl, List.prefix_rfl⟩

theorem step_sends (h : step s = .next t) : s.Sends t := by
  cases turns : s.turns with
  | nil =>
    rw [step, turns] at h
    obtain rfl := Host.Outcome.next.inj h
    exact .refl s
  | cons u rest =>
    have turn := (step_turn turns).symm.trans h
    exact ⟨(takeTurn_sends turn).status, (takeTurn_sends turn).sink⟩

/-! ## The three bits, over the atomic steps -/

/-- Only `SPINIT` clears a bit of the Splitter (spec R282, R343). -/
theorem splitter_bits_kept (h : atomicStep (· ≠ .spinit) s t) :
    (s.sp.closed = true → t.sp.closed = true) ∧ (s.sp.lagWarn = true → t.sp.lagWarn = true) := by
  rcases atomicStep_cases h with ⟨i, hi, h⟩ | kept
  · rcases exec_constructs_or_sticky h with rfl | ⟨c, rfl⟩ | kept
    · exact absurd rfl hi
    · obtain ⟨-, same, -⟩ := chinit_keeps h
      rw [same]
      exact ⟨id, id⟩
    · exact ⟨kept.closed, kept.lagWarn⟩
  · exact ⟨kept.closed, kept.lagWarn⟩

/-- Only `CHINIT c` writes `cfg_warn` of channel `c` (spec R332, R343). -/
theorem cfgWarn_kept (h : atomicStep (· ≠ .chinit c) s t) :
    (t.chan c).cfgWarn = (s.chan c).cfgWarn := by
  rcases atomicStep_cases h with ⟨i, hi, h⟩ | kept
  · rcases exec_constructs_or_sticky h with rfl | ⟨d, rfl⟩ | kept
    · obtain ⟨-, same⟩ := spinit_keeps h
      rw [State.chan, State.chan, same]
    · obtain ⟨-, -, others⟩ := chinit_keeps h
      rw [others c fun own => hi (own ▸ rfl)]
    · exact kept.cfgWarn c
  · exact kept.cfgWarn c

end

/-- Settles O47: the outputs by cases on the turn, the three bits by cases on the atomic step. -/
theorem statusIsSticky : Obligations.StatusIsSticky :=
  ⟨fun _ _ h => ⟨(step_sends h).status, (step_sends h).sink⟩,
    fun _ _ => splitter_bits_kept, fun _ _ _ => cfgWarn_kept⟩

end Sys2Proof.Machine
end

section
/-!
PROOFS. Operations on what does not exist (spec R338, R341, R372): for each check made before an operation
acts, the refusal, whatever the operation.
-/

namespace Sys2Proof.Machine

theorem Instr.unitField_eq (i : Instr) : i.unitField = i.unit?.getD 0#8 := by cases i <;> rfl

section
variable {s : State} {i : Instr} {c : UnitNo} {e : Event}

theorem State.channelRefusal_of_consumerRefusal (h : s.consumerRefusal c = some e) :
    s.channelRefusal c = some e := by
  simp only [State.channelRefusal, h]

theorem State.onChannel_refused (h : s.channelRefusal c = some e) (f : Channel → Channel) :
    s.onChannel c f = .next (s.refuse e c) := by
  simp only [State.onChannel, h, State.guarded_some]

/-- The check of the channel comes before all that an operation on it does (spec R341 (1), (2)). -/
theorem exec_of_channelRefusal (hu : i.usesChannel = true) (hi : i.unit? = some c)
    (h : s.channelRefusal c = some e) : exec i s = .next (s.refuse e c) := by
  cases i with
  | spinit | chinit d | push | get d | next d | close | pump => exact absurd hu Bool.false_ne_true
  | shift d | lpf d | disc d | extr d =>
    cases hi
    exact State.onChannel_refused h _
  | bsync d | fecbit d | fecdec d | loadx d | block d | run d =>
    cases hi
    simp only [exec, execBsync, execFecbit, execFecdec, execLoadx, execBlock, execRun, h,
      State.guarded_some]

/-- The check of the consumer comes before all that an operation with a unit does. -/
theorem exec_of_consumerRefusal (hi : i.unit? = some c) (h : s.consumerRefusal c = some e) :
    exec i s = .next (s.refuse e c) := by
  cases i with
  | spinit | push | close | pump => exact absurd hi nofun
  | chinit d | get d | next d =>
    cases hi
    simp only [exec, execChinit, execGet, execNext, h]
  | shift d | lpf d | disc d | extr d | bsync d | fecbit d | fecdec d | loadx d | block d | run d =>
    exact exec_of_channelRefusal rfl hi (State.channelRefusal_of_consumerRefusal h)

/-- The check of the Splitter comes before all that an operation without a unit does. -/
theorem exec_of_splitterRefusal (hsp : i ≠ .spinit) (hi : i.unit? = none)
    (h : s.splitterRefusal = some e) : exec i s = .next (s.refuse e 0) := by
  cases i with
  | spinit => exact absurd rfl hsp
  | push | close | pump => simp only [exec, execPush, execClose, execPump, h, State.guarded_some]
  | chinit d | get d | next d | shift d | lpf d | disc d | extr d | bsync d | fecbit d | fecdec d
  | loadx d | block d | run d => exact absurd hi nofun

/-! ## The three refusals -/

theorem exec_of_no_splitter (h : s.sp.constructed = false) (hsp : i ≠ .spinit) :
    exec i s = .next (s.refuse .notConstructed i.unitField) := by
  rw [Instr.unitField_eq]
  cases hi : i.unit? with
  | none => exact exec_of_splitterRefusal hsp hi (by rw [State.splitterRefusal, h]; rfl)
  | some c => exact exec_of_consumerRefusal hi (by rw [State.consumerRefusal, h]; rfl)

theorem exec_of_no_unit (hi : i.unit? = some c) (h : s.sp.constructed = true)
    (beyond : s.cfg.n ≤ c.toNat) : exec i s = .next (s.refuse .badUnit c) := by
  refine exec_of_consumerRefusal hi ?_
  rw [State.consumerRefusal, if_pos h, if_neg beyond.not_gt]

theorem exec_of_no_channel (hu : i.usesChannel = true) (hi : i.unit? = some c) (served : s.served c)
    (h : (s.chan c).constructed = false) : exec i s = .next (s.refuse .notConstructed c) := by
  refine exec_of_channelRefusal hu hi ?_
  simp only [State.channelRefusal, State.consumerRefusal_served served, h, Bool.false_eq_true,
    if_false]

end

/-- Settles O11: the check that fails, and the refusal it gives. -/
theorem unavailableRefused : Obligations.UnavailableRefused := fun _ _ =>
  ⟨exec_of_no_splitter, fun _ hi constructed => ⟨exec_of_no_unit hi constructed,
    fun inside hu absent => exec_of_no_channel hu hi ⟨constructed, inside⟩ absent⟩⟩

end Sys2Proof.Machine
end

section
/-!
PROOFS. The operations of a channel in operation that are refused, wait or begin the engine's program (spec
R302, R304, R307, R311): for each outcome of LOADX, BLOCK, RUN, BSYNC and FECBIT the next state.
-/

namespace Sys2Proof.Machine

section
variable {s : State} {c : UnitNo} (ready : s.ready c)
include ready

theorem exec_loadx_fits (fits : fitsBlockMax s.cfg s.blkIn.length = true) :
    exec (.loadx c) s = .next ((s.setChan c { s.chan c with x := s.blkIn }).answer .nothing) := by
  simp only [exec, execLoadx, State.channelRefusal_ready ready, fits, if_true]

theorem exec_loadx_tooLong (long : fitsBlockMax s.cfg s.blkIn.length = false) :
    exec (.loadx c) s = .next (s.refuse .blockTooLong c) := by
  simp only [exec, execLoadx, State.channelRefusal_ready ready, long, Bool.false_eq_true, if_false]

theorem exec_block_at_write (atWrite : s.sp.avail c = false) :
    exec (.block c) s = .next (s.refuse .noBlock c) := by
  simp only [exec, execBlock, State.channelRefusal_ready ready, atWrite, Bool.false_eq_true, if_false]

theorem exec_run_avail (avail : s.sp.avail c = true) :
    exec (.run c) s = .next ((s.begin c (passPieces c)).answer .nothing) := by
  simp only [exec, execRun, State.channelRefusal_ready ready, avail, if_true]

theorem exec_run_done (atWrite : s.sp.avail c = false) (done : s.sp.done c = true) :
    exec (.run c) s = .next ((s.endEngine c).answer .terminator) := by
  simp only [exec, execRun, State.channelRefusal_ready ready, atWrite, done, Bool.false_eq_true,
    if_false, if_true]

theorem exec_run_waits (atWrite : s.sp.avail c = false) (more : s.sp.done c = false) :
    exec (.run c) s = .next (s.wait c (.run c)) := by
  simp only [exec, execRun, State.channelRefusal_ready ready, atWrite, more, Bool.false_eq_true,
    if_false]

theorem exec_bsync_empty (empty : (s.chan c).tq = []) :
    exec (.bsync c) s = .next (s.refuse .emptyQueue c) := by
  simp only [exec, execBsync, State.channelRefusal_ready ready, empty, List.isEmpty_nil, if_true]

theorem exec_fecbit_empty (empty : (s.chan c).bq = []) :
    exec (.fecbit c) s = .next (s.refuse .emptyQueue c) := by
  simp only [exec, execFecbit, State.channelRefusal_ready ready, empty, List.isEmpty_nil, if_true]

/-- `BSYNC` on a transition the clock gets past. -/
theorem exec_bsync_takes (queued : (s.chan c).tq ≠ []) {k : Channel}
    (h : bsyncChannel s.cfg (s.chan c) = some k) :
    exec (.bsync c) s = .next ((s.setChan c k).answer .nothing) := by
  obtain ⟨t, rest, hq⟩ := List.exists_cons_of_ne_nil queued
  rw [exec_bsync_ready ready hq, h]

/-- `BSYNC` on a transition the clock is stuck at (spec U53). -/
theorem exec_bsync_stuck (queued : (s.chan c).tq ≠ []) (h : bsyncChannel s.cfg (s.chan c) = none) :
    exec (.bsync c) s = .next (s.wait c (.bsync c)) := by
  obtain ⟨t, rest, hq⟩ := List.exists_cons_of_ne_nil queued
  rw [exec_bsync_ready ready hq, h]

/-- `FECBIT` on the bit that completes a block, while the sink takes no frame (spec R311). -/
theorem exec_fecbit_full (queued : (s.chan c).bq ≠ []) (buffering : (s.chan c).mode = .buffering)
    (last : (s.chan c).outCursor = 575) (full : s.sinkTakes c = false) :
    exec (.fecbit c) s = .next (s.wait c (.fecbit c)) := by
  obtain ⟨v, rest, hq⟩ := List.exists_cons_of_ne_nil queued
  have last' : (s.chan c).outCursor + 1 = 576 := by omega
  have taken := (takeBit_buffering s.cfg c v { s.chan c with bq := rest } buffering).trans
    (bufferStep_last _ _ _ _ last')
  rw [exec_fecbit_takes ready hq taken, finish_waits full]
  rfl

end

/-- An operation that waits stands before what the engine has to do. -/
theorem State.wait_eq {s : State} {c : UnitNo} {todo : List Piece} (h : (s.engine c).todo = todo)
    (i : Instr) : s.wait c i = { s with
      eng := s.eng.set c.toNat { s.engine c with todo := .op i :: todo } c.isLt } := by
  rw [← h]
  rfl

/-- Settles O26: the check of the queue. -/
theorem emptyQueuesRefused : Obligations.EmptyQueuesRefused := fun _ _ ready =>
  ⟨exec_bsync_empty ready, exec_fecbit_empty ready⟩

/-- Settles O48: the check of the length. -/
theorem loadxResult : Obligations.LoadxResult := by
  intro s c ready
  refine ⟨fun bounded => exec_loadx_fits ready ((fitsBlockMax_iff _ _).2 bounded),
    fun m bound long => exec_loadx_tooLong ready (Bool.eq_false_iff.2 fun fits => ?_)⟩
  exact absurd ((fitsBlockMax_iff _ _).1 fits m bound) long.not_ge

/-- Settles O50: the refusal at the write position, and the two waits of the loops. -/
theorem blockRefusedOrWaits : Obligations.BlockRefusedOrWaits := by
  refine ⟨fun s c k ready hk atWrite => exec_block_at_write ready ((Splitter.avail_false_iff hk).2 atWrite),
    fun s c rest ready => ⟨fun todo queued stuck => ?_, fun todo queued buffering last full => ?_⟩⟩
  · rw [engineTurn_drainTq todo queued, exec_bsync_stuck ready queued stuck, State.wait_eq todo]
  · rw [engineTurn_drainBq todo queued, exec_fecbit_full ready queued buffering last full,
      State.wait_eq todo]

/-- Settles O52: the three places of the cursor. -/
theorem runResult : Obligations.RunResult := by
  intro s c k ready hk
  refine ⟨fun before => exec_run_avail ready ((Splitter.avail_iff hk).2 before),
    fun atWrite closed atClose => exec_run_done ready ((Splitter.avail_false_iff hk).2 atWrite)
      ((Splitter.done_iff hk).2 ⟨closed, atClose⟩),
    fun atWrite more => exec_run_waits ready ((Splitter.avail_false_iff hk).2 atWrite)
      ((Splitter.done_false_iff hk).2 more)⟩

end Sys2Proof.Machine
end

section
/-!
PROOFS. A BLOCK taken to its end (spec R303 to R306, R108, R313): each turn of the engine takes one primitive
off its list and acts on the channel alone, so that the turns together are the chain of R304.
-/

namespace Sys2Proof.Machine

/-- Some number of turns of engine `c` leads from `s` to `t`. -/
def Turns (c : UnitNo) (s t : State) : Prop := ∃ n, engineTurns c n s = some t

theorem Turns.refl (c : UnitNo) (s : State) : Turns c s s := ⟨0, rfl⟩

theorem Turns.head {c : UnitNo} {s t u : State} (h : engineTurn c s = .next t) (rest : Turns c t u) :
    Turns c s u := by
  obtain ⟨n, hn⟩ := rest
  exact ⟨n + 1, by simp only [engineTurns, h, hn]⟩

/-! ## A machine in the middle of a BLOCK -/

/-- The machine `s` with the channel `k`, the pieces `todo` left to do and the frames `fs` sent since. -/
def State.during (s : State) (c : UnitNo) (k : Channel) (todo : List Piece) (fs : List Frame) : State :=
  (((s.setChan c k).setEngine c { s.engine c with todo := todo }).send c fs).answer .nothing

section
variable (s : State) (c : UnitNo) (k : Channel) (todo : List Piece) (fs : List Frame)

@[simp] theorem State.during_chan : (s.during c k todo fs).chan c = k := by simp [State.during]

@[simp] theorem State.during_engine :
    (s.during c k todo fs).engine c = { s.engine c with todo := todo } := by simp [State.during]

theorem State.during_ready (served : s.served c) (hk : k.constructed = true) :
    (s.during c k todo fs).ready c := ⟨served, by rwa [State.during_chan]⟩

theorem State.setChan_setChan (k' : Channel) : (s.setChan c k).setChan c k' = s.setChan c k' := by
  simp only [State.setChan, Vector.set_set]

theorem State.setEngine_setEngine (e e' : Engine) :
    (s.setEngine c e).setEngine c e' = s.setEngine c e' := by
  simp only [State.setEngine, Vector.set_set]

/-- A primitive that writes the channel. -/
theorem State.during_setChan (k' : Channel) :
    ((s.during c k todo fs).setChan c k').answer .nothing = s.during c k' todo fs :=
  congrArg (fun u => ((u.setEngine c { s.engine c with todo := todo }).send c fs).answer .nothing)
    (s.setChan_setChan c k k')

/-- A piece taken off the list. -/
theorem State.during_pop (more : List Piece) :
    (s.during c k todo fs).setEngine c { (s.during c k todo fs).engine c with todo := more }
      = s.during c k more fs := by
  rw [State.during_engine]
  exact congrArg (fun u => (u.send c fs).answer .nothing)
    ((s.setChan c k).setEngine_setEngine c { s.engine c with todo := todo } _)

/-- Frames that leave after others. -/
theorem State.send_send (gs : List Frame) : (s.send c fs).send c gs = s.send c (fs ++ gs) := by
  simp only [State.send, frameEvents_append, List.append_assoc]

/-- A primitive that writes the channel and sends frames which the sink takes. -/
theorem State.during_finish (i : Instr) (k' : Channel) {gs : List Frame}
    (taken : gs = [] ∨ s.sinkTakes c = true) :
    (s.during c k todo fs).finish c i k' gs = s.during c k' todo (fs ++ gs) := by
  rcases (s.during c k todo fs).finish_cases c i k' gs with ⟨-, e⟩ | ⟨frames, full, -⟩
  · rw [e]
    calc (((s.during c k todo fs).setChan c k').send c gs).answer .nothing
        = ((((s.during c k todo fs).setChan c k').answer .nothing).send c gs).answer .nothing := rfl
      _ = ((s.during c k' todo fs).send c gs).answer .nothing := by rw [State.during_setChan]
      _ = s.during c k' todo (fs ++ gs) := by
        rw [State.during, State.during, ← State.send_send]
        rfl
  · rcases taken with none | takes
    · exact absurd none frames
    · exact absurd (takes.symm.trans full) Bool.noConfusion

end

/-! ## The turns -/

section
variable {s t : State} {c : UnitNo} {k : Channel} {more : List Piece} {fs : List Frame}

/-- The engine's turn takes the next piece off the list. -/
theorem engineTurn_during (p : Piece) :
    engineTurn c (s.during c k (p :: more) fs) = runPiece c p (s.during c k more fs) := by
  rw [engineTurn_piece (k := p) (more := more) (by rw [State.during_engine]), State.during_pop]

/-- The turn that adds the block's length to `n_total` (spec R305). -/
theorem Turns.advance {len : Nat} (rest : Turns c (s.during c (k.addTotal len) more fs) t) :
    Turns c (s.during c k (.advance len :: more) fs) t := by
  refine .head ?_ rest
  rw [engineTurn_during, runPiece, State.advanceTotal, State.during_chan, State.during_setChan]
  rfl

variable (served : s.served c) (hk : k.constructed = true)
include served hk

/-- A turn that takes a buffer stage (spec R304). -/
theorem Turns.stage {i : Instr} {f : Params → Channel → Channel}
    (hi : ∀ u : State, u.ready c → exec i u = .next ((u.setChan c (f u.cfg (u.chan c))).answer .nothing))
    (rest : Turns c (s.during c (f s.cfg k) more fs) t) :
    Turns c (s.during c k (.op i :: more) fs) t := by
  refine .head ?_ rest
  rw [engineTurn_during, runPiece, hi _ (s.during_ready c k more fs served hk), State.during_setChan,
    State.during_chan]
  rfl

/-- The turns of the loop over `tq`, the last of which finds the queue empty (spec R304). -/
theorem Turns.drainTq {n : Nat} {k' : Channel} (hn : k.tq.length = n)
    (drained : drainTransitions s.cfg n k = some k') (rest : Turns c (s.during c k' more fs) t) :
    Turns c (s.during c k (.drainTq :: more) fs) t := by
  induction n generalizing k with
  | zero =>
    obtain rfl := Option.some_inj.1 drained
    have empty : k.tq = [] := List.length_eq_zero_iff.1 hn
    refine .head ?_ rest
    rw [engineTurn_during, runPiece_drainTq_empty (by rwa [State.during_chan])]
  | succ n ih =>
    rcases bsyncChannel_cases s.cfg k with ⟨hq, -⟩ | ⟨_, _, -, -, hb⟩ | ⟨_, rest', a, bits, hq, -, hb⟩
    · exact absurd hn (by simp [hq])
    · simp [drainTransitions, hb] at drained
    · rw [drainTransitions, hb, Option.bind_some] at drained
      have queued : ((s.during c k (.drainTq :: more) fs).chan c).tq ≠ [] := by
        rw [State.during_chan, hq]
        exact List.cons_ne_nil _ _
      refine .head ?_ (ih (by exact hk) (by simpa [hq] using hn) drained)
      rw [engineTurn_drainTq (by rw [State.during_engine]) queued,
        exec_bsync_takes (s.during_ready c k _ fs served hk) queued (by rw [State.during_chan]; exact hb),
        State.during_setChan]

/-- The turns of the loop over `bq`, whose frames the sink takes (spec R304, R311). -/
theorem Turns.drainBq {n : Nat} (hn : k.bq.length = n)
    (taken : (drainBits s.cfg c n k).2 = [] ∨ s.sinkTakes c = true)
    (rest : Turns c (s.during c (drainBits s.cfg c n k).1 more (fs ++ (drainBits s.cfg c n k).2)) t) :
    Turns c (s.during c k (.drainBq :: more) fs) t := by
  induction n generalizing k fs with
  | zero =>
    have empty : k.bq = [] := List.length_eq_zero_iff.1 hn
    rw [drainBits_zero, List.append_nil] at rest
    refine .head ?_ rest
    rw [engineTurn_during, runPiece_drainBq_empty (by rwa [State.during_chan])]
  | succ n ih =>
    obtain ⟨v, rest', hq⟩ := List.exists_cons_of_length_eq_add_one hn
    obtain ⟨_, _, _, _, _, frame⟩ := takeBit_frame s.cfg c v { k with bq := rest' }
    rw [← fecbitChannel_cons s.cfg c v k hq] at frame
    rw [drainBits_succ] at taken rest
    have turn : engineTurn c (s.during c k (.drainBq :: more) fs)
        = .next (s.during c (fecbitChannel s.cfg c k).1 (.drainBq :: more)
            (fs ++ (fecbitChannel s.cfg c k).2)) := by
      have queued : ((s.during c k (.drainBq :: more) fs).chan c).bq = v :: rest' := by
        rw [State.during_chan, hq]
      have taken' : (fecbitChannel s.cfg c k).2 = [] ∨ s.sinkTakes c = true :=
        taken.imp_left fun none => (List.append_eq_nil_iff.1 none).1
      rw [engineTurn_drainBq (by rw [State.during_engine]) (by rw [queued]; exact List.cons_ne_nil _ _),
        exec_fecbit_ready (s.during_ready c k _ fs served hk) queued, State.during_chan]
      exact congrArg _ (s.during_finish c k _ fs _ _ taken')
    refine .head turn (ih ?_ ?_ (taken.imp_left fun none => (List.append_eq_nil_iff.1 none).2) ?_)
    · rw [frame]
      exact hk
    · rw [frame]
      simpa [hq] using hn
    · rw [List.append_assoc]
      exact rest

/-- The turns that take the four buffer stages (spec R304). -/
theorem Turns.frontEnd {blk : Block}
    (rest : Turns c (s.during c (frontEnd s.cfg blk k) more fs) t) :
    Turns c (s.during c { k with x := blk }
      (.op (.shift c) :: .op (.lpf c) :: .op (.disc c) :: .op (.extr c) :: more) fs) t := by
  refine .stage served (by exact hk) (fun _ => exec_shift_ready) ?_
  refine .stage served (by exact hk) (fun _ => exec_lpf_ready) ?_
  refine .stage served (by exact hk) (fun _ => exec_disc_ready) ?_
  exact .stage (f := fun _ => extrChannel) served (by exact hk) (fun _ => exec_extr_ready) rest

/-- The pieces of a BLOCK, one after the other, are the chain (spec R304). -/
theorem Turns.blockPieces {blk : Block} {r : Channel × List Frame}
    (processed : processBlock s.cfg c blk k = some r) (taken : r.2 = [] ∨ s.sinkTakes c = true) :
    Turns c (s.during c { k with x := blk } (blockPieces c blk.length ++ more) [])
      (s.during c r.1 more r.2) := by
  rw [processBlock_drains, Option.map_eq_some_iff] at processed
  obtain ⟨k2, drained, rfl⟩ := processed
  obtain ⟨_, _, _, clocked⟩ := drainTransitions_frame _ _ _ _ drained
  have front : (Machine.frontEnd s.cfg blk k).constructed = true := by
    rw [frontEnd_eq]
    exact hk
  have hk2 : k2.constructed = true := by
    rw [clocked]
    exact front
  have counted := Turns.advance (.refl c
    (s.during c ((drainBits s.cfg c k2.bq.length k2).1.addTotal blk.length) more
      (drainBits s.cfg c k2.bq.length k2).2))
  exact .frontEnd served hk (.drainTq served front rfl drained (.drainBq served hk2 rfl taken counted))

end

/-! ## BLOCK -/

section
variable {s : State} {c : UnitNo}

theorem frameEvents_eq_flatMap (c : UnitNo) (fs : List Frame) :
    frameEvents c fs = fs.flatMap fun f => if f.crcMatch then [] else [eventWord .crcFail c] := by
  induction fs with
  | nil => rfl
  | cons f fs ih =>
    rw [← List.singleton_append, frameEvents_append, frameEvents_single, ih]
    rfl

/-- A machine in the middle of a BLOCK whose engine's list is as before it. -/
theorem State.during_done (s : State) (c : UnitNo) (k : Channel) (fs : List Frame) :
    s.during c k (s.engine c).todo fs = { s with
      ch := s.ch.set c.toNat k c.isLt
      sink := s.sink ++ fs
      status := s.status ++ fs.flatMap fun f => if f.crcMatch then [] else [eventWord .crcFail c]
      rsp := .nothing } := by
  have same : s.eng.set c.toNat { s.engine c with todo := (s.engine c).todo } c.isLt = s.eng :=
    Vector.set_getElem_self c.isLt
  rw [← frameEvents_eq_flatMap]
  simp only [State.during, State.setEngine, State.setChan_eng, same]
  rfl

/-- The first step of `BLOCK c` copies the block and leaves its primitives to do (spec R303). -/
theorem exec_block_copies (ready : s.ready c) (avail : s.sp.avail c = true) {blk : Block}
    (held : s.sp.blockAt c = blk) :
    exec (.block c) s = .next (s.during c { s.chan c with x := blk }
      (blockPieces c blk.length ++ (s.engine c).todo) []) := by
  rw [exec_block_ready ready avail, held]
  simp only [State.during, State.send, frameEvents_nil, List.append_nil]
  rfl

/-- After a block both queues are empty, and its samples are counted (spec R304, R305). -/
theorem processBlock_ends {cfg : Params} {blk : Block} {k : Channel} {r : Channel × List Frame}
    (h : processBlock cfg c blk k = some r) :
    r.1.tq = [] ∧ r.1.bq = [] ∧ r.1.nTotal = k.nTotal + blk.length := by
  rw [processBlock_eq, Option.map_eq_some_iff] at h
  obtain ⟨q, -, rfl⟩ := h
  simp only [Channel.resume, Channel.addTotal, Channel.withFec, frontEnd_eq, and_self]

end

/-- Settles O49: the copy, and then the pieces of the BLOCK by their turns. -/
theorem blockIsChain : Obligations.BlockIsChain := by
  intro s c k blk ready hk before hb
  have avail := (Splitter.avail_iff hk).2 before
  have held := Splitter.blockAt_eq hk hb
  refine ⟨?_, fun r processed taken => ?_⟩
  · rw [exec_block_ready ready avail, held]
    rfl
  · obtain ⟨tq, bq, total⟩ := processBlock_ends processed
    obtain ⟨n, turns⟩ := Turns.blockPieces ready.1 ready.2 processed taken (more := (s.engine c).todo)
    rw [State.during_done] at turns
    exact ⟨tq, bq, total, n, _, exec_block_copies ready avail held, turns⟩

end Sys2Proof.Machine
end

section
/-!
PROOFS. Nothing is fatal, and no step changes a construction parameter (spec R342, R345, R371): every
operation, and every turn of an agent, answers a next state with the parameters as they were.
-/

namespace Sys2Proof.Machine

/-- The answer is a next state with the parameters `cfg`. -/
def Answers (cfg : Params) (r : Result) : Prop := ∃ t, r = .next t ∧ t.cfg = cfg

theorem Answers.next {cfg : Params} {t : State} (h : t.cfg = cfg) : Answers cfg (.next t) :=
  ⟨t, rfl, h⟩

/-! ## The shared operations -/

section
variable (s : State)

theorem State.pushBlock_cfg (blk : Block) : (s.pushBlock blk).cfg = s.cfg := by
  rcases s.pushBlock_cases blk with ⟨-, h⟩ | ⟨-, -, h⟩ | ⟨-, -, -, h⟩ | ⟨-, -, -, -, h⟩ |
    ⟨-, -, -, -, h⟩ <;> rw [h] <;> rfl

theorem State.closeStream_cfg : s.closeStream.cfg = s.cfg := by
  rcases s.closeStream_cases with ⟨-, h⟩ | ⟨-, h⟩ <;> rw [h]
  rfl

theorem State.pushHeld_cfg : s.pushHeld.cfg = s.cfg := by
  rcases s.pushHeld_eq with h | ⟨blk, stopped, r, -, h⟩ <;> rw [h]
  exact (s.setProducer _).pushBlock_cfg blk

theorem State.pumpRead_cfg : s.pumpRead.cfg = s.cfg := by
  rcases pumpRead_cases s with ⟨-, h⟩ | ⟨-, -, h⟩ | ⟨-, -, -, h⟩ | ⟨-, -, -, h⟩ <;> rw [h]
  · rfl
  · rw [pumpClosed_eq]
  · exact s.closeStream_cfg
  · rfl

theorem State.finish_cfg (c : UnitNo) (i : Instr) (k : Channel) (fs : List Frame) :
    (s.finish c i k fs).cfg = s.cfg := by
  rcases s.finish_cases c i k fs with ⟨-, h⟩ | ⟨-, -, h⟩ <;> rw [h] <;> rfl

theorem State.guarded_answers (e : Option Event) (u : UnitNo) {act : State} (h : act.cfg = s.cfg) :
    Answers s.cfg (s.guarded e u act) := by
  rcases s.guarded_cases e u act with ⟨e, -, eq⟩ | ⟨-, eq⟩ <;> rw [eq]
  · exact .next rfl
  · exact .next h

theorem State.served_or_refused (c : UnitNo) : s.served c ∨ ∃ e, s.consumerRefusal c = some e := by
  rcases s.consumerRefusal_cases c with ⟨-, h⟩ | ⟨-, -, h⟩ | ⟨served, -⟩
  · exact .inr ⟨_, h⟩
  · exact .inr ⟨_, h⟩
  · exact .inl served

theorem State.ready_or_refused (c : UnitNo) : s.ready c ∨ ∃ e, s.channelRefusal c = some e :=
  (s.channelRefusal_cases c).symm.imp_left And.left

end

/-! ## The operations -/

section
variable {s : State} {c : UnitNo}

theorem exec_chinit_answers (served : s.served c) : Answers s.cfg (exec (.chinit c) s) := by
  cases legal : channelLegal s.cfg c with
  | false => exact ⟨_, exec_chinit_illegal served legal, rfl⟩
  | true => exact ⟨_, exec_chinit_legal served legal, rfl⟩

theorem exec_get_answers (served : s.served c) : Answers s.cfg (exec (.get c) s) := by
  cases avail : s.sp.avail c with
  | true => exact ⟨_, exec_get_avail served avail, rfl⟩
  | false =>
    cases done : s.sp.done c with
    | true => exact ⟨_, exec_get_done served avail done, rfl⟩
    | false => exact ⟨_, exec_get_waits served avail done, rfl⟩

theorem exec_next_answers (served : s.served c) : Answers s.cfg (exec (.next c) s) := by
  cases avail : s.sp.avail c with
  | true => exact ⟨_, exec_next_avail served avail, rfl⟩
  | false => exact ⟨_, exec_next_at_write served avail, rfl⟩

theorem exec_bsync_answers (ready : s.ready c) : Answers s.cfg (exec (.bsync c) s) := by
  by_cases empty : (s.chan c).tq = []
  · exact ⟨_, exec_bsync_empty ready empty, rfl⟩
  · cases taken : bsyncChannel s.cfg (s.chan c) with
    | none => exact ⟨_, exec_bsync_stuck ready empty taken, rfl⟩
    | some k => exact ⟨_, exec_bsync_takes ready empty taken, rfl⟩

theorem exec_fecbit_answers (ready : s.ready c) : Answers s.cfg (exec (.fecbit c) s) := by
  cases hq : (s.chan c).bq with
  | nil => exact ⟨_, exec_fecbit_empty ready hq, rfl⟩
  | cons v rest => exact ⟨_, exec_fecbit_ready ready hq, s.finish_cfg ..⟩

theorem exec_loadx_answers (ready : s.ready c) : Answers s.cfg (exec (.loadx c) s) := by
  cases fits : fitsBlockMax s.cfg s.blkIn.length with
  | true => exact ⟨_, exec_loadx_fits ready fits, rfl⟩
  | false => exact ⟨_, exec_loadx_tooLong ready fits, rfl⟩

theorem exec_block_answers (ready : s.ready c) : Answers s.cfg (exec (.block c) s) := by
  cases avail : s.sp.avail c with
  | true => exact ⟨_, exec_block_ready ready avail, rfl⟩
  | false => exact ⟨_, exec_block_at_write ready avail, rfl⟩

theorem exec_run_answers (ready : s.ready c) : Answers s.cfg (exec (.run c) s) := by
  cases avail : s.sp.avail c with
  | true => exact ⟨_, exec_run_avail ready avail, rfl⟩
  | false =>
    cases done : s.sp.done c with
    | true => exact ⟨_, exec_run_done ready avail done, rfl⟩
    | false => exact ⟨_, exec_run_waits ready avail done, rfl⟩

/-- An operation on a channel answers once it does on a channel in operation. -/
theorem answers_of_ready {i : Instr} (hu : i.usesChannel = true) (hi : i.unit? = some c)
    (h : s.ready c → Answers s.cfg (exec i s)) : Answers s.cfg (exec i s) := by
  rcases s.ready_or_refused c with ready | ⟨e, refused⟩
  · exact h ready
  · exact ⟨_, exec_of_channelRefusal hu hi refused, rfl⟩

/-- An operation with a unit answers once it does for a consumer of the Splitter. -/
theorem answers_of_served {i : Instr} (hi : i.unit? = some c)
    (h : s.served c → Answers s.cfg (exec i s)) : Answers s.cfg (exec i s) := by
  rcases s.served_or_refused c with served | ⟨e, refused⟩
  · exact h served
  · exact ⟨_, exec_of_consumerRefusal hi refused, rfl⟩

theorem exec_answers (i : Instr) (s : State) : Answers s.cfg (exec i s) := by
  cases i with
  | spinit =>
    cases legal : splitterLegal s.cfg with
    | false => exact ⟨_, exec_spinit_illegal legal, rfl⟩
    | true => exact ⟨_, exec_spinit_legal legal, rfl⟩
  | chinit c => exact answers_of_served rfl exec_chinit_answers
  | push => exact s.guarded_answers _ _ (s.pushBlock_cfg _)
  | get c => exact answers_of_served rfl exec_get_answers
  | next c => exact answers_of_served rfl exec_next_answers
  | close => exact s.guarded_answers _ _ s.closeStream_cfg
  | shift c | lpf c | disc c | extr c => exact s.guarded_answers _ _ rfl
  | bsync c => exact answers_of_ready rfl rfl exec_bsync_answers
  | fecbit c => exact answers_of_ready rfl rfl exec_fecbit_answers
  | fecdec c => exact s.guarded_answers _ _ (s.finish_cfg ..)
  | loadx c => exact answers_of_ready rfl rfl exec_loadx_answers
  | block c => exact answers_of_ready rfl rfl exec_block_answers
  | run c => exact answers_of_ready rfl rfl exec_run_answers
  | pump => exact s.guarded_answers _ _ (s.pushHeld.pumpRead_cfg.trans s.pushHeld_cfg)

end

/-! ## The turns of the agents (spec R86) -/

section
variable (s : State)

theorem runPiece_answers (c : UnitNo) (k : Piece) : Answers s.cfg (runPiece c k s) := by
  cases k with
  | op i => exact exec_answers i s
  | drainTq =>
    by_cases empty : (s.chan c).tq = []
    · rw [runPiece_drainTq_empty empty]
      exact .next rfl
    · rw [runPiece, if_neg (by simpa using empty)]
      exact exec_answers _ (s.begin c [.drainTq])
  | drainBq =>
    by_cases empty : (s.chan c).bq = []
    · rw [runPiece_drainBq_empty empty]
      exact .next rfl
    · rw [runPiece, if_neg (by simpa using empty)]
      exact exec_answers _ (s.begin c [.drainBq])
  | advance len => exact .next rfl

theorem engineTurn_answers (c : UnitNo) : Answers s.cfg (engineTurn c s) := by
  rcases engineTurn_cases c s with ⟨-, h⟩ | ⟨k, rest, -, h⟩ <;> rw [h]
  · exact .next rfl
  · exact runPiece_answers (s.setEngine c { s.engine c with todo := rest }) c k

theorem offer_answers (i : Instr) : Answers s.cfg (offer i s) := by
  rcases offer_cases i s with ⟨c, -, -, h⟩ | ⟨c, -, -, h⟩ | ⟨-, h⟩ | ⟨-, -, h⟩ <;> rw [h]
  · exact exec_answers i s
  · exact .next rfl
  · rw [← s.pushHeld_cfg]
    exact exec_answers .push s.pushHeld
  · exact exec_answers i s

theorem runWord_answers (w : Word16) : Answers s.cfg (runWord w s) := by
  cases hw : decodeWord w with
  | ok i =>
    rw [runWord, hw]
    exact offer_answers s i
  | badOp u =>
    rw [runWord_badOp hw]
    exact .next rfl
  | badUnit u =>
    rw [runWord_badUnit hw]
    exact .next rfl

theorem takeTurn_answers (u : Turn) : Answers s.cfg (takeTurn u s) := by
  cases u with
  | word w blk rd => exact runWord_answers (s.present blk rd) w
  | engine c => exact engineTurn_answers s c
  | producer => exact .next s.pushHeld_cfg
  | stop => exact exec_answers .close s
  | sink c ready => exact .next rfl

theorem step_answers : Answers s.cfg (step s) := by
  cases turns : s.turns with
  | nil =>
    rw [step, turns]
    exact .next rfl
  | cons u rest =>
    rw [step_turn turns]
    exact takeTurn_answers (s.setTurns rest) u

end

theorem Answers.cfg_eq {cfg : Params} {r : Result} {t : State} (h : Answers cfg r) (ht : r = .next t) :
    t.cfg = cfg := by
  obtain ⟨u, hu, kept⟩ := h
  obtain rfl := Host.Outcome.next.inj (hu.symm.trans ht)
  exact kept

/-- Settles O7, by cases on the operation and on the turn. -/
theorem nothingIsFatal : Obligations.NothingIsFatal :=
  ⟨fun i s => (exec_answers i s).imp fun _ => And.left, fun s => (step_answers s).imp fun _ => And.left⟩

end Sys2Proof.Machine
end

section
/-!
PROOFS. What construction fixes (spec R371, R47, R90): the number of consumers, and the constants of a
channel, at every atomic step but the construction of their unit.
-/

namespace Sys2Proof.Machine

/-- What the construction of a channel computes from the parameters (spec R131, R134, R166). -/
def Channel.constants (k : Channel) : List Cplx × Nat × Nat × Rotation × Datum × Nat :=
  (k.osc, k.tLen, k.rep, k.sgn, k.frac, k.hlen)

/-- The constants, one by one. -/
theorem Channel.constants_eq_iff (k k' : Channel) : k'.constants = k.constants ↔
    k'.osc = k.osc ∧ k'.tLen = k.tLen ∧ k'.rep = k.rep ∧ k'.sgn = k.sgn ∧ k'.frac = k.frac ∧
      k'.hlen = k.hlen := by
  simp only [Channel.constants, Prod.mk.injEq]

/-- From `s` to `t` nothing changed that a construction fixes. -/
structure State.Fixed (s t : State) : Prop where
  consumers : t.sp.cursor.length = s.sp.cursor.length
  constants : ∀ d, (t.chan d).constants = (s.chan d).constants

namespace State.Fixed

theorem refl (s : State) : s.Fixed s := ⟨rfl, fun _ => rfl⟩

theorem trans {s t u : State} (h : s.Fixed t) (h' : t.Fixed u) : s.Fixed u where
  consumers := h'.consumers.trans h.consumers
  constants := fun d => (h'.constants d).trans (h.constants d)

section
variable {s t : State} {c : UnitNo}

theorem answer (h : s.Fixed t) (r : Response) : s.Fixed (t.answer r) := ⟨h.consumers, h.constants⟩

/-- A step that writes no channel. -/
theorem of_ch_eq (consumers : t.sp.cursor.length = s.sp.cursor.length) (ch : t.ch = s.ch) :
    s.Fixed t :=
  ⟨consumers, fun d => by rw [State.chan, State.chan, ch]⟩

/-- A step that writes one channel, but not its constants. -/
theorem of_chan {k : Channel} (sp : t.sp = s.sp) (ch : t.ch = (s.setChan c k).ch)
    (hk : k.constants = (s.chan c).constants) : s.Fixed t where
  consumers := by rw [sp]
  constants := fun d => by
    have same : t.chan d = (s.setChan c k).chan d := by rw [State.chan, State.chan, ch]
    rw [same]
    by_cases own : d = c
    · rw [own, State.setChan_chan_self, hk]
    · rw [State.setChan_chan_ne _ _ _ _ own]

theorem finish (i : Instr) {k : Channel} (hk : k.constants = (s.chan c).constants)
    (fs : List Frame) : s.Fixed (s.finish c i k fs) := by
  rcases s.finish_cases c i k fs with ⟨-, h⟩ | ⟨-, -, h⟩ <;> rw [h]
  · exact of_chan rfl rfl hk
  · exact of_ch_eq rfl rfl

theorem pushBlock (blk : Block) : s.Fixed (s.pushBlock blk) := by
  rcases s.pushBlock_cases blk with ⟨-, h⟩ | ⟨-, -, h⟩ | ⟨-, -, -, h⟩ | ⟨-, -, -, -, h⟩ |
    ⟨-, -, -, -, h⟩ <;> rw [h] <;> exact of_ch_eq rfl rfl

theorem closeStream : s.Fixed s.closeStream := by
  rcases s.closeStream_cases with ⟨-, h⟩ | ⟨-, h⟩ <;> rw [h]
  · exact .refl s
  · exact of_ch_eq rfl rfl

theorem advance : s.Fixed (s.setSplitter (s.sp.advance c)) :=
  of_ch_eq List.length_set rfl

theorem pushHeld : s.Fixed s.pushHeld := by
  rcases s.pushHeld_eq with h | ⟨blk, stopped, r, -, h⟩ <;> rw [h]
  · exact .refl s
  · have pushed := pushBlock (s := s.setProducer { s.prod with held := none }) blk
    exact ⟨pushed.consumers, pushed.constants⟩

theorem pumpRead : s.Fixed s.pumpRead := by
  rcases pumpRead_cases s with ⟨-, h⟩ | ⟨-, -, h⟩ | ⟨-, -, -, h⟩ | ⟨-, -, -, h⟩ <;> rw [h]
  · exact of_ch_eq rfl rfl
  · rw [pumpClosed_eq]
    exact of_ch_eq rfl rfl
  · exact ⟨closeStream.consumers, closeStream.constants⟩
  · exact of_ch_eq rfl rfl

end

end State.Fixed

/-! ## The stages leave the constants alone -/

theorem bsyncChannel_constants {cfg : Params} {k k' : Channel} (h : bsyncChannel cfg k = some k') :
    k'.constants = k.constants := by
  rcases bsyncChannel_cases cfg k with ⟨-, e⟩ | ⟨_, _, -, -, e⟩ | ⟨_, _, _, _, -, -, e⟩
  · rw [Option.some.inj (h.symm.trans e)]
  · exact absurd (h.symm.trans e) nofun
  · rw [Option.some.inj (h.symm.trans e)]
    rfl

theorem fecbitChannel_constants (cfg : Params) (c : UnitNo) (k : Channel) :
    (fecbitChannel cfg c k).1.constants = k.constants := by
  cases hq : k.bq with
  | nil => simp only [fecbitChannel, hq]
  | cons v rest =>
    obtain ⟨_, _, _, _, _, frame⟩ := takeBit_frame cfg c v { k with bq := rest }
    rw [fecbitChannel_cons _ _ _ _ hq, frame]
    rfl

theorem fecdecChannel_constants (cfg : Params) (c : UnitNo) (k : Channel) :
    (fecdecChannel cfg c k).1.constants = k.constants := by
  simp only [Channel.constants, fecdecChannel_osc, fecdecChannel_tLen, fecdecChannel_rep,
    fecdecChannel_sgn, fecdecChannel_frac, fecdecChannel_hlen]

/-! ## The operations -/

section
variable {i : Instr} {s t : State} {c : UnitNo}

/-- A stage operation keeps what its stage keeps. -/
theorem onChannel_fixed {f : Channel → Channel}
    (hf : (f (s.chan c)).constants = (s.chan c).constants) (h : s.onChannel c f = .next t) :
    s.Fixed t := by
  rcases onChannel_cases h with ⟨e, rfl⟩ | ⟨-, rfl⟩
  · exact .of_ch_eq rfl rfl
  · exact .of_chan rfl rfl hf

/-- An operation that constructs nothing. -/
theorem exec_fixed (hsp : i ≠ .spinit) (hch : ∀ c, i ≠ .chinit c) (h : exec i s = .next t) :
    s.Fixed t := by
  cases i with
  | spinit => exact absurd rfl hsp
  | chinit c => exact absurd rfl (hch c)
  | push =>
    rcases push_cases h with rfl | ⟨-, rfl⟩
    · exact .of_ch_eq rfl rfl
    · exact .pushBlock _
  | get c =>
    rcases get_cases h with ⟨e, rfl⟩ | ⟨-, -, rfl⟩ | ⟨-, -, -, rfl⟩ | ⟨-, -, -, rfl⟩ <;>
      exact .of_ch_eq rfl rfl
  | next c =>
    rcases next_cases h with ⟨e, rfl⟩ | ⟨-, -, rfl⟩
    · exact .of_ch_eq rfl rfl
    · exact State.Fixed.advance.answer _
  | close =>
    rcases close_cases h with rfl | ⟨-, rfl⟩
    · exact .of_ch_eq rfl rfl
    · exact State.Fixed.closeStream.answer _
  | shift c | lpf c | disc c | extr c => exact onChannel_fixed rfl h
  | bsync c =>
    rcases bsync_cases h with ⟨e, rfl⟩ | ⟨-, -, rfl⟩ | ⟨-, k, hk, rfl⟩
    · exact .of_ch_eq rfl rfl
    · exact .of_ch_eq rfl rfl
    · exact .of_chan rfl rfl (bsyncChannel_constants hk)
  | fecbit c =>
    rcases fecbit_cases h with ⟨e, rfl⟩ | ⟨-, -, rfl⟩
    · exact .of_ch_eq rfl rfl
    · exact .finish _ (fecbitChannel_constants _ _ _) _
  | fecdec c =>
    rcases fecdec_cases h with ⟨e, rfl⟩ | ⟨-, rfl⟩
    · exact .of_ch_eq rfl rfl
    · exact .finish _ (fecdecChannel_constants _ _ _) _
  | loadx c =>
    rcases loadx_cases h with ⟨e, rfl⟩ | ⟨-, -, rfl⟩
    · exact .of_ch_eq rfl rfl
    · exact .of_chan (k := { s.chan c with x := s.blkIn }) rfl rfl rfl
  | block c =>
    rcases block_cases h with ⟨e, rfl⟩ | ⟨-, -, rfl⟩
    · exact .of_ch_eq rfl rfl
    · exact .of_chan (k := { s.chan c with x := s.sp.blockAt c }) rfl rfl rfl
  | run c =>
    rcases run_cases h with ⟨e, rfl⟩ | ⟨-, -, rfl⟩ | ⟨-, -, -, rfl⟩ | ⟨-, -, -, rfl⟩ <;>
      exact .of_ch_eq rfl rfl
  | pump =>
    rcases pump_cases h with rfl | ⟨-, rfl⟩
    · exact .of_ch_eq rfl rfl
    · exact State.Fixed.pushHeld.trans .pumpRead

theorem runPiece_fixed {k : Piece} (hk : ∀ i, k ≠ .op i) (h : runPiece c k s = .next t) :
    s.Fixed t := by
  rcases runPiece_cases h with ⟨i, op, -⟩ | ⟨-, -, rfl⟩ | ⟨-, -, h⟩ | ⟨-, -, rfl⟩ | ⟨-, -, h⟩ |
    ⟨len, -, rfl⟩
  · exact absurd op (hk i)
  · exact .refl _
  · have kept := exec_fixed (i := .bsync c) nofun nofun h
    exact ⟨kept.consumers, kept.constants⟩
  · exact .refl _
  · have kept := exec_fixed (i := .fecbit c) nofun nofun h
    exact ⟨kept.consumers, kept.constants⟩
  · exact .of_chan (k := (s.chan c).addTotal len) rfl rfl rfl

/-- An atomic step constructs a unit, or changes nothing that a construction fixes. -/
theorem atomicStep_constructs_or_fixed {allowed : Instr → Prop} (h : atomicStep allowed s t) :
    (allowed .spinit ∧ exec .spinit s = .next t) ∨
    (∃ c, allowed (.chinit c) ∧ exec (.chinit c) s = .next t) ∨ s.Fixed t := by
  rcases h with ⟨i, hi, h⟩ | h | ⟨c, k, hk, h⟩
  · by_cases sp : i = .spinit
    · subst sp
      exact .inl ⟨hi, h⟩
    · by_cases ch : ∃ c, i = .chinit c
      · obtain ⟨c, rfl⟩ := ch
        exact .inr (.inl ⟨c, hi, h⟩)
      · exact .inr (.inr (exec_fixed sp (not_exists.1 ch) h))
  · obtain rfl := Host.Outcome.next.inj h
    exact .inr (.inr .pushHeld)
  · exact .inr (.inr (runPiece_fixed hk h))

/-- Only `SPINIT` changes the number of consumers (spec R371). -/
theorem consumers_kept (h : atomicStep (· ≠ .spinit) s t) :
    t.sp.cursor.length = s.sp.cursor.length := by
  rcases atomicStep_constructs_or_fixed h with ⟨not, -⟩ | ⟨c, -, h⟩ | kept
  · exact absurd rfl not
  · obtain ⟨-, same, -⟩ := chinit_keeps h
    rw [same]
  · exact kept.consumers

/-- Only `CHINIT c` changes the constants of channel `c` (spec R371). -/
theorem constants_kept (h : atomicStep (· ≠ .chinit c) s t) :
    (t.chan c).constants = (s.chan c).constants := by
  rcases atomicStep_constructs_or_fixed h with ⟨-, h⟩ | ⟨d, other, h⟩ | kept
  · obtain ⟨-, same⟩ := spinit_keeps h
    rw [State.chan, State.chan, same]
  · obtain ⟨-, -, others⟩ := chinit_keeps h
    rw [others c fun own => other (own ▸ rfl)]
  · exact kept.constants c

end

/-- Settles O8: the parameters by cases on the turn, the constants by cases on the atomic step. -/
theorem configurationFixed : Obligations.ConfigurationFixed :=
  ⟨fun s _ h => (step_answers s).cfg_eq h, fun _ _ => consumers_kept,
    fun s t c h => (Channel.constants_eq_iff (s.chan c) (t.chan c)).1 (constants_kept h)⟩

end Sys2Proof.Machine
end

section
/-!
PROOFS. What an operation of channel `c` reads (spec R314, R315, R20): on two states that agree on the
channel, its engine, the Splitter and the inputs it has the same effect, whatever the other channels hold.
-/

namespace Sys2Proof.Machine

/-- The two states agree on all that an operation of unit `c` reads. -/
structure State.Agree (c : UnitNo) (s₁ s₂ : State) : Prop where
  cfg : s₁.cfg = s₂.cfg
  sp : s₁.sp = s₂.sp
  chan : s₁.chan c = s₂.chan c
  engine : s₁.engine c = s₂.engine c
  sinkTakes : s₁.sinkTakes c = s₂.sinkTakes c
  blkIn : s₁.blkIn = s₂.blkIn
  free : s₁.free = s₂.free

/-- From `s₁` to `t₁` and from `s₂` to `t₂` the same happened to the Splitter and to unit `c`, and the same
went out. -/
structure State.SameEffect (c : UnitNo) (s₁ s₂ t₁ t₂ : State) : Prop where
  sp : t₁.sp = t₂.sp
  chan : t₁.chan c = t₂.chan c
  engine : t₁.engine c = t₂.engine c
  outputs : ∃ frames words, t₁.sink = s₁.sink ++ frames ∧ t₂.sink = s₂.sink ++ frames ∧
    t₁.status = s₁.status ++ words ∧ t₂.status = s₂.status ++ words

/-! ## The operations on the state -/

namespace State.SameEffect

variable {c : UnitNo} {s₁ s₂ t₁ t₂ : State}

theorem of_agree (h : s₁.Agree c s₂) : SameEffect c s₁ s₂ s₁ s₂ :=
  ⟨h.sp, h.chan, h.engine, [], [], by simp only [List.append_nil, and_self]⟩

section
variable (h : SameEffect c s₁ s₂ t₁ t₂)
include h

theorem answer (r₁ r₂ : Response) : SameEffect c s₁ s₂ (t₁.answer r₁) (t₂.answer r₂) :=
  ⟨h.sp, h.chan, h.engine, h.outputs⟩

theorem send (fs : List Frame) : SameEffect c s₁ s₂ (t₁.send c fs) (t₂.send c fs) where
  sp := h.sp
  chan := h.chan
  engine := h.engine
  outputs := by
    obtain ⟨frames, words, sink₁, sink₂, status₁, status₂⟩ := h.outputs
    refine ⟨frames ++ fs, words ++ frameEvents c fs, ?_⟩
    simp only [State.send_sink, State.send_status, sink₁, sink₂, status₁, status₂, List.append_assoc,
      and_self]

theorem raise (e : Event) (u : UnitNo) : SameEffect c s₁ s₂ (t₁.raise e u) (t₂.raise e u) where
  sp := h.sp
  chan := h.chan
  engine := h.engine
  outputs := by
    obtain ⟨frames, words, sink₁, sink₂, status₁, status₂⟩ := h.outputs
    refine ⟨frames, words ++ [eventWord e u], sink₁, sink₂, ?_⟩
    simp only [State.raise_status, status₁, status₂, List.append_assoc, and_self]

theorem refuse (e : Event) (u : UnitNo) : SameEffect c s₁ s₂ (t₁.refuse e u) (t₂.refuse e u) :=
  (h.raise e u).answer _ _

theorem setSplitter {sp₁ sp₂ : Splitter} (same : sp₁ = sp₂) :
    SameEffect c s₁ s₂ (t₁.setSplitter sp₁) (t₂.setSplitter sp₂) :=
  ⟨same, h.chan, h.engine, h.outputs⟩

theorem setChan {k₁ k₂ : Channel} (same : k₁ = k₂) :
    SameEffect c s₁ s₂ (t₁.setChan c k₁) (t₂.setChan c k₂) :=
  ⟨h.sp, by rw [State.setChan_chan_self, State.setChan_chan_self, same], h.engine, h.outputs⟩

theorem begin {ts₁ ts₂ : List Piece} (same : ts₁ = ts₂) :
    SameEffect c s₁ s₂ (t₁.begin c ts₁) (t₂.begin c ts₂) :=
  ⟨h.sp, h.chan, by rw [State.begin_engine_self, State.begin_engine_self, same, h.engine], h.outputs⟩

theorem wait (i : Instr) : SameEffect c s₁ s₂ (t₁.wait c i) (t₂.wait c i) := h.begin rfl

theorem endEngine : SameEffect c s₁ s₂ (t₁.endEngine c) (t₂.endEngine c) :=
  ⟨h.sp, h.chan, by rw [State.endEngine_engine_self, State.endEngine_engine_self, h.engine], h.outputs⟩

end

end State.SameEffect

namespace State.Agree

variable {c : UnitNo} {s₁ s₂ : State} (h : s₁.Agree c s₂)
include h

theorem served (served : s₁.served c) : s₂.served c := by
  rwa [State.served, ← h.sp, ← h.cfg]

theorem ready (ready : s₁.ready c) : s₂.ready c :=
  ⟨h.served ready.1, h.chan ▸ ready.2⟩

theorem consumerRefusal : s₁.consumerRefusal c = s₂.consumerRefusal c := by
  rw [State.consumerRefusal, State.consumerRefusal, h.sp, h.cfg]

theorem channelRefusal : s₁.channelRefusal c = s₂.channelRefusal c := by
  simp only [State.channelRefusal, h.consumerRefusal, h.chan]

/-- A function of the parameters and the channel. -/
theorem apply {α : Type} (f : Params → Channel → α) : f s₁.cfg (s₁.chan c) = f s₂.cfg (s₂.chan c) := by
  rw [h.cfg, h.chan]

theorem finish (i : Instr) {k₁ k₂ : Channel} {fs₁ fs₂ : List Frame} (same : (k₁, fs₁) = (k₂, fs₂)) :
    State.SameEffect c s₁ s₂ (s₁.finish c i k₁ fs₁) (s₂.finish c i k₂ fs₂) := by
  obtain ⟨rfl, rfl⟩ := Prod.mk.inj same
  simp only [State.finish, h.sinkTakes]
  split
  · exact (((State.SameEffect.of_agree h).setChan rfl).send fs₁).answer _ _
  · exact (State.SameEffect.of_agree h).wait i

end State.Agree

/-! ## The operations -/

/-- The operation has a next state from both, with the same effect. -/
def ExecAlike (i : Instr) (c : UnitNo) (s₁ s₂ : State) : Prop :=
  ∃ t₁ t₂, exec i s₁ = .next t₁ ∧ exec i s₂ = .next t₂ ∧ State.SameEffect c s₁ s₂ t₁ t₂

section
variable {c : UnitNo} {s₁ s₂ : State} (h : s₁.Agree c s₂)
include h

theorem chinit_alike (served : s₁.served c) : ExecAlike (.chinit c) c s₁ s₂ := by
  have same := State.SameEffect.of_agree h
  cases legal : channelLegal s₁.cfg c with
  | false =>
    exact ⟨_, _, exec_chinit_illegal served legal, exec_chinit_illegal (h.served served) (h.cfg ▸ legal),
      same.refuse _ _⟩
  | true =>
    refine ⟨_, _, exec_chinit_legal served legal, exec_chinit_legal (h.served served) (h.cfg ▸ legal), ?_⟩
    have set := same.setChan
      (k₁ := freshChannel s₁.cfg c s₁.free (s₁.chan c)) (by rw [h.cfg, h.free, h.chan])
    exact
      { sp := set.sp
        chan := set.chan
        engine := set.engine
        outputs := ⟨[], _, (List.append_nil _).symm, (List.append_nil _).symm, rfl, by rw [h.cfg]⟩ }

theorem get_alike (served : s₁.served c) : ExecAlike (.get c) c s₁ s₂ := by
  have same := State.SameEffect.of_agree h
  have served₂ := h.served served
  cases avail : s₁.sp.avail c with
  | true =>
    exact ⟨_, _, exec_get_avail served avail, exec_get_avail served₂ (h.sp ▸ avail), same.answer _ _⟩
  | false =>
    cases done : s₁.sp.done c with
    | true =>
      exact ⟨_, _, exec_get_done served avail done, exec_get_done served₂ (h.sp ▸ avail) (h.sp ▸ done),
        same.endEngine.answer _ _⟩
    | false =>
      exact ⟨_, _, exec_get_waits served avail done,
        exec_get_waits served₂ (h.sp ▸ avail) (h.sp ▸ done), same.wait _⟩

theorem next_alike (served : s₁.served c) : ExecAlike (.next c) c s₁ s₂ := by
  have same := State.SameEffect.of_agree h
  have served₂ := h.served served
  cases avail : s₁.sp.avail c with
  | true =>
    exact ⟨_, _, exec_next_avail served avail, exec_next_avail served₂ (h.sp ▸ avail),
      (same.setSplitter (by rw [h.sp])).answer _ _⟩
  | false =>
    exact ⟨_, _, exec_next_at_write served avail, exec_next_at_write served₂ (h.sp ▸ avail),
      same.refuse _ _⟩

/-- A stage operation, `f` being what it does to a channel. -/
theorem stage_alike {i : Instr} {f : Params → Channel → Channel} (ready : s₁.ready c)
    (hi : ∀ u : State, u.ready c →
      exec i u = .next ((u.setChan c (f u.cfg (u.chan c))).answer .nothing)) :
    ExecAlike i c s₁ s₂ :=
  ⟨_, _, hi _ ready, hi _ (h.ready ready),
    ((State.SameEffect.of_agree h).setChan (h.apply f)).answer _ _⟩

theorem bsync_alike (ready : s₁.ready c) : ExecAlike (.bsync c) c s₁ s₂ := by
  have same := State.SameEffect.of_agree h
  have ready₂ := h.ready ready
  by_cases empty : (s₁.chan c).tq = []
  · exact ⟨_, _, exec_bsync_empty ready empty, exec_bsync_empty ready₂ (h.chan ▸ empty), same.refuse _ _⟩
  · have taken := h.apply bsyncChannel
    cases result : bsyncChannel s₁.cfg (s₁.chan c) with
    | none =>
      exact ⟨_, _, exec_bsync_stuck ready empty result,
        exec_bsync_stuck ready₂ (h.chan ▸ empty) (taken.symm.trans result), same.wait _⟩
    | some k =>
      exact ⟨_, _, exec_bsync_takes ready empty result,
        exec_bsync_takes ready₂ (h.chan ▸ empty) (taken.symm.trans result),
        (same.setChan rfl).answer _ _⟩

theorem fecbit_alike (ready : s₁.ready c) : ExecAlike (.fecbit c) c s₁ s₂ := by
  have ready₂ := h.ready ready
  cases hq : (s₁.chan c).bq with
  | nil =>
    exact ⟨_, _, exec_fecbit_empty ready hq, exec_fecbit_empty ready₂ (h.chan ▸ hq),
      (State.SameEffect.of_agree h).refuse _ _⟩
  | cons v rest =>
    exact ⟨_, _, exec_fecbit_ready ready hq, exec_fecbit_ready ready₂ (h.chan ▸ hq),
      h.finish _ (h.apply fun cfg k => fecbitChannel cfg c k)⟩

theorem fecdec_alike (ready : s₁.ready c) : ExecAlike (.fecdec c) c s₁ s₂ :=
  ⟨_, _, exec_fecdec_ready ready, exec_fecdec_ready (h.ready ready),
    h.finish _ (h.apply fun cfg k => ((fecdecChannel cfg c k).1, [(fecdecChannel cfg c k).2]))⟩

theorem loadx_alike (ready : s₁.ready c) : ExecAlike (.loadx c) c s₁ s₂ := by
  have same := State.SameEffect.of_agree h
  have ready₂ := h.ready ready
  have length : fitsBlockMax s₂.cfg s₂.blkIn.length = fitsBlockMax s₁.cfg s₁.blkIn.length := by
    rw [h.cfg, h.blkIn]
  cases fits : fitsBlockMax s₁.cfg s₁.blkIn.length with
  | true =>
    exact ⟨_, _, exec_loadx_fits ready fits, exec_loadx_fits ready₂ (length.trans fits),
      (same.setChan (by rw [h.chan, h.blkIn])).answer _ _⟩
  | false =>
    exact ⟨_, _, exec_loadx_tooLong ready fits, exec_loadx_tooLong ready₂ (length.trans fits),
      same.refuse _ _⟩

theorem block_alike (ready : s₁.ready c) : ExecAlike (.block c) c s₁ s₂ := by
  have same := State.SameEffect.of_agree h
  have ready₂ := h.ready ready
  cases avail : s₁.sp.avail c with
  | true =>
    have copied := same.setChan (k₁ := { s₁.chan c with x := s₁.sp.blockAt c }) (by rw [h.chan, h.sp])
    exact ⟨_, _, exec_block_ready ready avail, exec_block_ready ready₂ (h.sp ▸ avail),
      (copied.begin (by rw [h.sp])).answer _ _⟩
  | false =>
    exact ⟨_, _, exec_block_at_write ready avail, exec_block_at_write ready₂ (h.sp ▸ avail),
      same.refuse _ _⟩

theorem run_alike (ready : s₁.ready c) : ExecAlike (.run c) c s₁ s₂ := by
  have same := State.SameEffect.of_agree h
  have ready₂ := h.ready ready
  cases avail : s₁.sp.avail c with
  | true =>
    exact ⟨_, _, exec_run_avail ready avail, exec_run_avail ready₂ (h.sp ▸ avail),
      (same.begin rfl).answer _ _⟩
  | false =>
    cases done : s₁.sp.done c with
    | true =>
      exact ⟨_, _, exec_run_done ready avail done, exec_run_done ready₂ (h.sp ▸ avail) (h.sp ▸ done),
        same.endEngine.answer _ _⟩
    | false =>
      exact ⟨_, _, exec_run_waits ready avail done,
        exec_run_waits ready₂ (h.sp ▸ avail) (h.sp ▸ done), same.wait _⟩

/-- An operation on a channel, which is refused in both states or in operation in both. -/
theorem alike_of_ready {i : Instr} (hu : i.usesChannel = true) (hi : i.unit? = some c)
    (ops : s₁.ready c → ExecAlike i c s₁ s₂) : ExecAlike i c s₁ s₂ := by
  rcases s₁.ready_or_refused c with ready | ⟨e, refused⟩
  · exact ops ready
  · exact ⟨_, _, exec_of_channelRefusal hu hi refused,
      exec_of_channelRefusal hu hi (h.channelRefusal.symm.trans refused),
      (State.SameEffect.of_agree h).refuse e c⟩

/-- An operation of a consumer, which is refused in both states or served in both. -/
theorem alike_of_served {i : Instr} (hi : i.unit? = some c)
    (ops : s₁.served c → ExecAlike i c s₁ s₂) : ExecAlike i c s₁ s₂ := by
  rcases s₁.served_or_refused c with served | ⟨e, refused⟩
  · exact ops served
  · exact ⟨_, _, exec_of_consumerRefusal hi refused,
      exec_of_consumerRefusal hi (h.consumerRefusal.symm.trans refused),
      (State.SameEffect.of_agree h).refuse e c⟩

theorem exec_alike {i : Instr} (hi : i.unit? = some c) : ExecAlike i c s₁ s₂ := by
  cases i with
  | spinit | push | close | pump => exact absurd hi nofun
  | chinit d =>
    cases hi
    exact alike_of_served h rfl (chinit_alike h)
  | get d =>
    cases hi
    exact alike_of_served h rfl (get_alike h)
  | next d =>
    cases hi
    exact alike_of_served h rfl (next_alike h)
  | shift d =>
    cases hi
    exact alike_of_ready h rfl rfl fun ready => stage_alike h ready fun _ => exec_shift_ready
  | lpf d =>
    cases hi
    exact alike_of_ready h rfl rfl fun ready => stage_alike h ready fun _ => exec_lpf_ready
  | disc d =>
    cases hi
    exact alike_of_ready h rfl rfl fun ready => stage_alike h ready fun _ => exec_disc_ready
  | extr d =>
    cases hi
    exact alike_of_ready h rfl rfl fun ready =>
      stage_alike h (f := fun _ => extrChannel) ready fun _ => exec_extr_ready
  | bsync d =>
    cases hi
    exact alike_of_ready h rfl rfl (bsync_alike h)
  | fecbit d =>
    cases hi
    exact alike_of_ready h rfl rfl (fecbit_alike h)
  | fecdec d =>
    cases hi
    exact alike_of_ready h rfl rfl (fecdec_alike h)
  | loadx d =>
    cases hi
    exact alike_of_ready h rfl rfl (loadx_alike h)
  | block d =>
    cases hi
    exact alike_of_ready h rfl rfl (block_alike h)
  | run d =>
    cases hi
    exact alike_of_ready h rfl rfl (run_alike h)

end

/-- Settles O57, by cases on the operation and on what the two states agree on. -/
theorem channelSeesNoOther : Obligations.ChannelSeesNoOther := by
  intro i c s₁ s₂ t₁ t₂ hi cfg sp chan engine sinkTakes blkIn free h₁ h₂
  obtain ⟨u₁, u₂, e₁, e₂, same⟩ := exec_alike ⟨cfg, sp, chan, engine, sinkTakes, blkIn, free⟩ hi
  obtain rfl := Host.Outcome.next.inj (e₁.symm.trans h₁)
  obtain rfl := Host.Outcome.next.inj (e₂.symm.trans h₂)
  exact ⟨same.sp, same.chan, same.engine, same.outputs⟩

end Sys2Proof.Machine
end

section
/-!
PROOFS. The producer (spec R308, R310, R336, R397): its push of the block it holds, and the exact conversion
of the IQ words it reads.
-/

namespace Sys2Proof

/-- A format reaches beyond its largest power of two. -/
theorem two_pow_lt_overflowAt {f : Format} (hp : 1 ≤ f.prec) : (2 : Rat) ^ f.emax < overflowAt f := by
  have half : (2 : Rat) ^ ((f.emax : Int) - f.prec) < 2 ^ (f.emax : Int) :=
    zpow_lt_zpow_right₀ (by norm_num) (by omega)
  have whole : (2 : Rat) ^ ((f.emax : Int) + 1) = 2 ^ (f.emax : Int) + 2 ^ (f.emax : Int) := by
    rw [zpow_add_one₀ (by norm_num), mul_two]
  rw [overflowAt, whole, ← zpow_natCast]
  linarith

/-- An integer up to `2^k` is a value of every format with more than `k` bits and exponents up to `k`. -/
theorem ofInt_exact {f : Format} (hf : f.legal = true) {z : Int} {k : Nat} (hz : |z| ≤ 2 ^ k)
    (bits : k + 1 ≤ f.prec) (exponents : k ≤ f.emax) : (ofInt f z).toRat? = some (z : Rat) := by
  obtain ⟨-, he⟩ := f.legal_iff.1 hf
  obtain ⟨j, hj⟩ : ∃ j : Nat, f.prec = k + 1 + j := ⟨f.prec - (k + 1), by omega⟩
  have small : |z * 2 ^ j| < 2 ^ f.prec := by
    rw [abs_mul, abs_of_pos (a := (2 : Int) ^ j) (by positivity)]
    calc |z| * 2 ^ j ≤ 2 ^ k * 2 ^ j := by gcongr
      _ = 2 ^ (k + j) := (pow_add 2 k j).symm
      _ < 2 ^ f.prec := pow_lt_pow_right₀ (by norm_num) (by omega)
  obtain ⟨y, hy, value⟩ := Format.exists_datum_int (e := -j) (by omega) small
    (by simp only [Format.etiny]; omega) (by omega)
  have cancel : ((z * 2 ^ j : Int) : Rat) * 2 ^ (-j : Int) = z := by
    push_cast
    rw [zpow_neg, zpow_natCast, mul_inv_cancel_right₀ (by positivity)]
  have inside : |(z : Rat)| < overflowAt f :=
    calc |(z : Rat)| ≤ 2 ^ k := by exact_mod_cast hz
      _ ≤ 2 ^ f.emax := pow_le_pow_right₀ (by norm_num) exponents
      _ < overflowAt f := two_pow_lt_overflowAt (by omega)
  exact (ofInt_rounded hf z).exact inside hy (cancel ▸ value)

end Sys2Proof

namespace Sys2Proof.Machine

/-! ## An IQ word (spec R110, R310) -/

theorem abs_byte_toInt_le (b : Byte) : |b.toInt| ≤ 2 ^ 7 := by
  have low := b.le_two_mul_toInt
  have high := b.two_mul_toInt_lt
  rw [abs_le]
  omega

section
variable {f : Format} (bits : 8 ≤ f.prec) (exponents : 7 ≤ f.emax)
include bits exponents

theorem byteDatum_exact (b : Byte) :
    (byteDatum f b).toRat? = some (b.toInt : Rat) ∧ (byteDatum f b).inFormat f = true := by
  have legal : f.legal = true := f.legal_iff.2 ⟨by omega, by omega⟩
  exact ⟨ofInt_exact legal (abs_byte_toInt_le b) bits exponents,
    (ofInt_rounded legal b.toInt).representable⟩

end

/-- Settles O55: both bytes are exact. -/
theorem iqConversionExact : Obligations.IqConversionExact := by
  intro f w bits exponents
  obtain ⟨re, reFormat⟩ := byteDatum_exact bits exponents (w.extractLsb' 0 8)
  obtain ⟨im, imFormat⟩ := byteDatum_exact bits exponents (w.extractLsb' 8 8)
  exact ⟨re, im, reFormat, imFormat⟩

/-! ## The producer's push (spec R308, R336) -/

section
variable {s t : State} {blk : Block} (holds : s.prod.held = some blk)
  (push : (s.setProducer { s.prod with held := none }).pushBlock blk = t)
include holds push

theorem State.pushHeld_of_rejected (h : t.rsp = .pushed false) :
    s.pushHeld = (t.setProducer ⟨none, true⟩).answer .stopped := by
  simp only [State.pushHeld, holds, push, h, if_true]

theorem State.pushHeld_of_pushed (h : t.rsp = .pushed true) : s.pushHeld = t.answer .running := by
  simp [State.pushHeld, holds, push, h]

theorem State.pushHeld_of_refused {e : Event} (h : t.rsp = .refused e) : s.pushHeld = t := by
  simp [State.pushHeld, holds, push, h]

end

/-- Settles O54: the checks of the push, and what its answer makes of the producer. -/
theorem producerPushes : Obligations.ProducerPushes := by
  intro s rest blk hturns holds nonempty bounded
  have turn : step s = .next (s.setTurns rest).pushHeld := step_turn hturns
  have fits := (fitsBlockMax_iff s.cfg blk.length).2 bounded
  have holds' : (s.setTurns rest).prod.held = some blk := holds
  rw [turn]
  refine ⟨fun closed => ?_, fun isOpen room => ?_, fun isOpen full => ?_⟩
  · rw [State.pushHeld_of_rejected holds' (State.pushBlock_closed nonempty fits closed) rfl]
    rfl
  · have notFull : windowFull s.cfg s.sp.window = false :=
      Bool.eq_false_iff.2 fun full => room ((windowFull_iff _ _).1 full)
    have push := State.pushBlock_appends
      (s := (s.setTurns rest).setProducer { s.prod with held := none }) nonempty fits isOpen notFull
    rw [Splitter.append_eq] at push
    rw [State.pushHeld_of_pushed holds' push rfl]
    rfl
  · rw [State.pushHeld_of_refused holds'
      (State.pushBlock_full nonempty fits isOpen ((windowFull_iff _ _).2 full)) rfl]
    rfl

end Sys2Proof.Machine
end

section
/-!
PROOFS. The state after reset (spec R370, R372): nothing is constructed and no agent has begun anything, so
the invariants have nothing to speak of.
-/

namespace Sys2Proof.Machine

theorem State.reset_not_constructed (c : UnitNo) : (State.reset.chan c).constructed = false := by
  rw [State.reset_chan]
  rfl

theorem State.reset_inv : State.reset.Inv where
  splitter := fun constructed => absurd constructed Bool.false_ne_true
  channels := fun c constructed =>
    absurd ((State.reset_not_constructed c).symm.trans constructed) Bool.false_ne_true
  agents :=
    { engines := fun c i begun => by
        rw [State.reset_engine] at begun
        exact absurd begun List.not_mem_nil
      held_constructed := nofun
      held_legal := nofun }

/-- Settles O45. -/
theorem invariantAtReset : Obligations.InvariantAtReset :=
  ⟨State.reset_inv, rfl, State.reset_not_constructed⟩

end Sys2Proof.Machine
end
